-- ==== Sys2Proof/Word.lean ====
section
/-! DEFINITION. The word types of STE: every word is an unsigned integer, held as a bit vector
whose bit 0 is the least significant (spec/00_scope.md R17, spec/42_lcg_mac128.md R150). -/

namespace Sys2Proof

/-- One byte of the command stream or of DOUT. -/
abbrev Byte := BitVec 8

/-- A 64-bit word: a kernel operand, a coefficient word, a binary64, half of a 128-bit value. -/
abbrev Word64 := BitVec 64

end Sys2Proof
end

