-- ==== Sys2Proof/Machine/Bytes.lean ====
section
/-! DEFINITION. Byte order: every multi-byte quantity that crosses the command stream or DOUT is
little-endian within the word (spec/20_memory.md R52; `le_n`, `bytes_n` and `payload[a:b]` of
spec/00_scope.md R18). -/

namespace Sys2Proof.Machine

/-- The unsigned integer whose byte i supplies bits 8i+7 down to 8i (R18). -/
def leNat : List Byte → Nat
  | [] => 0
  | b :: bs => b.toNat + 256 * leNat bs

/-- The low `n` bytes of a natural number, low byte first. -/
def natBytes : Nat → Nat → List Byte
  | 0, _ => []
  | n + 1, v => BitVec.ofNat 8 v :: natBytes n (v / 256)

/-- `le_n(bytes)` as a `w`-bit word (R18). -/
def leWord (w : Nat) (bs : List Byte) : BitVec w := BitVec.ofNat w (leNat bs)

/-- `bytes_n(v)`: the `n` bytes of a word, the byte of bits 7 to 0 first (R18, R52). -/
def leBytes (n : Nat) {w : Nat} (v : BitVec w) : List Byte := natBytes n v.toNat

/-- `payload[a:b]`: payload bytes a up to b - 1 (R18). -/
def slice (payload : List Byte) (a b : Nat) : List Byte := (payload.drop a).take (b - a)

end Sys2Proof.Machine
end

