-- ==== Sys2Proof/Machine/Operands.lean ====
section
/-! DEFINITION. The operand forms of spec/30_encoding.md R74: words assembled from a payload. No
operand is sign-extended, scaled or shifted, and a 128-bit operand is two `w64`, the high half
first. -/

namespace Sys2Proof.Machine

/-- `w64[i]`: the i-th 64-bit word of a payload (R74). -/
def w64 (payload : List Byte) (i : Nat) : Word64 := leWord 64 (slice payload (8 * i) (8 * i + 8))

/-- All `n` leading 64-bit words of a payload, word 0 first (R74). -/
def w64s (payload : List Byte) (n : Nat) : List Word64 := (List.range n).map (w64 payload)

/-- `wW[i]`: the i-th word of `w` bits of a payload, w/8 bytes each (R74). -/
def wWord (w : Nat) (payload : List Byte) (i : Nat) : BitVec w :=
  leWord w (slice payload (w / 8 * i) (w / 8 * i + w / 8))

/-- All whole `w`-bit words of a payload, word 0 first: n = plen / WB of them (R74, R220). -/
def wWords (w : Nat) (payload : List Byte) : List (BitVec w) :=
  (List.range (payload.length / (w / 8))).map (wWord w payload)

end Sys2Proof.Machine
end

