-- ==== Sys2Proof/Config.lean ====
section
/-! DEFINITION. The configuration record CFG (spec/00_scope.md R6 to R14): what an
implementation fixes when the engine is built and no command changes. The obligations the spec
puts on a CFG are in Machine/Contract.lean, the numbers that follow from one in
Machine/Params.lean, the reference configurations in Machine/Reference.lean. -/

namespace Sys2Proof

/-- CFG.KIND together with CFG.W and CFG.L, in the combinations R6, R7 and R10 allow: a
stand-alone XBG of 32- or 64-bit words, or the LXM composite (W = 64) with a 64- or 128-bit LCG. -/
inductive Kind where
  | x32
  | x64
  | lx64
  | lx128
deriving DecidableEq, Repr, Inhabited

/-- KIND = LX (R6). -/
def Kind.isLX : Kind → Bool
  | .x32 => false
  | .x64 => false
  | .lx64 => true
  | .lx128 => true

/-- CFG.W, the native word width in bits (R7). -/
def Kind.wordBits : Kind → Nat
  | .x32 => 32
  | .x64 => 64
  | .lx64 => 64
  | .lx128 => 64

/-- CFG.L, the LCG width in bits (R10); 0, so that the LCG registers are absent, when KIND = X. -/
def Kind.lcgBits : Kind → Nat
  | .x32 => 0
  | .x64 => 0
  | .lx64 => 64
  | .lx128 => 128

/-- The width of HC: present only when W = 64 (spec/10_state.md R28); 0 bits when W = 32. -/
def Kind.hcBits : Kind → Nat
  | .x32 => 0
  | .x64 => 64
  | .lx64 => 64
  | .lx128 => 64

/-- CFG.N, the XBG word count: 2, 4, 8 or 16 (R7). -/
inductive WordCount where
  | two
  | four
  | eight
  | sixteen
deriving DecidableEq, Repr, Inhabited

/-- log2 N, the width of a ring's cursor (spec/10_state.md R22). -/
def WordCount.log2 : WordCount → Nat
  | .two => 1
  | .four => 2
  | .eight => 3
  | .sixteen => 4

/-- N as a number (R7). -/
def WordCount.count (n : WordCount) : Nat := 2 ^ n.log2

/-- The width of CUR: log2 N when RING, and 0 bits, so that it reads 0, when there is no CUR
register (R7, spec/10_state.md R22). -/
def cursorBits (ring : Bool) (n : WordCount) : Nat := if ring then n.log2 else 0

/-- The N words X[0..N-1] of an XBG, as a vector of W-bit words (R8, spec/10_state.md R21). -/
abbrev XVec (k : Kind) (n : WordCount) := Vector (BitVec k.wordBits) n.count

/-- A jump descriptor (R12): an XBG part C of K >= 1 coefficient words (here its first word and
the rest), an LCG part k with k < L (so only when KIND = LX), or both; at least one is present. -/
inductive JumpDescriptor (lcgBits : Nat) where
  | xbg (first : Word64) (rest : List Word64)
  | lcg (k : Fin lcgBits)
  | both (first : Word64) (rest : List Word64) (k : Fin lcgBits)
deriving DecidableEq, Repr

/-- The configuration record CFG. A field the spec gives one KIND only (`transform` for X; `mLow`,
`mix` for LX; `headIndex` for a ring) is read by no rule of the other. -/
structure Cfg where
  /-- CFG.KIND, CFG.W and CFG.L (R6, R7, R10). -/
  kind : Kind
  /-- CFG.N (R7). -/
  words : WordCount
  /-- CFG.RING (R7). -/
  ring : Bool
  /-- CFG.XBG_UPDATE (R8): from (X, cur) to (X', cur'). -/
  update : XVec kind words → BitVec (cursorBits ring words) →
    XVec kind words × BitVec (cursorBits ring words)
  /-- CFG.TRANSFORM (R9): the output of a stand-alone XBG, from (X, cur) before the update. -/
  transform : XVec kind words → BitVec (cursorBits ring words) → BitVec kind.wordBits
  /-- Which physical word CFG.HEAD selects when RING (R9): "by cur alone". -/
  headIndex : BitVec (cursorBits ring words) → BitVec words.log2
  /-- CFG.M when L = 64, and M_LOW of M = 2^64 + M_LOW when L = 128 (R10). -/
  mLow : Word64
  /-- CFG.MIX (R11). -/
  mix : Word64 → Word64
  /-- CFG.JUMP, absent or a descriptor (R12). -/
  jump : Option (JumpDescriptor kind.lcgBits)
  /-- CFG.LJUMP, absent or a descriptor (R12). -/
  ljump : Option (JumpDescriptor kind.lcgBits)
  /-- CFG.PERIOD (R13). -/
  period : Nat
  /-- CFG.SEED_GAMMA (R14). -/
  seedGamma : BitVec kind.wordBits
  /-- CFG.SEED_FIN (R14). -/
  seedFin : BitVec kind.wordBits → BitVec kind.wordBits
deriving Inhabited

/-- W. -/
abbrev Cfg.wordBits (c : Cfg) : Nat := c.kind.wordBits

/-- L, 0 when KIND = X. -/
abbrev Cfg.lcgBits (c : Cfg) : Nat := c.kind.lcgBits

/-- N. -/
abbrev Cfg.count (c : Cfg) : Nat := c.words.count

/-- The width of CUR. -/
abbrev Cfg.curBits (c : Cfg) : Nat := cursorBits c.ring c.words

/-- The type of X[0..N-1]. -/
abbrev Cfg.XRegs (c : Cfg) := XVec c.kind c.words

/-- Names the configuration an instance was built with: plain data, so that State can hold it. The
reference configurations are those of spec/93_implementation_defined.md section G; the two
`refX256SSNo…` ones are the configuration of spec/96_test_vectors_programs.md V-FLT-2 (no
CFG.LJUMP) and its like without CFG.JUMP; the two `…ShortJumps` ones have jumps by one and two
cycles (log 8). `other n` is every other configuration. -/
inductive CfgId where
  | refX128P
  | refX256SS
  | refX128W32SS
  | refX1024SS
  | refL64X128
  | refL128X128
  | refX256SSNoLongJump
  | refX256SSNoJump
  | refX1024SSShortJumps
  | refL64X128ShortJumps
  | other (n : Nat)
deriving DecidableEq, Repr

/-- DESIGN CHOICE (safe, log 4). Every field of CFG is an open parameter of the spec
(spec/92_eei_decisions.md): a configuration that is none of the named ones is a constant of which
nothing is known, so what is proved of it holds of every CFG. -/
opaque Config.other : Nat → Cfg

end Sys2Proof
end

