-- ==== Sys2Proof/Syntax.lean ====
section
/-! DEFINITION. The fifteen commands of STE (spec/30_encoding.md R77), one constructor for each row
of spec/opcode_table.json, with the operands R74 to R76 give it. -/

namespace Sys2Proof

/-- A command. Operands that are 64-bit words in every configuration are words; the operands of
RESTORE and SEED are payload bytes, because what they mean depends on CFG (R76). -/
inductive Instr where
  /-- 0x01: draw one native word and emit it (R101). -/
  | next
  /-- 0x02: emit one 32-bit word (R103). -/
  | nextint
  /-- 0x03: emit one 64-bit word (R102). -/
  | nextlong
  /-- 0x04: emit one boolean (R104). -/
  | nextbool
  /-- 0x10: jump by CFG.JUMP (R126). -/
  | jump
  /-- 0x11: jump by CFG.LJUMP (R127). -/
  | longjump
  /-- 0x12: encode the distance whose binary64 bits are `d` (R190). -/
  | denc (d : Word64)
  /-- 0x13: jump by the coefficient words `coeffs`, K >= 1 of them (R128). -/
  | jumpv (coeffs : List Word64)
  /-- 0x20: append the serialized form of G to DOUT (R212). -/
  | save
  /-- 0x21: load G from a serialized form (R214). -/
  | restore (payload : List Byte)
  /-- 0x22: create the generator state from a seed, whole W-bit words (R220). -/
  | seed (payload : List Byte)
  /-- 0x23: exchange the banks (R225). -/
  | xchg
  /-- 0x30: the high half of a 64 by 64 product (R155). -/
  | umulh (a b : Word64)
  /-- 0x31: the carry of a 64-bit sum (R156). -/
  | uaddh (a b : Word64)
  /-- 0x32: one 128-bit modular multiply-add (R157). -/
  | mac128 (mh ml xh xl ah al : Word64)
deriving DecidableEq, Repr

end Sys2Proof
end

