-- ==== Sys2Proof/WellFormed.lean ====
section
/-! DEFINITION. Which commands have an encoding: the payload-length conditions of
spec/30_encoding.md R70 (plen is 16 bits) and R76. -/

namespace Sys2Proof

/-- plen is a 16-bit field (R70, R71). -/
def maxPayload : Nat := 65535

/-- The command is one that a legal packet stands for, on an engine whose native words have `wb`
bytes: JUMPV has at least one word, SEED a whole number of W-bit words, and no payload is longer
than plen can say (R70, R76). Every other command has a payload of fixed length. -/
def Instr.wellFormed (wb : Nat) : Instr → Bool
  | .next => true
  | .nextint => true
  | .nextlong => true
  | .nextbool => true
  | .jump => true
  | .longjump => true
  | .denc _ => true
  | .jumpv coeffs => !coeffs.isEmpty && decide (8 * coeffs.length ≤ maxPayload)
  | .save => true
  | .restore payload => decide (payload.length ≤ maxPayload)
  | .seed payload => decide (payload.length % wb = 0) && decide (payload.length ≤ maxPayload)
  | .xchg => true
  | .umulh _ _ => true
  | .uaddh _ _ => true
  | .mac128 _ _ _ _ _ _ => true

end Sys2Proof
end

