-- ==== Sys2Proof/Decode.lean ====
section
/-! DEFINITION. Packets, the decoder and the encoder (spec/30_encoding.md R70 to R80). The decoder
is total on every byte string and rejects by name; the encoder after it is written from the same
rules. -/

namespace Sys2Proof

open Machine

/-- The opcodes of the map of R77. -/
inductive Opcode where
  | next | nextint | nextlong | nextbool
  | jump | longjump | denc | jumpv
  | save | restore | seed | xchg
  | umulh | uaddh | mac128
deriving DecidableEq, Repr

/-- The opcode map in the order of R77. -/
def Opcode.all : List Opcode :=
  [.next, .nextint, .nextlong, .nextbool, .jump, .longjump, .denc, .jumpv, .save, .restore,
    .seed, .xchg, .umulh, .uaddh, .mac128]

/-- The `op` byte (R77). -/
def Opcode.byte : Opcode → Byte
  | .next => 0x01
  | .nextint => 0x02
  | .nextlong => 0x03
  | .nextbool => 0x04
  | .jump => 0x10
  | .longjump => 0x11
  | .denc => 0x12
  | .jumpv => 0x13
  | .save => 0x20
  | .restore => 0x21
  | .seed => 0x22
  | .xchg => 0x23
  | .umulh => 0x30
  | .uaddh => 0x31
  | .mac128 => 0x32

/-- The payload length of a fixed-length opcode (R75); none for the three of R76. -/
def Opcode.fixedLength : Opcode → Option Nat
  | .next => some 0
  | .nextint => some 0
  | .nextlong => some 0
  | .nextbool => some 0
  | .jump => some 0
  | .longjump => some 0
  | .denc => some 8
  | .jumpv => none
  | .save => some 0
  | .restore => none
  | .seed => none
  | .xchg => some 0
  | .umulh => some 16
  | .uaddh => some 16
  | .mac128 => some 48

/-- The opcode an `op` byte names; none for the 241 unused values (R78). -/
def Opcode.ofByte (op : Byte) : Option Opcode := Opcode.all.find? fun o => o.byte == op

/-- The payload lengths an opcode admits on an engine with `wb` bytes in a native word: R75 for
the fixed-length ones, R76 for JUMPV, RESTORE and SEED. -/
def Opcode.lengthLegal (wb : Nat) (o : Opcode) (plen : Nat) : Bool :=
  match o.fixedLength with
  | some n => plen == n
  | none =>
    match o with
    | .jumpv => decide (8 ≤ plen) && plen % 8 == 0
    | .seed => plen % wb == 0
    | _ => true

/-- A complete packet (R70, R71): the header's `op` and `rsv` bytes and the payload, whose length
is plen. -/
structure Packet where
  op : Byte
  rsv : Byte
  payload : List Byte
deriving DecidableEq, Repr

/-- The 32-bit header H of a packet (R71): op in bits 7:0, rsv in 15:8, plen in 31:16. -/
def Packet.header (p : Packet) : BitVec 32 :=
  BitVec.ofNat 16 p.payload.length ++ p.rsv ++ p.op

/-- The bytes of a packet as the host sends them: H little-endian, then the payload (R70, R71). -/
def Packet.bytes (p : Packet) : List Byte := leBytes 4 p.header ++ p.payload

/-- Why a packet is illegal (R78). -/
inductive Illegal where
  /-- `rsv` is not 0. -/
  | reservedByte (rsv : Byte)
  /-- `op` is not one of the fifteen opcodes. -/
  | unknownOpcode (op : Byte)
  /-- plen differs from R75, or breaks R76 for JUMPV or SEED. -/
  | payloadLength (op : Opcode) (plen : Nat)
deriving DecidableEq, Repr

/-- The next packet of a command stream and the rest of the stream (R72); none when the stream
ends inside a header or inside a payload (R73). Framing looks at plen alone. -/
def nextPacket (stream : List Byte) : Option (Packet × List Byte) :=
  if stream.length < 4 then none
  else
    let h : BitVec 32 := leWord 32 (stream.take 4)
    let plen := (h.extractLsb' 16 16).toNat
    let body := stream.drop 4
    if body.length < plen then none
    else some (⟨h.extractLsb' 0 8, h.extractLsb' 8 8, body.take plen⟩, body.drop plen)

/-- The complete packets of a stream and its truncated remainder, with `fuel` at least the
number of packets. -/
def splitPacketsFuel : Nat → List Byte → List Packet × List Byte
  | 0, stream => ([], stream)
  | fuel + 1, stream =>
    match nextPacket stream with
    | none => ([], stream)
    | some (p, rest) =>
      let r := splitPacketsFuel fuel rest
      (p :: r.1, r.2)

/-- R73: the decoder "returns a list of complete packets and, possibly, a truncated remainder".
Every packet has at least four bytes, so the stream's length is fuel enough. -/
def splitPackets (stream : List Byte) : List Packet × List Byte :=
  splitPacketsFuel stream.length stream

/-- The command an opcode makes of a payload of legal length (R74). -/
def Opcode.operands (o : Opcode) (payload : List Byte) : Instr :=
  match o with
  | .next => .next
  | .nextint => .nextint
  | .nextlong => .nextlong
  | .nextbool => .nextbool
  | .jump => .jump
  | .longjump => .longjump
  | .denc => .denc (w64 payload 0)
  | .jumpv => .jumpv (w64s payload (payload.length / 8))
  | .save => .save
  | .restore => .restore payload
  | .seed => .seed payload
  | .xchg => .xchg
  | .umulh => .umulh (w64 payload 0) (w64 payload 1)
  | .uaddh => .uaddh (w64 payload 0) (w64 payload 1)
  | .mac128 =>
    .mac128 (w64 payload 0) (w64 payload 1) (w64 payload 2) (w64 payload 3) (w64 payload 4)
      (w64 payload 5)

/-- The command a packet stands for on an engine with `wb` bytes in a native word, or why it is
illegal (R78). -/
def decodePacket (wb : Nat) (p : Packet) : Except Illegal Instr :=
  if p.rsv != 0 then .error (.reservedByte p.rsv)
  else
    match Opcode.ofByte p.op with
    | none => .error (.unknownOpcode p.op)
    | some o =>
      if o.lengthLegal wb p.payload.length then .ok (o.operands p.payload)
      else .error (.payloadLength o p.payload.length)

/-! ### The encoder -/

/-- The opcode of a command (R77). -/
def Instr.opcode : Instr → Opcode
  | .next => .next
  | .nextint => .nextint
  | .nextlong => .nextlong
  | .nextbool => .nextbool
  | .jump => .jump
  | .longjump => .longjump
  | .denc _ => .denc
  | .jumpv _ => .jumpv
  | .save => .save
  | .restore _ => .restore
  | .seed _ => .seed
  | .xchg => .xchg
  | .umulh _ _ => .umulh
  | .uaddh _ _ => .uaddh
  | .mac128 _ _ _ _ _ _ => .mac128

/-- The payload bytes of a command (R74, R81). -/
def Instr.payload : Instr → List Byte
  | .next => []
  | .nextint => []
  | .nextlong => []
  | .nextbool => []
  | .jump => []
  | .longjump => []
  | .denc d => leBytes 8 d
  | .jumpv coeffs => coeffs.flatMap (leBytes 8)
  | .save => []
  | .restore payload => payload
  | .seed payload => payload
  | .xchg => []
  | .umulh a b => leBytes 8 a ++ leBytes 8 b
  | .uaddh a b => leBytes 8 a ++ leBytes 8 b
  | .mac128 mh ml xh xl ah al =>
    leBytes 8 mh ++ leBytes 8 ml ++ leBytes 8 xh ++ leBytes 8 xl ++ leBytes 8 ah ++ leBytes 8 al

/-- The packet of a command. -/
def encodePacket (i : Instr) : Packet := ⟨i.opcode.byte, 0, i.payload⟩

/-- The bytes of a command: header, then payload (R70, R81). -/
def encode (i : Instr) : List Byte := (encodePacket i).bytes

/-! ### The opcode map as match and mask -/

/-- One row of the opcode map of R77. -/
structure OpcodeRow where
  op : Opcode
  matchBits : BitVec 32
  mask : BitVec 32
deriving DecidableEq, Repr

/-- The opcode map of R77, as printed there and in spec/opcode_table.json. -/
def opcodeTable : List OpcodeRow :=
  [⟨.next, 0x00000001, 0xFFFFFFFF⟩,
   ⟨.nextint, 0x00000002, 0xFFFFFFFF⟩,
   ⟨.nextlong, 0x00000003, 0xFFFFFFFF⟩,
   ⟨.nextbool, 0x00000004, 0xFFFFFFFF⟩,
   ⟨.jump, 0x00000010, 0xFFFFFFFF⟩,
   ⟨.longjump, 0x00000011, 0xFFFFFFFF⟩,
   ⟨.denc, 0x00080012, 0xFFFFFFFF⟩,
   ⟨.jumpv, 0x00000013, 0x0000FFFF⟩,
   ⟨.save, 0x00000020, 0xFFFFFFFF⟩,
   ⟨.restore, 0x00000021, 0x0000FFFF⟩,
   ⟨.seed, 0x00000022, 0x0000FFFF⟩,
   ⟨.xchg, 0x00000023, 0xFFFFFFFF⟩,
   ⟨.umulh, 0x00100030, 0xFFFFFFFF⟩,
   ⟨.uaddh, 0x00100031, 0xFFFFFFFF⟩,
   ⟨.mac128, 0x00300032, 0xFFFFFFFF⟩]

/-- The packet's header selects the row: H and mask = match (R77). -/
def OpcodeRow.selects (r : OpcodeRow) (h : BitVec 32) : Bool := h &&& r.mask == r.matchBits

/-! ### The host's two questions -/

/-- WB of the configuration `State.reset` has (REF-L128X128, log 2). -/
def tableWordBytes : Nat := 8

/-- The bytes of ONE whole packet whose leading `nbits` bits are `w` (bit 0 the least significant
bit of the first byte) and whose other bits are all 0, as many bytes as its plen says. -/
def tableWordPacket (nbits w : Nat) : List Byte :=
  let given := natBytes (nbits / 8) w
  let head := (given ++ List.replicate 4 0).take (max 4 given.length)
  let h : BitVec 32 := leWord 32 (head.take 4)
  let plen := (h.extractLsb' 16 16).toNat
  (head ++ List.replicate plen 0).take (4 + plen)

/-- The instruction the decoder reads from an instruction whose bits are `w` (the host's fixed
name); none where it refuses. -/
def decodeTableWord (nbits w : Nat) : Option Instr :=
  match nextPacket (tableWordPacket nbits w) with
  | none => none
  | some (p, _) =>
    match decodePacket tableWordBytes p with
    | .ok i => some i
    | .error _ => none

end Sys2Proof
end

