-- ==== Sys2Proof/Machine/Reference.lean ====
section
/-! DEFINITION. The six reference configurations of spec/93_implementation_defined.md section G.
Every constant here is marked by the spec itself "from general knowledge, not in source"
(spec/00_scope.md R16): UNVERIFIED, unsafe, log 8. No rule depends on them. -/

namespace Sys2Proof.Machine

/-- `ss_w(v)`: rotl_w(v * 5, 7) * 9 (section G). -/
def starStar {w : Nat} (v : BitVec w) : BitVec w := (v * 5).rotateLeft 7 * 9

/-- SEED_FIN for W = 64 (section G). -/
def seedFin64 (x : BitVec 64) : BitVec 64 :=
  let x := (x ^^^ (x >>> 30)) * 0xBF58476D1CE4E5B9
  let x := (x ^^^ (x >>> 27)) * 0x94D049BB133111EB
  x ^^^ (x >>> 31)

/-- SEED_FIN for W = 32 (section G). -/
def seedFin32 (x : BitVec 32) : BitVec 32 :=
  let x := (x ^^^ (x >>> 16)) * 0x85EBCA6B
  let x := (x ^^^ (x >>> 13)) * 0xC2B2AE35
  x ^^^ (x >>> 16)

/-- SEED_GAMMA for W = 64 (section G). -/
def seedGamma64 : BitVec 64 := 0x9E3779B97F4A7C15

/-- SEED_GAMMA for W = 32 (section G). -/
def seedGamma32 : BitVec 32 := 0x9E3779B9

/-- XBG_UPDATE of G1: the 128-bit XBG of two 64-bit words. -/
def update128 (x : Vector (BitVec 64) 2) : Vector (BitVec 64) 2 :=
  let s0 := x[0]
  let s1 := x[1] ^^^ x[0]
  #v[s0.rotateLeft 24 ^^^ s1 ^^^ (s1 <<< 16), s1.rotateLeft 37]

/-- XBG_UPDATE of G2 and G3: the four-word XBG, with its shift and rotation amounts. -/
def update4 {w : Nat} (shift rot : Nat) (x : Vector (BitVec w) 4) : Vector (BitVec w) 4 :=
  let t := x[1] <<< shift
  let s2 := x[2] ^^^ x[0]
  let s3 := x[3] ^^^ x[1]
  let s1 := x[1] ^^^ s2
  let s0 := x[0] ^^^ s3
  #v[s0, s1, s2 ^^^ t, s3.rotateLeft rot]

/-- XBG_UPDATE of G4: the 1024-bit ring. -/
def update1024 (x : Vector (BitVec 64) 16) (cur : BitVec 4) : Vector (BitVec 64) 16 × BitVec 4 :=
  let q := cur
  let p := cur + 1
  let s0 := x[p.toNat]
  let s15 := x[q.toNat]
  let t := s15 ^^^ s0
  ((x.set q.toNat (s0.rotateLeft 25 ^^^ t ^^^ (t <<< 27))).set p.toNat (t.rotateLeft 36), p)

/-- The head word of G4, X[(cur + 1) mod 16]. -/
def headIndex1024 (cur : BitVec 4) : BitVec 4 := cur + 1

/-- TRANSFORM of G4. -/
def transform1024 (x : Vector (BitVec 64) 16) (cur : BitVec 4) : BitVec 64 :=
  starStar x[(headIndex1024 cur).toNat]

/-- MIX of G5 and G6. -/
def mixLea (z : BitVec 64) : BitVec 64 :=
  let z := (z ^^^ (z >>> 32)) * 0xDABA0B6EB09322E3
  let z := (z ^^^ (z >>> 32)) * 0xDABA0B6EB09322E3
  z ^^^ (z >>> 32)

/-- G1, REF-X128P. -/
def cfgX128P : Cfg where
  kind := .x64
  words := .two
  ring := false
  update x cur := (update128 x, cur)
  transform x _ := x[0]'(by decide) + x[1]'(by decide)
  headIndex _ := 0
  mLow := 0
  mix z := z
  jump := some (.xbg 0xDF900294D8F554A5 [0x170865DF4B3201FC])
  ljump := some (.xbg 0xD2A98B26625EEE7B [0xDDDF9B1090AA7AC1])
  period := 2 ^ 128 - 1
  seedGamma := seedGamma64
  seedFin := seedFin64

/-- G2, REF-X256SS. -/
def cfgX256SS : Cfg where
  kind := .x64
  words := .four
  ring := false
  update x cur := (update4 17 45 x, cur)
  transform x _ := starStar (x[1]'(by decide))
  headIndex _ := 0
  mLow := 0
  mix z := z
  jump := some (.xbg 0x180EC6D33CFD0ABA
    [0xD5A61266F0C9392C, 0xA9582618E03FC9AA, 0x39ABDC4529B1661C])
  ljump := some (.xbg 0x76E15D3EFEFDCBBF
    [0xC5004E441C522FB3, 0x77710069854EE241, 0x39109BB02ACBE635])
  period := 2 ^ 256 - 1
  seedGamma := seedGamma64
  seedFin := seedFin64

/-- G3, REF-X128W32SS: the published 32-bit tables packed two to a word (D30). -/
def cfgX128W32SS : Cfg where
  kind := .x32
  words := .four
  ring := false
  update x cur := (update4 9 11 x, cur)
  transform x _ := starStar (x[1]'(by decide))
  headIndex _ := 0
  mLow := 0
  mix z := z
  jump := some (.xbg 0xF542D2D38764000B [0x77F2DB5B6FA035C3])
  ljump := some (.xbg 0x0B6F099FB523952E [0x1C580662CCF5A0EF])
  period := 2 ^ 128 - 1
  seedGamma := seedGamma32
  seedFin := seedFin32

/-- G4, REF-X1024SS, a ring; its head is X[(cur + 1) mod 16]. -/
def cfgX1024SS : Cfg where
  kind := .x64
  words := .sixteen
  ring := true
  update x cur := update1024 x cur
  transform x cur := transform1024 x cur
  headIndex cur := headIndex1024 cur
  mLow := 0
  mix z := z
  jump := some (.xbg 0x931197D8E3177F17
    [0xB59422E0B9138C5F, 0xF06A6AFB49D668BB, 0xACB8A6412C8A1401,
     0x12304EC85F0B3468, 0xB7DFE7079209891E, 0x405B7EEC77D9EB14, 0x34EAD68280C44E4A,
     0xE0E4BA3E0AC9E366, 0x8F46EDA8348905B7, 0x328BF4DBAD90D6FF, 0xC8FD6FB31C9EFFC3,
     0xE899D452D4B67652, 0x45F387286ADE3205, 0x03864F454A8920BD, 0xA68FA28725B1B384])
  ljump := some (.xbg 0x7374156360BBF00F
    [0x4630C2EFA3B3C1F6, 0x6654183A892786B1, 0x94F7BFCBFB0F1661,
     0x27D8243D3D13EB2D, 0x9701730F3DFB300F, 0x2F293BAAE6F604AD, 0xA661831CB60CD8B6,
     0x68280C77D9FE008C, 0x50554160F5BA9459, 0x2FC20B17EC7B2A9A, 0x49189BBDC8EC9F8F,
     0x92A65BCA41852CC1, 0xF46820DD0509C12A, 0x52B00C35FBF92185, 0x1E5B3B7F589E03C1])
  period := 2 ^ 1024 - 1
  seedGamma := seedGamma64
  seedFin := seedFin64

/-- G5, REF-L64X128. -/
def cfgL64X128 : Cfg where
  kind := .lx64
  words := .two
  ring := false
  update x cur := (update128 x, cur)
  transform x _ := x[0]'(by decide)
  headIndex _ := 0
  mLow := 0xD1342543DE82EF95
  mix := mixLea
  jump := some (.lcg ⟨0, by decide⟩)
  ljump := some (.lcg ⟨32, by decide⟩)
  period := 2 ^ 64 * (2 ^ 128 - 1)
  seedGamma := seedGamma64
  seedFin := seedFin64

/-- G6, REF-L128X128, the shape of the source's own layout example. -/
def cfgL128X128 : Cfg where
  kind := .lx128
  words := .two
  ring := false
  update x cur := (update128 x, cur)
  transform x _ := x[0]'(by decide)
  headIndex _ := 0
  mLow := 0xD605BBB58C8ABBFD
  mix := mixLea
  jump := some (.lcg ⟨0, by decide⟩)
  ljump := some (.lcg ⟨64, by decide⟩)
  period := 2 ^ 128 * (2 ^ 128 - 1)
  seedGamma := seedGamma64
  seedFin := seedFin64

/-- REF-X1024SS with jumps by one and by two cycles, the polynomials x and x^2 (log 8): a ring whose
tables are seen to meet JCOEF. -/
def cfgX1024SSShortJumps : Cfg :=
  { cfgX1024SS with jump := some (.xbg 2 []), ljump := some (.xbg 4 []) }

/-- REF-L64X128 with jumps by one and by two cycles of both sub-generators (log 8): descriptors with
a C part and a K part. -/
def cfgL64X128ShortJumps : Cfg :=
  { cfgL64X128 with
    jump := some (.both 2 [] ⟨0, by decide⟩)
    ljump := some (.both 4 [] ⟨1, by decide⟩) }

/-- The configuration a name stands for. -/
def cfgOf : CfgId → Cfg
  | .refX128P => cfgX128P
  | .refX256SS => cfgX256SS
  | .refX128W32SS => cfgX128W32SS
  | .refX1024SS => cfgX1024SS
  | .refL64X128 => cfgL64X128
  | .refL128X128 => cfgL128X128
  | .refX256SSNoLongJump => { cfgX256SS with ljump := none }
  | .refX256SSNoJump => { cfgX256SS with jump := none }
  | .refX1024SSShortJumps => cfgX1024SSShortJumps
  | .refL64X128ShortJumps => cfgL64X128ShortJumps
  | .other n => Config.other n

end Sys2Proof.Machine
end

