-- ==== Sys2Proof/Machine/State.lean ====
section
/-! DEFINITION. The state of one STE instance (spec/10_state.md) as plain data, why a step can
stop, and the machine right after reset. -/

namespace Sys2Proof.Machine

/-- The fields of one generator bank (spec/10_state.md R20), each as wide as CFG says; a register
the configuration does not have is 0 bits wide, and so reads 0. -/
structure Bank (c : Cfg) where
  /-- X[0..N-1] (R21). -/
  x : Vector (BitVec c.kind.wordBits) c.words.count
  /-- CUR, only when RING (R22). -/
  cur : BitVec (cursorBits c.ring c.words)
  /-- LA, the LCG's additive parameter, only when KIND = LX (R23). -/
  la : BitVec c.kind.lcgBits
  /-- LS, the LCG's current value, only when KIND = LX (R24). -/
  ls : BitVec c.kind.lcgBits
  /-- BC, the boolean cache (R27). -/
  bc : BitVec c.kind.wordBits
  /-- HC, the half-word cache, only when W = 64 (R28). -/
  hc : BitVec c.kind.hcBits
deriving DecidableEq, Repr

/-- Why the machine stops with a fault: never. The five faults of the spec (spec/60_exceptions.md
R241) are refusals of one command after which the engine goes on (R245, R247; spec/70 R279: "A
fault does not end a run"), so they are next states, and nothing else stops the engine (R277). The
type has no constructor, which is safe: log 6. -/
inductive Fault where
deriving DecidableEq, Repr

/-- Why a command has no meaning in the model. -/
inductive Refusal where
  /-- Raised by no arm of `exec`: every row of the opcode table has its meaning. It would be safe. -/
  | notModelled (mnemonic : String)
deriving DecidableEq, Repr

/-- The state of one instance and its two byte streams. -/
structure State where
  /-- The MODEL's own field: which CFG the instance was built with. No step changes it
  (spec/10_state.md R39; log 1). -/
  cfg : CfgId
  /-- Bank G, the active bank; present exactly when G.VALID = 1 (spec/10_state.md R31). -/
  g : Option (Bank (cfgOf cfg))
  /-- Bank S, the shadow bank; present exactly when S.VALID = 1 (R30, R31). -/
  s : Option (Bank (cfgOf cfg))
  /-- LAST = STAT[7:4], the fault code of the latest command (R32). -/
  last : BitVec 4
  /-- FLT, the sticky fault flags (R33). -/
  flt : BitVec 8
  /-- DOUT, head first (R35). -/
  dout : List Byte
  /-- The MODEL's own field: what the host has sent of the command stream and the engine has not
  consumed; it begins at a packet boundary (spec/20_memory.md R50, spec/10_state.md R37; log 3). -/
  cmd : List Byte
deriving DecidableEq, Repr

/-- The configuration record of the instance. -/
abbrev State.config (t : State) : Cfg := cfgOf t.cfg

/-- The state after reset of an instance built with the given configuration (spec/10_state.md R37,
spec/70_reset_and_hazards.md R271). -/
def State.resetOf (id : CfgId) : State where
  cfg := id
  g := none
  s := none
  last := 0
  flt := 0
  dout := []
  cmd := []

/-- The machine right after reset. DESIGN CHOICE (unsafe, log 2): which configuration the instance
was built with; the spec leaves CFG open. -/
def State.reset : State := State.resetOf .refL128X128

end Sys2Proof.Machine
end

