-- ==== Sys2Proof/Machine/Flags.lean ====
section
/-! DEFINITION. The status registers and what a command does to them (spec/10_state.md R32, R33,
spec/60_exceptions.md R241): LAST, the sticky FLT bits and the view STAT. STE has no other flag:
no condition codes, no carry or overflow (R33). -/

namespace Sys2Proof.Machine

/-- The five faults (spec/60_exceptions.md R241). -/
inductive FaultCode where
  /-- An illegal packet. -/
  | ill
  /-- The command needs bank G and G.VALID = 0. -/
  | nsd
  /-- The configuration has no descriptor for the jump. -/
  | uns
  /-- DENC's operand is no distance below PERIOD. -/
  | ijd
  /-- RESTORE's payload is no serialized state. -/
  | ser
deriving DecidableEq, Repr

/-- The number of a fault (spec/60_exceptions.md R241). -/
def FaultCode.number : FaultCode → Nat
  | .ill => 1
  | .nsd => 2
  | .uns => 3
  | .ijd => 4
  | .ser => 5

/-- The value LAST takes (spec/60_exceptions.md R241, R245). -/
def FaultCode.lastValue (f : FaultCode) : BitVec 4 := BitVec.ofNat 4 f.number

/-- FLT with the fault's sticky bit set (spec/10_state.md R33, spec/60_exceptions.md R245). -/
def setFaultBit (flt : BitVec 8) (f : FaultCode) : BitVec 8 := flt ||| (1#8 <<< f.number)

/-- G.VALID (spec/10_state.md R31). -/
def State.gValid (t : State) : Bool := t.g.isSome

/-- S.VALID, also SVALID (spec/10_state.md R31). -/
def State.sValid (t : State) : Bool := t.s.isSome

/-- STAT, status register number 0: LAST in 7:4, zeros in 3:2, S.VALID in 1, G.VALID in 0
(spec/10_state.md R32). -/
def State.stat (t : State) : BitVec 8 :=
  t.last ++ (0#2) ++ BitVec.ofBool t.sValid ++ BitVec.ofBool t.gValid

end Sys2Proof.Machine
end

