-- ==== Sys2Proof/Machine/Params.lean ====
section
/-! DEFINITION. The numbers and constants that follow from CFG (spec/00_scope.md R15,
spec/45_codec_seed.md R210 and R211, spec/42_lcg_mac128.md R160). -/

namespace Sys2Proof.Machine

/-- WB = W / 8, the bytes of a native word (spec/00_scope.md R7). -/
def wordBytes (c : Cfg) : Nat := c.wordBits / 8

/-- LW = L / 64 when KIND = LX, else 0 (R15). -/
def lcgWordCount (c : Cfg) : Nat := c.lcgBits / 64

/-- NATIVE, the native seed length in words (R15). -/
def nativeWords (c : Cfg) : Nat := c.count + 2 * lcgWordCount c

/-- CW, the number of cache words (R15). -/
def cacheWords (c : Cfg) : Nat := if c.wordBits = 64 then 2 else 1

/-- The number of cursor words of a serialized form: 1 if RING else 0 (R15, R211). -/
def cursorWords (c : Cfg) : Nat := if c.ring then 1 else 0

/-- STATE_BYTES (R15, R211). -/
def stateBytes (c : Cfg) : Nat :=
  (c.count + cursorWords c) * wordBytes c + 2 * lcgWordCount c * 8 + cacheWords c * wordBytes c

/-- The length of a natural number in binary digits; 0 for 0. -/
def bitLength (n : Nat) : Nat := if n = 0 then 0 else n.log2 + 1

/-- KD, the length in words of the distance array (R15, spec/44_distance_encoder.md R195). -/
def distanceWords (c : Cfg) : Nat := max 1 ((bitLength (c.period - 1) + 63) / 64)

/-- The LCG multiplier M (spec/00_scope.md R10): a 64-bit constant, or 2^64 + M_LOW. -/
def multiplier : (k : Kind) → Word64 → BitVec k.lcgBits
  | .x32, _ => 0
  | .x64, _ => 0
  | .lx64, mLow => mLow
  | .lx128, mLow => (1 : Word64) ++ mLow

/-- The Brown constants (M'_k, A'_k) of a multiplier (spec/42_lcg_mac128.md R160). -/
def brown {l : Nat} (m : BitVec l) : Nat → BitVec l × BitVec l
  | 0 => (m, 1)
  | k + 1 =>
    let p := brown m k
    (p.1 * p.1, (p.1 + 1) * p.2)

/-- The C part of a descriptor, when present (spec/00_scope.md R12). -/
def descriptorCoeffs {l : Nat} : JumpDescriptor l → Option (List Word64)
  | .xbg first rest => some (first :: rest)
  | .lcg _ => none
  | .both first rest _ => some (first :: rest)

/-- The K part of a descriptor, when present (spec/00_scope.md R12). -/
def descriptorExponent {l : Nat} : JumpDescriptor l → Option Nat
  | .xbg _ _ => none
  | .lcg k => some k
  | .both _ _ k => some k

end Sys2Proof.Machine
end

