-- ==== Sys2Proof/Machine/Ops.lean ====
section
/-! DEFINITION. The named operations the commands are made of: ending with `ok()` or with a fault
(spec/00_scope.md R18, spec/60_exceptions.md R245), `emit`, the guard that reads bank G, the
caches' empty values (spec/40_word_source.md R105), and taking the next packet from the command
stream. -/

namespace Sys2Proof.Machine

/-- `ok()`: the command ends without fault and sets LAST to 0 (spec/00_scope.md R18). -/
def State.ok (t : State) : State := { t with last := 0 }

/-- `raise F`, fault entry (spec/60_exceptions.md R245): LAST <- code and FLT[code] <- 1, nothing
else. There is no handler and so no return from one (R247): the next packet simply runs. -/
def State.raise (t : State) (f : FaultCode) : State :=
  { t with last := f.lastValue, flt := setFaultBit t.flt f }

/-- `emit(bytes)`: append to DOUT; it never blocks and never fails (spec/10_state.md R35). -/
def State.emit (t : State) (bytes : List Byte) : State := { t with dout := t.dout ++ bytes }

/-- Bank G holds `b` from now on, and is valid (spec/10_state.md R31). -/
def State.setG (t : State) (b : Bank t.config) : State := { t with g := some b }

/-- Bank S holds `b` from now on, and is valid (spec/10_state.md R31). -/
def State.setS (t : State) (b : Bank t.config) : State := { t with s := some b }

/-- `if G.VALID = 0: raise NSD`, else go on with the fields of G (spec/60_exceptions.md R242). -/
def State.withG (t : State) (k : Bank t.config → State) : State :=
  match t.g with
  | none => t.raise .nsd
  | some b => k b

/-- `set_caches_empty(bank)` (spec/40_word_source.md R105): BC <- 1 and, when W = 64, HC <- all
ones. -/
def setCachesEmpty {c : Cfg} (b : Bank c) : Bank c :=
  { b with bc := 1, hc := BitVec.allOnes _ }

/-- The packet at the head of the command stream, decoded for this instance, and the stream after
it (spec/30_encoding.md R72, R80); none when no complete packet is there (R73). -/
def fetch (t : State) : Option (Except Illegal Instr × List Byte) :=
  match nextPacket t.cmd with
  | none => none
  | some (p, rest) => some (decodePacket (wordBytes t.config) p, rest)

/-- The command stream stands after the packet just taken (spec/30_encoding.md R72). -/
def State.consume (t : State) (rest : List Byte) : State := { t with cmd := rest }

end Sys2Proof.Machine
end

