-- ==== Sys2Proof/Machine/Lcg.lean ====
section
/-! DEFINITION. MAK: the 128-bit multiply-add kernel, the LCG step and jump, and the commands
UMULH, UADDH and MAC128 (spec/42_lcg_mac128.md R150 to R163). Nothing is signed, nothing
saturates, nothing traps (R150). -/

namespace Sys2Proof.Machine

/-- `umulh(a, b)`: bits 127 to 64 of the exact product (R151, the normative rule). -/
def umulh (a b : Word64) : Word64 := BitVec.ofNat 64 (a.toNat * b.toNat / 2 ^ 64)

/-- The datapath of `umulh` (R152): four exact partial products of 32-bit halves, folded by two
sums that do not overflow 64 bits. -/
def umulhDatapath (a b : Word64) : Word64 :=
  let a0 := a.extractLsb' 0 32
  let a1 := a.extractLsb' 32 32
  let b0 := b.extractLsb' 0 32
  let b1 := b.extractLsb' 32 32
  let ll : Word64 := a0.setWidth 64 * b0.setWidth 64
  let lh : Word64 := a0.setWidth 64 * b1.setWidth 64
  let hl : Word64 := a1.setWidth 64 * b0.setWidth 64
  let hh : Word64 := a1.setWidth 64 * b1.setWidth 64
  let mid : Word64 := (ll >>> 32) + (lh.extractLsb' 0 32).setWidth 64 + hl
  (lh >>> 32) + (mid >>> 32) + hh

/-- `uaddh(a, b)`: the carry out of the 64-bit sum, as a word (R153, R156). -/
def uaddh (a b : Word64) : Word64 := if 2 ^ 64 ≤ a.toNat + b.toNat then 1 else 0

/-- `mac128` (R154): {MH, ML} times {XH, XL} plus {AH, AL}, modulo 2^128, as (high, low), from
64-bit operations with explicit carries. -/
def mac128 (mh ml xh xl ah al : Word64) : Word64 × Word64 :=
  let p := ml * xl
  (mh * xl + ml * xh + umulh ml xl + ah + uaddh p al, p + al)

/-- The high 64-bit half of a 128-bit quantity (spec/20_memory.md R53). -/
def high64 (v : BitVec 128) : Word64 := v.extractLsb' 64 64

/-- The low 64-bit half of a 128-bit quantity. -/
def low64 (v : BitVec 128) : Word64 := v.extractLsb' 0 64

/-- A 128-bit quantity from its halves, {high, low}. -/
def join128 (hi lo : Word64) : BitVec 128 := hi ++ lo

/-- `lcg_step()` for L = 64 (R158). -/
def lcgStep64 (m ls la : Word64) : Word64 := m * ls + la

/-- `lcg_step()` for L = 128 (R159): the multiplier's high half is fixed at 1. -/
def lcgStep128 (mLow : Word64) (ls la : BitVec 128) : BitVec 128 :=
  let p := mLow * low64 ls
  let hi := mLow * high64 ls + umulh mLow (low64 ls) + low64 ls + high64 la + uaddh p (low64 la)
  join128 hi (p + low64 la)

/-- The next LS: M * LS + LA (R158 for L = 64, R159 for L = 128). When KIND = X there is no LCG. -/
def lcgNext : (k : Kind) → Word64 → BitVec k.lcgBits → BitVec k.lcgBits → BitVec k.lcgBits
  | .x32, _, ls, _ => ls
  | .x64, _, ls, _ => ls
  | .lx64, m, ls, la => lcgStep64 m ls la
  | .lx128, mLow, ls, la => lcgStep128 mLow ls la

/-- `lcg_step()` (R158, R159): writes LS and nothing else. -/
def lcgStep {c : Cfg} (b : Bank c) : Bank c := { b with ls := lcgNext c.kind c.mLow b.ls b.la }

/-- `lcg_jump` for L = 64: "two wrapping multiplies and an add" (R161). -/
def lcgJump64 (m' a' ls la : Word64) : Word64 := m' * ls + a' * la

/-- `lcg_jump` for L = 128: "two uses of the kernel" (R161). -/
def lcgJump128 (m' a' ls la : BitVec 128) : BitVec 128 :=
  let t := mac128 (high64 a') (low64 a') (high64 la) (low64 la) 0 0
  let r := mac128 (high64 m') (low64 m') (high64 ls) (low64 ls) t.1 t.2
  join128 r.1 r.2

/-- LS after a jump with constants M'_k and A'_k (R161). -/
def lcgJumped : (k : Kind) → (m' a' ls la : BitVec k.lcgBits) → BitVec k.lcgBits
  | .x32, _, _, ls, _ => ls
  | .x64, _, _, ls, _ => ls
  | .lx64, m', a', ls, la => lcgJump64 m' a' ls la
  | .lx128, m', a', ls, la => lcgJump128 m' a' ls la

/-- `lcg_jump(k)` (R161) with the constants of R160: writes LS and nothing else. -/
def lcgJump {c : Cfg} (k : Nat) (b : Bank c) : Bank c :=
  let w := brown (multiplier c.kind c.mLow) k
  { b with ls := lcgJumped c.kind w.1 w.2 b.ls b.la }

/-- `lcg_high(LS)` (spec/43_lxm.md R182): the high half for L = 128, the whole value for L = 64. -/
def lcgHigh : (k : Kind) → BitVec k.lcgBits → Word64
  | .x32, _ => 0
  | .x64, _ => 0
  | .lx64, ls => ls
  | .lx128, ls => high64 ls

/-- UMULH (R155): runs on an unseeded engine too, and touches no generator register. -/
def execUmulh (a b : Word64) (t : State) : Host.Outcome State Fault Refusal :=
  .next (t.emit (leBytes 8 (umulh a b))).ok

/-- UADDH (R156): the carry is data in DOUT, not a flag. -/
def execUaddh (a b : Word64) (t : State) : Host.Outcome State Fault Refusal :=
  .next (t.emit (leBytes 8 (uaddh a b))).ok

/-- MAC128 (R157): the multiplier is the operand, not CFG.M; the result's high half first. -/
def execMac128 (mh ml xh xl ah al : Word64) (t : State) : Host.Outcome State Fault Refusal :=
  let r := mac128 mh ml xh xl ah al
  .next ((t.emit (leBytes 8 r.1)).emit (leBytes 8 r.2)).ok

end Sys2Proof.Machine
end

