-- ==== Sys2Proof/Machine/Codec.lean ====
section
/-! DEFINITION. SSC: the state codec, seeding and the bank exchange, the commands SAVE, RESTORE,
SEED and XCHG (spec/45_codec_seed.md R210 to R228). -/

namespace Sys2Proof.Machine

/-- An LCG register as 64-bit words, the high half first (R210, spec/20_memory.md R53); none when
KIND = X. -/
def lcgToWords : (k : Kind) → BitVec k.lcgBits → List Word64
  | .x32, _ => []
  | .x64, _ => []
  | .lx64, v => [v]
  | .lx128, v => [high64 v, low64 v]

/-- An LCG register from its 64-bit words, the high half first (R214, R222). -/
def lcgFromWords : (k : Kind) → List Word64 → BitVec k.lcgBits
  | .x32, _ => 0
  | .x64, _ => 0
  | .lx64, ws => ws.getD 0 0
  | .lx128, ws => join128 (ws.getD 0 0) (ws.getD 1 0)

/-- "forced odd": `value or 1` (R217, R222; spec/10_state.md R23). -/
def forceOdd {l : Nat} (v : BitVec l) : BitVec l := v ||| 1

/-! ### SAVE -/

/-- The serialized form of a bank (R210, R212); the cache words are the empty values whatever the
caches hold (R213). -/
def serialize {c : Cfg} (b : Bank c) : List Byte :=
  b.x.toList.flatMap (leBytes (wordBytes c)) ++
  (if c.ring then leBytes (wordBytes c) (b.cur.setWidth c.wordBits) else []) ++
  (lcgToWords c.kind b.la).flatMap (leBytes 8) ++
  (lcgToWords c.kind b.ls).flatMap (leBytes 8) ++
  leBytes (wordBytes c) (1 : BitVec c.wordBits) ++
  (if c.wordBits = 64 then leBytes 8 (BitVec.allOnes 64) else [])

/-- SAVE (R212): reads G and writes DOUT. -/
def execSave (t : State) : Host.Outcome State Fault Refusal :=
  .next (t.withG fun b => (t.emit (serialize b)).ok)

/-! ### RESTORE -/

/-- The cursor word of a serialized form, 0 when there is none (R211, R214). -/
def cursorWord (c : Cfg) (payload : List Byte) : Nat :=
  if c.ring then
    leNat (slice payload (c.count * wordBytes c) (c.count * wordBytes c + wordBytes c))
  else 0

/-- Where segment 3, the LCG additive parameter, begins (R211). -/
def lcgOffset (c : Cfg) : Nat := (c.count + cursorWords c) * wordBytes c

/-- The bank a serialized form of the right length stands for (R214): LA forced odd (R217), the
caches empty (R218), the cache words not read (R227). -/
def deserialize (c : Cfg) (payload : List Byte) : Bank c where
  x := Vector.ofFn fun i => wWord c.wordBits payload i
  cur := BitVec.ofNat _ (cursorWord c payload)
  la := forceOdd (lcgFromWords c.kind
    (w64s (payload.drop (lcgOffset c)) (lcgWordCount c)))
  ls := lcgFromWords c.kind
    (w64s (payload.drop (lcgOffset c + 8 * lcgWordCount c)) (lcgWordCount c))
  bc := 1
  hc := BitVec.allOnes _

/-- RESTORE (R214): the length check (R215), then the cursor check (R216), then the writes. -/
def execRestore (payload : List Byte) (t : State) : Host.Outcome State Fault Refusal :=
  .next (if payload.length ≠ stateBytes t.config then t.raise .ser
    else if t.config.count ≤ cursorWord t.config payload then t.raise .ser
    else (t.setG (deserialize t.config payload)).ok)

/-! ### SEED -/

/-- The mixer's words from a counter value: the counter is bumped before each output (R221). -/
def mixerWords (c : Cfg) : Nat → BitVec c.wordBits → List (BitVec c.wordBits)
  | 0, _ => []
  | n + 1, x => c.seedFin (x + c.seedGamma) :: mixerWords c n (x + c.seedGamma)

/-- `expand(seed)` (R221): exactly NATIVE words; the given words are used directly, words beyond
NATIVE are ignored (R223), and the mixer, started from the first given word or 0, fills the rest. -/
def expand (c : Cfg) (seed : List (BitVec c.wordBits)) : List (BitVec c.wordBits) :=
  seed.take (nativeWords c) ++ mixerWords c (nativeWords c - seed.length) (seed.headD 0)

/-- `assign(s)` with the rest of R220: LA, LS, X in this order (R222), the cursor at 0, the caches
empty. -/
def assignSeed (c : Cfg) (s : List (BitVec c.wordBits)) : Bank c where
  x := Vector.ofFn fun i => s.getD (2 * lcgWordCount c + i) 0
  cur := 0
  la := forceOdd (lcgFromWords c.kind ((s.take (lcgWordCount c)).map (·.setWidth 64)))
  ls := lcgFromWords c.kind
    (((s.drop (lcgWordCount c)).take (lcgWordCount c)).map (·.setWidth 64))
  bc := 1
  hc := BitVec.allOnes _

/-- SEED (R220): never fails on the seed's value or length. A payload that is no whole number of
words stands for no legal packet (spec/30_encoding.md R76, R78): ILL, log 7. -/
def execSeed (payload : List Byte) (t : State) : Host.Outcome State Fault Refusal :=
  .next (if payload.length % wordBytes t.config ≠ 0 then t.raise .ill
    else (t.setG (assignSeed t.config (expand t.config (wWords t.config.wordBits payload)))).ok)

/-! ### XCHG -/

/-- XCHG (R225): the banks change places whole, VALID and caches included. -/
def execXchg (t : State) : Host.Outcome State Fault Refusal :=
  .next ({ t with g := t.s, s := t.g } : State).ok

end Sys2Proof.Machine
end

