-- ==== Sys2Proof/Machine/Distance.lean ====
section
/-! DEFINITION. DEN: the jump-distance encoder and its command DENC (spec/44_distance_encoder.md
R190 to R196). -/

namespace Sys2Proof.Machine

/-- The sign bit of a binary64 (R191). -/
def doubleSign (d : Word64) : Bool := d.getLsbD 63

/-- The biased exponent, 11 bits (R191). -/
def doubleExponent (d : Word64) : Nat := (d.extractLsb' 52 11).toNat

/-- The fraction, 52 bits (R191). -/
def doubleFraction (d : Word64) : Nat := (d.extractLsb' 0 52).toNat

/-- The value of a normal number when it is a natural number (R193): sig = 2^52 + f shifted by
sh = e - 1075, with nothing lost. -/
def normalValue (e f : Nat) : Option Nat :=
  let sig := 2 ^ 52 + f
  if 1075 ≤ e then some (sig * 2 ^ (e - 1075))
  else if 53 ≤ 1075 - e then none
  else if sig % 2 ^ (1075 - e) ≠ 0 then none
  else some (sig / 2 ^ (1075 - e))

/-- `distance_value`: the natural number a binary64 stands for, or none (R192, the first line that
applies, then R193). -/
def distanceValue (d : Word64) : Option Nat :=
  let e := doubleExponent d
  let f := doubleFraction d
  if e = 0x7FF then none
  else if e = 0 ∧ f = 0 then some 0
  else if doubleSign d then none
  else if e = 0 then none
  else normalValue e f

/-- The distance array (R194): `n` words, word 0 the least significant, each little-endian. -/
def distanceArray (n r : Nat) : List Byte :=
  (List.range n).flatMap fun j => leBytes 8 (BitVec.ofNat 64 (r / 2 ^ (64 * j)))

/-- DENC (R190): reads no generator register and needs no valid bank. -/
def execDenc (d : Word64) (t : State) : Host.Outcome State Fault Refusal :=
  .next (match distanceValue d with
    | none => t.raise .ijd
    | some r =>
      if r < t.config.period then (t.emit (distanceArray (distanceWords t.config) r)).ok
      else t.raise .ijd)

end Sys2Proof.Machine
end

