-- ==== Sys2Proof/Machine/Xbg.lean ====
section
/-! DEFINITION. XBU and JAP: the XBG update, the logical view of a ring and the GF(2) jump
(spec/41_xbg_jump.md R120 to R124). -/

namespace Sys2Proof.Machine

/-- `xbg_step(bank)` (R121): reads and writes X and CUR and nothing else. -/
def xbgStep {c : Cfg} (b : Bank c) : Bank c :=
  let u := c.update b.x b.cur
  { b with x := u.1, cur := u.2 }

/-- N is not zero, so that an index modulo N is an index. -/
theorem count_pos (c : Cfg) : 0 < c.words.count := Nat.two_pow_pos _

/-- The physical index of logical word i: (i + CUR) mod N (R122). -/
def physicalIndex (c : Cfg) (cur : BitVec (cursorBits c.ring c.words)) (i : Nat) :
    Fin c.words.count :=
  ⟨(i + cur.toNat) % c.words.count, Nat.mod_lt _ (count_pos c)⟩

/-- The logical index of physical word j: the i with (i + CUR) mod N = j. -/
def logicalIndex (c : Cfg) (cur : BitVec (cursorBits c.ring c.words)) (j : Nat) :
    Fin c.words.count :=
  ⟨(j + (c.words.count - cur.toNat)) % c.words.count, Nat.mod_lt _ (count_pos c)⟩

/-- The logical vector LW(0), ..., LW(N-1) of physical words X under a cursor (R122). -/
def logicalWords (c : Cfg) (x : XVec c.kind c.words) (cur : BitVec (cursorBits c.ring c.words)) :
    XVec c.kind c.words :=
  Vector.ofFn fun i => x[physicalIndex c cur i]

/-- The physical words whose logical vector under a cursor is the given one: the "realigned to the
generator's current cursor" of R124. -/
def realign (c : Cfg) (acc : XVec c.kind c.words) (cur : BitVec (cursorBits c.ring c.words)) :
    XVec c.kind c.words :=
  Vector.ofFn fun j => acc[logicalIndex c cur j]

/-- The logical vector of a bank (R122). -/
def Bank.logical {c : Cfg} (b : Bank c) : XVec c.kind c.words := logicalWords c b.x b.cur

/-- The word-by-word xor of two vectors (R124). -/
def xorWords {w n : Nat} (a b : Vector (BitVec w) n) : Vector (BitVec w) n :=
  Vector.ofFn fun i => a[i] ^^^ b[i]

/-- N words of zero. -/
def zeroWords (w n : Nat) : Vector (BitVec w) n := Vector.ofFn fun _ => 0

/-- The bits of the coefficient words in the order the jump reads them: word 0 first, bit 0 first
(R124), so that bit b of word j stands for x^(64j+b). -/
def coefficientBits (coeffs : List Word64) : List Bool :=
  coeffs.flatMap fun w => (List.range 64).map fun b => w.getLsbD b

/-- The two loops of R124 as one, over the bits of all coefficient words: add the current logical
vector where the bit is set, then step the XBG, in every iteration. -/
def jumpLoop {c : Cfg} : List Bool → XVec c.kind c.words → Bank c → XVec c.kind c.words × Bank c
  | [], acc, b => (acc, b)
  | bit :: bits, acc, b =>
    jumpLoop bits (if bit then xorWords acc b.logical else acc) (xbgStep b)

/-- `xbg_jump(C)` (R124): the accumulator is written back under the cursor as it is after the
steps. -/
def xbgJump {c : Cfg} (coeffs : List Word64) (b : Bank c) : Bank c :=
  let r := jumpLoop (coefficientBits coeffs) (zeroWords _ _) b
  { r.2 with x := realign c r.1 r.2.cur }

/-- CFG.HEAD(X, cur) (spec/00_scope.md R9, spec/43_lxm.md R183): X[0] when RING is false, else the
word the configuration selects by the cursor. -/
def headOf (c : Cfg) (x : XVec c.kind c.words) (cur : BitVec (cursorBits c.ring c.words)) :
    BitVec c.wordBits :=
  if c.ring then x[(c.headIndex cur).toNat]'(c.headIndex cur).isLt
  else x[0]'(count_pos c)

/-- The head word of a bank (spec/43_lxm.md R183). -/
def headWord {c : Cfg} (b : Bank c) : BitVec c.wordBits := headOf c b.x b.cur

end Sys2Proof.Machine
end

