-- ==== Sys2Proof/Machine/Jump.lean ====
section
/-! DEFINITION. The commands JUMP, LONGJUMP and JUMPV (spec/41_xbg_jump.md R125 to R128). -/

namespace Sys2Proof.Machine

/-- Bank G after the two parts of a jump, each if present, with both caches empty (R125,
spec/40_word_source.md R106). -/
def jumped {c : Cfg} (coeffs : Option (List Word64)) (k : Option Nat) (b : Bank c) : Bank c :=
  let b1 := match coeffs with
    | some cs => xbgJump cs b
    | none => b
  let b2 := match k with
    | some e => lcgJump e b1
    | none => b1
  setCachesEmpty b2

/-- `do_jump(desc)` (R125): the whole of G is copied to S first, caches and VALID included. -/
def doJump (t : State) (b : Bank t.config) (coeffs : Option (List Word64)) (k : Option Nat) :
    State :=
  (t.setS b).setG (jumped coeffs k b)

/-- The body of JUMP and LONGJUMP (R126, R127): UNS before NSD (spec/60_exceptions.md R244). -/
def jumpBy (t : State) (desc : Option (JumpDescriptor t.config.kind.lcgBits)) : State :=
  match desc with
  | none => t.raise .uns
  | some d => t.withG fun b => (doJump t b (descriptorCoeffs d) (descriptorExponent d)).ok

/-- JUMP (R126). -/
def execJump (t : State) : Host.Outcome State Fault Refusal := .next (jumpBy t t.config.jump)

/-- LONGJUMP (R127). -/
def execLongjump (t : State) : Host.Outcome State Fault Refusal := .next (jumpBy t t.config.ljump)

/-- JUMPV (R128): the vector of the payload, and no LCG part. A JUMPV with no word stands for no
legal packet (spec/30_encoding.md R76, R78): ILL, log 7. -/
def execJumpv (coeffs : List Word64) (t : State) : Host.Outcome State Fault Refusal :=
  .next (if coeffs.isEmpty then t.raise .ill
    else t.withG fun b => (doJump t b (some coeffs) none).ok)

end Sys2Proof.Machine
end

