-- ==== Sys2Proof/Machine/WordSource.lean ====
section
/-! DEFINITION. WDL: the draw of both kinds (spec/40_word_source.md R100, spec/41_xbg_jump.md R120,
spec/43_lxm.md R180) and the commands NEXT, NEXTLONG, NEXTINT and NEXTBOOL built on it
(spec/40_word_source.md R101 to R104). -/

namespace Sys2Proof.Machine

/-- The word a draw returns, from the bank before any update: TRANSFORM(X, CUR) when KIND = X
(spec/41_xbg_jump.md R120), MIX(lcg_high(LS) + HEAD(X, CUR)) when KIND = LX, where W = 64
(spec/43_lxm.md R180). -/
def drawnWord {c : Cfg} (b : Bank c) : BitVec c.wordBits :=
  if c.kind.isLX then (c.mix (lcgHigh c.kind b.ls + (headWord b).setWidth 64)).setWidth _
  else c.transform b.x b.cur

/-- The bank after a draw: one XBG update, and one LCG step when KIND = LX (R120, R180). -/
def afterDraw {c : Cfg} (b : Bank c) : Bank c :=
  if c.kind.isLX then xbgStep (lcgStep b) else xbgStep b

/-- `draw()` (spec/40_word_source.md R100): one native word, and the bank advanced by one cycle. It
does not touch the caches and cannot fault. -/
def draw {c : Cfg} (b : Bank c) : BitVec c.wordBits × Bank c := (drawnWord b, afterDraw b)

/-- The 64-bit word of NEXTLONG (R102): for W = 32 two draws, the first the high half. -/
def longDraw {c : Cfg} (b : Bank c) : Word64 × Bank c :=
  if c.wordBits = 64 then
    let d := draw b
    (d.1.setWidth 64, d.2)
  else
    let hi := draw b
    let lo := draw hi.2
    (hi.1.setWidth 32 ++ lo.1.setWidth 32, lo.2)

/-- The half-word cache holds nothing: HC[63] = 1 (spec/10_state.md R28, spec/40 R105). -/
def halfCacheEmpty {c : Cfg} (b : Bank c) : Bool := b.hc.getLsbD 63

/-- The 32-bit word of NEXTINT (R103): for W = 64 the low half of a draw first, its high half from
the cache. -/
def intDraw {c : Cfg} (b : Bank c) : BitVec 32 × Bank c :=
  if c.wordBits = 32 then
    let d := draw b
    (d.1.setWidth 32, d.2)
  else if halfCacheEmpty b then
    let d := draw b
    (d.1.setWidth 32, { d.2 with hc := (d.1 >>> 32).setWidth _ })
  else (b.hc.setWidth 32, { b with hc := BitVec.allOnes _ })

/-- The boolean of NEXTBOOL (R104): one draw serves W booleans, bit 0 first; BC holds those not
yet issued under a marker bit. -/
def boolDraw {c : Cfg} (b : Bank c) : Bool × Bank c :=
  if b.bc = 1 then
    let d := draw b
    (d.1.getLsbD 0, { d.2 with bc := (d.1 >>> 1) ||| (1 <<< (c.wordBits - 1)) })
  else (b.bc.getLsbD 0, { b with bc := b.bc >>> 1 })

/-- The byte of a boolean, 0x00 or 0x01 (R104). -/
def boolByte (v : Bool) : Byte := if v then 1 else 0

/-- NEXT (R101): WB bytes. -/
def execNext (t : State) : Host.Outcome State Fault Refusal :=
  .next (t.withG fun b =>
    let d := draw b
    ((t.setG d.2).emit (leBytes (wordBytes t.config) d.1)).ok)

/-- NEXTLONG (R102): eight bytes. -/
def execNextlong (t : State) : Host.Outcome State Fault Refusal :=
  .next (t.withG fun b =>
    let d := longDraw b
    ((t.setG d.2).emit (leBytes 8 d.1)).ok)

/-- NEXTINT (R103): four bytes. -/
def execNextint (t : State) : Host.Outcome State Fault Refusal :=
  .next (t.withG fun b =>
    let d := intDraw b
    ((t.setG d.2).emit (leBytes 4 d.1)).ok)

/-- NEXTBOOL (R104): one byte. -/
def execNextbool (t : State) : Host.Outcome State Fault Refusal :=
  .next (t.withG fun b =>
    let d := boolDraw b
    ((t.setG d.2).emit [boolByte d.1]).ok)

end Sys2Proof.Machine
end

