-- ==== Sys2Proof/Machine/Dispatch.lean ====
section
/-! DEFINITION. One command, one meaning: an arm for each of the fifteen rows of
spec/opcode_table.json. -/

namespace Sys2Proof.Machine

def exec (i : Instr) (s : State) : Host.Outcome State Fault Refusal :=
  match i with
  | .next => Sys2Proof.Machine.execNext s
  | .nextint => Sys2Proof.Machine.execNextint s
  | .nextlong => Sys2Proof.Machine.execNextlong s
  | .nextbool => Sys2Proof.Machine.execNextbool s
  | .jump => Sys2Proof.Machine.execJump s
  | .longjump => Sys2Proof.Machine.execLongjump s
  | .denc d => Sys2Proof.Machine.execDenc d s
  | .jumpv coeffs => Sys2Proof.Machine.execJumpv coeffs s
  | .save => Sys2Proof.Machine.execSave s
  | .restore payload => Sys2Proof.Machine.execRestore payload s
  | .seed payload => Sys2Proof.Machine.execSeed payload s
  | .xchg => Sys2Proof.Machine.execXchg s
  | .umulh a b => Sys2Proof.Machine.execUmulh a b s
  | .uaddh a b => Sys2Proof.Machine.execUaddh a b s
  | .mac128 mh ml xh xl ah al => Sys2Proof.Machine.execMac128 mh ml xh xl ah al s

end Sys2Proof.Machine
end

