-- ==== Sys2Proof/Machine/Step.lean ====
section
/-! DEFINITION. One step of the engine: the packet at the head of the command stream is taken
whole, decoded, and executed to completion (spec/20_memory.md R59, R61, spec/30_encoding.md R72). -/

namespace Sys2Proof.Machine

/-- One step. With no complete packet in the stream "the engine waits for the rest"
(spec/30_encoding.md R73): nothing changes. An illegal packet is consumed whole and raises ILL
(R78, R80). -/
def step (t : State) : Host.Outcome State Fault Refusal :=
  match fetch t with
  | none => .next t
  | some (.error _, rest) => .next ((t.consume rest).raise .ill)
  | some (.ok i, rest) => exec i (t.consume rest)

/-- The state with one whole packet put at the head of the command stream, so that the next step
takes it: its leading `nbits` bits are `w`, its other bits 0, its length what its plen says. -/
def State.withFetchWord (s : State) (nbits w : Nat) : State :=
  { s with cmd := tableWordPacket nbits w ++ s.cmd }

end Sys2Proof.Machine
end

