-- ==== Sys2Proof/Machine/Contract.lean ====
section
/-! DEFINITION. The obligations the spec puts on a CFG: LIN, CUR, EQV (spec/00_scope.md R8), TEQV
(R9), TZERO (spec/41_xbg_jump.md R132), JCOEF (R129), MFULL (spec/42_lcg_mac128.md R162), SEEDOK
(spec/45_codec_seed.md R228). The step rests on none of them
(spec/93_implementation_defined.md A13): they are hypotheses of laws. -/

namespace Sys2Proof.Machine

/-- The ring turned by d places: Y with Y[(i + d) mod N] = X[i] (spec/00_scope.md R8). -/
def rotateRing (c : Cfg) (d : BitVec (cursorBits c.ring c.words)) (x : XVec c.kind c.words) :
    XVec c.kind c.words :=
  Vector.ofFn fun j => x[logicalIndex c d j]

/-- LIN: for a fixed cursor the update is linear over GF(2) (spec/00_scope.md R8). -/
def Linear (c : Cfg) : Prop :=
  ∀ (x y : XVec c.kind c.words) (cur : BitVec (cursorBits c.ring c.words)),
    (c.update (xorWords x y) cur).1 = xorWords (c.update x cur).1 (c.update y cur).1

/-- CUR: cur' depends on cur only (spec/00_scope.md R8). -/
def CursorAutonomous (c : Cfg) : Prop :=
  ∀ (x y : XVec c.kind c.words) (cur : BitVec (cursorBits c.ring c.words)),
    (c.update x cur).2 = (c.update y cur).2

/-- EQV: the update commutes with rotation of the ring (spec/00_scope.md R8). Cursors are log2 N
bits wide, so their sum is modulo N. -/
def RotationEquivariant (c : Cfg) : Prop :=
  ∀ (x : XVec c.kind c.words) (cur d : BitVec (cursorBits c.ring c.words)),
    c.update (rotateRing c d x) (cur + d) =
      (rotateRing c d (c.update x cur).1, (c.update x cur).2 + d)

/-- TEQV: TRANSFORM and HEAD depend on (X, cur) through the logical vector alone
(spec/00_scope.md R9). -/
def OutputEquivariant (c : Cfg) : Prop :=
  ∀ (x : XVec c.kind c.words) (cur d : BitVec (cursorBits c.ring c.words)),
    c.transform (rotateRing c d x) (cur + d) = c.transform x cur ∧
      headOf c (rotateRing c d x) (cur + d) = headOf c x cur

/-- TZERO: the output of all-zero X is zero (spec/41_xbg_jump.md R132). -/
def ZeroOutput (c : Cfg) : Prop :=
  ∀ cur : BitVec (cursorBits c.ring c.words), c.transform (zeroWords _ _) cur = 0

/-- MFULL: M ≡ 1 mod 4 (spec/42_lcg_mac128.md R162). -/
def FullPeriodMultiplier (c : Cfg) : Prop := (multiplier c.kind c.mLow).toNat % 4 = 1

/-- `n` applications of `xbg_step`. -/
def xbgSteps {c : Cfg} : Nat → Bank c → Bank c
  | 0, b => b
  | n + 1, b => xbgSteps n (xbgStep b)

/-- `n` applications of `lcg_step` (spec/42_lcg_mac128.md R163). -/
def lcgSteps {c : Cfg} : Nat → Bank c → Bank c
  | 0, b => b
  | n + 1, b => lcgSteps n (lcgStep b)

/-- c(T)·s for the polynomial whose coefficients are the bits of the words, on the logical vector
of a bank: "the xor of the vectors T^i·s over the i with c_i = 1" (spec/41_xbg_jump.md R123). -/
def polynomialAction {c : Cfg} (coeffs : List Word64) (b : Bank c) : XVec c.kind c.words :=
  (List.range (64 * coeffs.length)).foldl
    (fun acc i =>
      if (coeffs.getD (i / 64) 0).getLsbD (i % 64) then xorWords acc (xbgSteps i b).logical
      else acc)
    (zeroWords _ _)

/-- JCOEF: the coefficient words advance the XBG by `distance` cycles, c(T) = T^D
(spec/41_xbg_jump.md R129). -/
def AdvancesBy (c : Cfg) (coeffs : List Word64) (distance : Nat) : Prop :=
  ∀ b : Bank c, polynomialAction coeffs b = (xbgSteps distance b).logical

/-- What a jump by the parts of a descriptor, each if present, must leave in bank G, said without
the loop of spec/41_xbg_jump.md R124 and without the constants of spec/42_lcg_mac128.md R160: X is
c(T) applied to the logical vector, under the cursor after 64 K steps (R123, R124); LS is 2^k LCG
steps further (R163); LA stays (spec/10_state.md R23); the caches are empty (R125). -/
structure JumpsTo {c : Cfg} (coeffs : Option (List Word64)) (k : Option Nat) (b b' : Bank c) :
    Prop where
  additive : b'.la = b.la
  words : ∀ cs, coeffs = some cs → b'.logical = polynomialAction cs b
  cursor : ∀ cs, coeffs = some cs → b'.cur = (xbgSteps (64 * cs.length) b).cur
  wordsKept : coeffs = none → b'.x = b.x ∧ b'.cur = b.cur
  value : ∀ e, k = some e → b'.ls = (lcgSteps (2 ^ e) b).ls
  valueKept : k = none → b'.ls = b.ls
  booleanCache : b'.bc = 1
  halfCache : b'.hc = BitVec.allOnes _

/-- The coefficient words whose only set bit is bit (m mod 64) of word (m div 64), `words` of them
(spec/41_xbg_jump.md R134). -/
def singleBit (words m : Nat) : List Word64 :=
  (List.range words).map fun j => if j = m / 64 then 1 <<< (m % 64) else 0

/-- The second descriptor advances each part by `n` times the distance of the first
(spec/41_xbg_jump.md R131, with n = 2^d). -/
structure Composes (c : Cfg) (d d' : JumpDescriptor c.kind.lcgBits) (n : Nat) : Prop where
  xbgPart : ∀ cs, descriptorCoeffs d = some cs →
    ∃ cs' distance, descriptorCoeffs d' = some cs' ∧ AdvancesBy c cs distance ∧
      AdvancesBy c cs' (n * distance)
  noXbgPart : descriptorCoeffs d = none → descriptorCoeffs d' = none
  lcgPart : ∀ e, descriptorExponent d = some e →
    ∃ e', descriptorExponent d' = some e' ∧ 2 ^ e' = n * 2 ^ e
  noLcgPart : descriptorExponent d = none → descriptorExponent d' = none

/-- The words of `n` successive draws and the bank after them. -/
def draws {c : Cfg} : Nat → Bank c → List (BitVec c.wordBits) × Bank c
  | 0, b => ([], b)
  | n + 1, b =>
    let d := draw b
    let r := draws n d.2
    (d.1 :: r.1, r.2)

/-- SEEDOK: no under-length seed yields all-zero output for NATIVE draws
(spec/45_codec_seed.md R228). -/
def SeedOk (c : Cfg) : Prop :=
  ∀ seed : List (BitVec c.wordBits), seed.length < nativeWords c →
    ∃ w ∈ (draws (nativeWords c) (assignSeed c (expand c seed))).1, w ≠ 0

end Sys2Proof.Machine
end

