-- ==== Sys2Proof/Machine/HostPort.lean ====
section
/-! DEFINITION. What the host can do to an instance between commands (spec/00_scope.md R3): send
bytes, take bytes out of DOUT, apply reset, and load and run a finite program. No step performs
one of these. STAT and FLT are read on the side band (spec/10_state.md R32, R33): `State.stat`,
`State.flt`. -/

namespace Sys2Proof.Machine

/-- The host sends bytes of the command stream (spec/20_memory.md R50, R61). -/
def hostSend (t : State) (bytes : List Byte) : State := { t with cmd := t.cmd ++ bytes }

/-- The host removes `n` bytes from DOUT's head: the bytes, and the engine after it
(spec/10_state.md R35, spec/20_memory.md R58). -/
def hostTake (t : State) (n : Nat) : List Byte × State :=
  (t.dout.take n, { t with dout := t.dout.drop n })

/-- Reset, from outside the command stream (spec/70_reset_and_hazards.md R270, R271): CFG is not
touched, a part of a packet received is discarded. -/
def hostReset (t : State) : State := State.resetOf t.cfg

/-- A byte string is a program: its length is exactly the sum of its packets' lengths
(spec/30_encoding.md R73). -/
def isProgram (stream : List Byte) : Bool := (splitPackets stream).2.isEmpty

/-- A finite byte string as the whole command stream, refused when it ends inside a packet
(spec/30_encoding.md R73, spec/93_implementation_defined.md A4). -/
def loadProgram (t : State) (stream : List Byte) : Option State :=
  if isProgram stream then some { t with cmd := stream } else none

/-- Steps until the stream holds no complete packet, with `fuel` at least the number of packets in
it. -/
def runPackets : Nat → State → Host.Outcome State Fault Refusal
  | 0, t => .next t
  | fuel + 1, t =>
    match nextPacket t.cmd with
    | none => .next t
    | some _ =>
      match step t with
      | .next u => runPackets fuel u
      | .fault r => .fault r
      | .refused r => .refused r

/-- A run (spec/70_reset_and_hazards.md R279): a finite command stream executed from a given state
until its last packet has been executed; none when the stream is no program (spec/30_encoding.md
R73). Every packet has at least four bytes, so the stream's length is fuel enough. -/
def runProgram (t : State) (stream : List Byte) : Option (Host.Outcome State Fault Refusal) :=
  match loadProgram t stream with
  | none => none
  | some u => some (runPackets u.cmd.length u)

/-- "a model's "result of a program" is the triple (DOUT, STAT, FLT) plus the final banks"
(spec/70_reset_and_hazards.md R279). -/
structure ProgramResult (c : Cfg) where
  /-- The bytes of DOUT in order. -/
  dout : List Byte
  /-- STAT, with LAST of the final command. -/
  stat : BitVec 8
  /-- FLT, which faults happened at least once. -/
  flt : BitVec 8
  /-- Bank G at the end. -/
  g : Option (Bank c)
  /-- Bank S at the end. -/
  s : Option (Bank c)
deriving DecidableEq, Repr

/-- What a program has produced when its run ended in the given state (R279). -/
def programResult (t : State) : ProgramResult t.config where
  dout := t.dout
  stat := t.stat
  flt := t.flt
  g := t.g
  s := t.s

end Sys2Proof.Machine
end

