-- ==== Sys2Proof/Safety.lean ====
section
/-! DEFINITION. What is true of every state a run goes through: the well-formedness of the status
registers and of a valid bank (spec/10_state.md R23, R27, R28, R32, R33, spec/60_exceptions.md
R241), which states a run reaches, and a run over several packets. -/

namespace Sys2Proof.Machine

/-- LA[0] = 1 in a valid bank (spec/10_state.md R23); nothing when there is no LCG. -/
def Bank.additiveOdd {c : Cfg} (b : Bank c) : Prop := c.kind.isLX = true → b.la.getLsbD 0 = true

/-- "BC = 0 never occurs in a valid bank" (spec/10_state.md R27). -/
def Bank.booleanCacheMarked {c : Cfg} (b : Bank c) : Prop := b.bc ≠ 0

/-- HC is all ones (empty), or its high half is 0 and its low half the stashed half
(spec/10_state.md R28); nothing when there is no HC. -/
def Bank.halfCacheShaped {c : Cfg} (b : Bank c) : Prop :=
  b.hc = BitVec.allOnes _ ∨ b.hc.toNat < 2 ^ 32

/-- What holds of the fields of a valid bank. -/
structure Bank.Wf {c : Cfg} (b : Bank c) : Prop where
  additiveOdd : b.additiveOdd
  booleanCacheMarked : b.booleanCacheMarked
  halfCacheShaped : b.halfCacheShaped

/-- What holds of LAST and FLT: codes 6 to 15 are never produced (spec/60_exceptions.md R241), FLT
bits 0, 6 and 7 are 0 (spec/10_state.md R33), and the bit of the latest fault is set (R245). -/
structure StatusWf (last : BitVec 4) (flt : BitVec 8) : Prop where
  lastIsCode : last.toNat ≤ 5
  hardWired : flt &&& 0xC1 = 0
  lastRecorded : last ≠ 0 → flt.getLsbD last.toNat = true

/-- What holds of a state of a run. -/
structure State.Wf (t : State) : Prop where
  active : ∀ b, t.g = some b → b.Wf
  shadow : ∀ b, t.s = some b → b.Wf
  status : StatusWf t.last t.flt

/-- The states a run reaches: by steps and by the host's acts, which are sending bytes, taking bytes
out of DOUT, loading a program, and reset of any configuration, at the beginning or later
(`hostReset t` is `State.resetOf t.cfg`). -/
inductive Reachable : State → Prop where
  | reset (id : CfgId) : Reachable (State.resetOf id)
  | load {t u : State} (stream : List Byte) : Reachable t → loadProgram t stream = some u →
      Reachable u
  | step {t u : State} : Reachable t → step t = .next u → Reachable u
  | send {t : State} (bytes : List Byte) : Reachable t → Reachable (hostSend t bytes)
  | take {t : State} (n : Nat) : Reachable t → Reachable (hostTake t n).2

/-- `n` steps, as far as they go. -/
def runSteps (n : Nat) (t : State) : Host.Outcome State Fault Refusal :=
  match n with
  | 0 => .next t
  | k + 1 =>
    match step t with
    | .next u => runSteps k u
    | .fault r => .fault r
    | .refused r => .refused r

/-- The commands of a list one after the other, each as `exec` answers it. -/
def runCommands (t : State) : List Instr → Host.Outcome State Fault Refusal
  | [] => .next t
  | i :: rest =>
    match exec i t with
    | .next u => runCommands u rest
    | .fault r => .fault r
    | .refused r => .refused r

end Sys2Proof.Machine
end

