-- ==== Sys2Proof/Certificates/Slice0/Obligations.lean ====
section
/-! DEFINITION. The statements about STE that are to be proved. Each docstring names the rules of
spec/ it formalises. `{ t with … }` says the whole next state, so the fields it does not name are
the statement's frame. -/

open Sys2Proof Sys2Proof.Machine

/-! ### Packets -/

/-- spec/30_encoding.md R72, R80: a step takes the packet at the head of the stream, decodes it, and
runs `exec` on the command with the stream standing after the packet; nothing else is around it. -/
def Obligations.StepRunsDecodedCommand : Prop :=
  ∀ (t : State) (p : Packet) (rest : List Byte) (i : Instr),
    nextPacket t.cmd = some (p, rest) → decodePacket (wordBytes t.config) p = .ok i →
      step t = exec i { t with cmd := rest }

/-- spec/30_encoding.md R70, R71, R72: the header is op, rsv, plen low byte, plen high byte; the
payload is the next plen bytes; framing looks at plen alone, and one step consumes exactly the
packet whatever `op` and `rsv` hold. -/
def Obligations.FramingIsByLengthAlone : Prop :=
  ∀ (op rsv : Byte) (payload rest : List Byte), payload.length ≤ 65535 →
    let stream := [op, rsv, BitVec.ofNat 8 (payload.length % 256),
      BitVec.ofNat 8 (payload.length / 256)] ++ payload ++ rest
    nextPacket stream = some (⟨op, rsv, payload⟩, rest) ∧
      ∀ t : State, t.cmd = stream → ∃ u, step t = .next u ∧ u.cmd = rest

/-- spec/30_encoding.md R73, spec/93_implementation_defined.md A4: with less than a header, or less
than the payload plen announces, the engine waits and nothing changes; the decoder splits every byte
string into complete packets and a remainder that holds none; a finite byte string is accepted as a
program exactly when it is packets and nothing else. -/
def Obligations.IncompletePacketsWaitAndAreNoProgram : Prop :=
  (∀ t : State,
    t.cmd.length < 4 ∨ t.cmd.length < 4 + leNat ((t.cmd.drop 2).take 2) → step t = .next t) ∧
  (∀ stream : List Byte,
    stream = (splitPackets stream).1.flatMap Packet.bytes ++ (splitPackets stream).2 ∧
      nextPacket (splitPackets stream).2 = none) ∧
  ∀ (t : State) (stream : List Byte),
    ((∃ ps : List Packet, (∀ p ∈ ps, p.payload.length ≤ 65535) ∧
        stream = ps.flatMap Packet.bytes) →
      loadProgram t stream = some { t with cmd := stream }) ∧
    ((¬ ∃ ps : List Packet, (∀ p ∈ ps, p.payload.length ≤ 65535) ∧
        stream = ps.flatMap Packet.bytes) → loadProgram t stream = none)

/-- spec/30_encoding.md R75, R76, R78: a packet is illegal exactly for a nonzero rsv, an opcode that
is none of the fifteen, or a payload length its opcode does not admit; then it is consumed whole and
raises ILL, which is code 1, and nothing else changes. Every other packet runs a command. -/
def Obligations.IllegalPacketRaisesIll : Prop :=
  ∀ (t : State) (p : Packet) (rest : List Byte), nextPacket t.cmd = some (p, rest) →
    let n := p.payload.length
    let illegal : Prop :=
      p.rsv ≠ 0 ∨
      p.op ∉ [0x01#8, 0x02#8, 0x03#8, 0x04#8, 0x10#8, 0x11#8, 0x12#8, 0x13#8, 0x20#8, 0x21#8,
        0x22#8, 0x23#8, 0x30#8, 0x31#8, 0x32#8] ∨
      (p.op ∈ [0x01#8, 0x02#8, 0x03#8, 0x04#8, 0x10#8, 0x11#8, 0x20#8, 0x23#8] ∧ n ≠ 0) ∨
      (p.op = 0x12#8 ∧ n ≠ 8) ∨
      (p.op ∈ [0x30#8, 0x31#8] ∧ n ≠ 16) ∨
      (p.op = 0x32#8 ∧ n ≠ 48) ∨
      (p.op = 0x13#8 ∧ (n < 8 ∨ n % 8 ≠ 0)) ∨
      (p.op = 0x22#8 ∧ n % wordBytes t.config ≠ 0)
    (illegal → step t = .next { t with cmd := rest, last := 1, flt := t.flt ||| 2 }) ∧
    (¬ illegal → ∃ i, decodePacket (wordBytes t.config) p = .ok i ∧
      step t = exec i { t with cmd := rest })

/-- spec/30_encoding.md R70, R74, R77, R81: the bytes of a well-formed command are framed as one
packet and decode to that command, with every operand at every value. -/
def Obligations.CommandsRoundTripThroughDecoder : Prop :=
  ∀ (wb : Nat) (i : Instr) (rest : List Byte), i.wellFormed wb = true →
    nextPacket (encode i ++ rest) = some (encodePacket i, rest) ∧
      decodePacket wb (encodePacket i) = .ok i

/-- spec/30_encoding.md R70 to R78: each decoded packet is the encoding of the command it gave, so
each command has one encoding and no byte of a packet is dropped. -/
def Obligations.DecodedPacketsEncodeBack : Prop :=
  ∀ (wb : Nat) (stream rest : List Byte) (p : Packet) (i : Instr),
    nextPacket stream = some (p, rest) → decodePacket wb p = .ok i →
      i.wellFormed wb = true ∧ encodePacket i = p ∧ encode i ++ rest = stream

/-- spec/30_encoding.md section 6: all eight byte strings written out there, headers included, with
W = 64, are framed and decoded as printed. The last is followed by one more byte, to show that the
illegal NEXT consumes six. -/
def Obligations.PrintedPacketsDecode : Prop :=
  let read := fun bytes : List Byte =>
    (nextPacket bytes).map fun q => (decodePacket 8 q.1, q.2)
  read [0x01, 0x00, 0x00, 0x00] = some (.ok .next, []) ∧
  read [0x11, 0x00, 0x00, 0x00] = some (.ok .longjump, []) ∧
  read [0x12, 0x00, 0x08, 0x00, 0x00, 0x00, 0x00, 0x00, 0x00, 0x00, 0xF0, 0x3F] =
    some (.ok (.denc 0x3FF0000000000000), []) ∧
  read [0x22, 0x00, 0x10, 0x00, 0x01, 0x00, 0x00, 0x00, 0x00, 0x00, 0x00, 0x00, 0x02, 0x00, 0x00,
      0x00, 0x00, 0x00, 0x00, 0x00] =
    some (.ok (.seed (leBytes 8 (1 : Word64) ++ leBytes 8 (2 : Word64))), []) ∧
  read ([0x30, 0x00, 0x10, 0x00] ++ List.replicate 16 0xFF) =
    some (.ok (.umulh 0xFFFFFFFFFFFFFFFF 0xFFFFFFFFFFFFFFFF), []) ∧
  read [0x01, 0x01, 0x00, 0x00] = some (.error (.reservedByte 1), []) ∧
  read [0x00, 0x00, 0x00, 0x00] = some (.error (.unknownOpcode 0), []) ∧
  read [0x01, 0x00, 0x02, 0x00, 0xAA, 0xBB, 0x77] =
    some (.error (.payloadLength .next 2), [0x77])

/-- spec/30_encoding.md R76, R77: the header of a packet with plen of 16 bits selects at most one row
of the opcode map, and the decoder answers a command exactly when a row is selected and, for JUMPV
and SEED, the payload length meets R76; the command is that row's. -/
def Obligations.OpcodeMapIsTheDecoder : Prop :=
  (∀ (h : BitVec 32) (r r' : OpcodeRow), r ∈ opcodeTable → r' ∈ opcodeTable →
    r.selects h = true → r'.selects h = true → r = r') ∧
  ∀ (wb : Nat) (p : Packet) (o : Opcode), p.payload.length ≤ 65535 →
    ((∃ i, decodePacket wb p = .ok i ∧ i.opcode = o) ↔
      (∃ r ∈ opcodeTable, r.op = o ∧ r.selects p.header = true) ∧
        (o = .jumpv → 8 ≤ p.payload.length ∧ p.payload.length % 8 = 0) ∧
        (o = .seed → p.payload.length % wb = 0))

/-- The host's two questions agree: on an instance whose native words have the eight bytes that
`decodeTableWord` presumes (log 2), a step from a state with a table word at its head runs the
instruction `decodeTableWord` names. A statement about the model's interface. -/
def Obligations.FetchWordRunsTheTableWord : Prop :=
  ∀ (s : State) (nbits w : Nat) (i : Instr), wordBytes s.config = 8 →
    decodeTableWord nbits w = some i → step (s.withFetchWord nbits w) = exec i s

/-- spec/20_memory.md R59, R61, spec/10_state.md R34: packets are executed in the order they stand
in the stream, one step each, and what stands behind them is not read. -/
def Obligations.PacketsRunInOrder : Prop :=
  ∀ (is : List Instr) (t : State) (rest : List Byte),
    (∀ i ∈ is, i.wellFormed (wordBytes t.config) = true) →
      runSteps is.length { t with cmd := is.flatMap encode ++ rest } =
        runCommands { t with cmd := rest } is

/-! ### Reset and the whole machine -/

/-- spec/10_state.md R37, spec/70_reset_and_hazards.md R271: both banks not valid and so without
values, LAST 0, FLT 0, STAT 0, DOUT empty, CFG as it was, and no part of a packet received. That the
WHOLE stream is empty, so that whole packets sent before the reset and not yet taken are discarded
too, is the model's DEDUCED choice of log 3; that State.reset is reset's own fixed point rests on
the configuration of log 2. -/
def Obligations.ResetStateIsAsSpecified : Prop :=
  ∀ t : State,
    (hostReset t).g = none ∧ (hostReset t).s = none ∧ (hostReset t).last = 0 ∧
      (hostReset t).flt = 0 ∧ (hostReset t).stat = 0 ∧ (hostReset t).dout = [] ∧
      (hostReset t).cmd = [] ∧ (hostReset t).cfg = t.cfg ∧ hostReset State.reset = State.reset

/-- spec/10_state.md R32: STAT[0] = G.VALID, STAT[1] = S.VALID, STAT[3:2] = 0, STAT[7:4] = LAST. -/
def Obligations.StatusRegisterFields : Prop :=
  ∀ t : State,
    t.stat.getLsbD 0 = t.g.isSome ∧ t.stat.getLsbD 1 = t.s.isSome ∧
      t.stat.extractLsb' 2 2 = 0 ∧ t.stat.extractLsb' 4 4 = t.last

/-- spec/10_state.md R23, R27, R28, R33, spec/60_exceptions.md R241: in every valid bank LA is odd,
BC is not 0 and HC is empty or a 32-bit half; LAST is 0 to 5; FLT bits 0, 6 and 7 are 0 and the bit
of the latest fault is set. One step keeps it, from every state. -/
def Obligations.WellFormedStateKeptByEveryStep : Prop :=
  ∀ t u : State, t.Wf → step t = .next u → u.Wf

/-- spec/10_state.md R37, R38: the state after reset is well formed in every configuration. -/
def Obligations.WellFormedAtReset : Prop :=
  State.reset.Wf ∧ ∀ id : CfgId, (State.resetOf id).Wf

/-- spec/10_state.md R23, R27, R28, R33: so it holds of every state that is reached from reset by
steps and by the host's acts, which are sending bytes, taking bytes out of DOUT, loading a program
and another reset (log 12). -/
def Obligations.WellFormedInEveryReachableState : Prop := ∀ t : State, Reachable t → t.Wf

/-- spec/70_reset_and_hazards.md R277, spec/10_state.md R39: every step and every command of every
form ends in a next state, under the same configuration. -/
def Obligations.EveryStepEndsUnderTheSameCfg : Prop :=
  (∀ t : State, ∃ u, step t = .next u ∧ u.cfg = t.cfg) ∧
    ∀ (i : Instr) (t : State), ∃ u, exec i t = .next u ∧ u.cfg = t.cfg ∧ u.cmd = t.cmd

/-- spec/60_exceptions.md R245, R246, R254: a command ends with LAST 0 and FLT untouched, or it
faults with one code of 1 to 5: LAST is the code, the FLT bit of the code is set, and nothing else
is changed, neither bank, nor DOUT, nor the rest of the stream. -/
def Obligations.CommandsSucceedOrChangeOnlyStatus : Prop :=
  ∀ (i : Instr) (t u : State), exec i t = .next u →
    (u.last = 0 ∧ u.flt = t.flt) ∨
    ∃ code : Nat, 1 ≤ code ∧ code ≤ 5 ∧
      u = { t with last := BitVec.ofNat 4 code, flt := t.flt ||| (1#8 <<< code) }

/-- spec/60_exceptions.md R241, R242, R244: the code each well-formed command ends with, UNS before
NSD, the length check of RESTORE with its cursor check. -/
def Obligations.FaultCodeOfEveryCommand : Prop :=
  ∀ (i : Instr) (t : State), i.wellFormed (wordBytes t.config) = true →
    let unseeded : Nat := if t.g.isSome then 0 else 2
    let code : Nat :=
      match i with
      | .next => unseeded
      | .nextint => unseeded
      | .nextlong => unseeded
      | .nextbool => unseeded
      | .jump => if t.config.jump.isSome then unseeded else 3
      | .longjump => if t.config.ljump.isSome then unseeded else 3
      | .denc d =>
        match distanceValue d with
        | none => 4
        | some r => if r < t.config.period then 0 else 4
      | .jumpv _ => unseeded
      | .save => unseeded
      | .restore payload =>
        let at2 := t.config.count * wordBytes t.config
        if payload.length ≠ stateBytes t.config then 5
        else if t.config.ring ∧
            t.config.count ≤ leNat (slice payload at2 (at2 + wordBytes t.config)) then 5
        else 0
      | .seed _ => 0
      | .xchg => 0
      | .umulh _ _ => 0
      | .uaddh _ _ => 0
      | .mac128 _ _ _ _ _ _ => 0
    ∃ u, exec i t = .next u ∧ u.last.toNat = code

/-- spec/10_state.md R33: no step clears a bit of FLT. -/
def Obligations.FaultFlagsAreSticky : Prop :=
  ∀ (n : Nat) (t u : State), runSteps n t = .next u →
    ∀ c : Nat, t.flt.getLsbD c = true → u.flt.getLsbD c = true

/-- spec/10_state.md R32, R33, R35, R39, spec/20_memory.md R58: what a command does to the banks,
what it emits and how it ends depends on the banks alone: not on LAST, FLT, what stands in DOUT or
what follows in the stream; it appends to DOUT and moves FLT by the one code it ends with. -/
def Obligations.CommandsReadOnlyTheBanks : Prop :=
  ∀ (i : Instr) (id : CfgId) (g s : Option (Bank (cfgOf id))),
    ∃ (g' s' : Option (Bank (cfgOf id))) (code : BitVec 4) (bytes : List Byte),
      ∀ (last : BitVec 4) (flt : BitVec 8) (dout cmd : List Byte),
        exec i ⟨id, g, s, last, flt, dout, cmd⟩ =
          .next ⟨id, g', s', code,
            if code = 0 then flt else flt ||| (1#8 <<< code.toNat), dout ++ bytes, cmd⟩

/-- spec/20_memory.md R56: the bytes each command that ends without fault puts into DOUT; a command
that faults puts none. -/
def Obligations.BytesEmittedByEachCommand : Prop :=
  ∀ (i : Instr) (t u : State), exec i t = .next u →
    let n : Nat :=
      match i with
      | .next => wordBytes t.config
      | .nextint => 4
      | .nextlong => 8
      | .nextbool => 1
      | .jump => 0
      | .longjump => 0
      | .denc _ => 8 * distanceWords t.config
      | .jumpv _ => 0
      | .save => stateBytes t.config
      | .restore _ => 0
      | .seed _ => 0
      | .xchg => 0
      | .umulh _ _ => 8
      | .uaddh _ _ => 8
      | .mac128 _ _ _ _ _ _ => 16
    ∃ bytes : List Byte, u.dout = t.dout ++ bytes ∧
      bytes.length = if u.last = 0 then n else 0

/-- spec/10_state.md R36: SAVE, DENC, UMULH, UADDH and MAC128 end and change nothing but DOUT, LAST
and, on a fault, FLT. -/
def Obligations.CodecReadersKeepTheGenerator : Prop :=
  ∀ (i : Instr) (t : State),
    (i = .save ∨ (∃ d, i = .denc d) ∨ (∃ a b, i = .umulh a b) ∨ (∃ a b, i = .uaddh a b) ∨
      ∃ mh ml xh xl ah al, i = .mac128 mh ml xh xl ah al) →
    ∃ (bytes : List Byte) (last : BitVec 4) (flt : BitVec 8),
      exec i t = .next { t with dout := t.dout ++ bytes, last := last, flt := flt } ∧
        (last = 0 → flt = t.flt) ∧ (last ≠ 0 → bytes = [])

/-- spec/10_state.md R30: only JUMP, LONGJUMP, JUMPV and XCHG write S; every other command neither
reads S nor writes it. -/
def Obligations.ShadowOnlyForJumpsAndExchange : Prop :=
  ∀ (i : Instr) (t : State), i ≠ .jump → i ≠ .longjump → (∀ cs, i ≠ .jumpv cs) → i ≠ .xchg →
    ∃ (g : Option (Bank t.config)) (last : BitVec 4) (flt : BitVec 8) (dout : List Byte),
      ∀ s : Option (Bank t.config),
        exec i { t with s := s } =
          .next { t with g := g, s := s, last := last, flt := flt, dout := dout }

/-- spec/60_exceptions.md R242, R244, spec/70_reset_and_hazards.md R272: with G.VALID 0 the commands
that need G end with NSD, code 2, and change nothing else; JUMP and LONGJUMP on a configuration
without the descriptor end with UNS, code 3, whether or not the bank is valid. -/
def Obligations.UnseededAndUnsupportedFault : Prop :=
  ∀ t : State,
    (∀ i : Instr, t.g = none →
      (i = .next ∨ i = .nextint ∨ i = .nextlong ∨ i = .nextbool ∨ i = .save ∨
        (i = .jump ∧ t.config.jump ≠ none) ∨ (i = .longjump ∧ t.config.ljump ≠ none) ∨
        ∃ c cs, i = .jumpv (c :: cs)) →
      exec i t = .next { t with last := 2, flt := t.flt ||| 4 }) ∧
    (t.config.jump = none → exec .jump t = .next { t with last := 3, flt := t.flt ||| 8 }) ∧
    (t.config.ljump = none → exec .longjump t = .next { t with last := 3, flt := t.flt ||| 8 })

/-! ### The word source -/

/-- spec/41_xbg_jump.md R120, R121: a draw of a stand-alone XBG is TRANSFORM of the state before the
update, then one update of X and CUR; LA, LS and both caches stay. -/
def Obligations.DrawOfStandaloneXbg : Prop :=
  ∀ (c : Cfg) (b : Bank c), c.kind.isLX = false →
    (draw b).1 = c.transform b.x b.cur ∧
      (draw b).2 = { b with x := (c.update b.x b.cur).1, cur := (c.update b.x b.cur).2 }

/-- spec/43_lxm.md R180, R182, R183, spec/42_lcg_mac128.md R158, R159: a draw of the composite is
MIX of the top 64 bits of LS plus the head word, both read before the updates; then
LS' = (M LS + LA) mod 2^L, and X and CUR are updated once; LA and both caches stay. -/
def Obligations.DrawOfTheComposite : Prop :=
  ∀ (c : Cfg) (b : Bank c), c.kind.isLX = true →
    (draw b).1.toNat =
        (c.mix (BitVec.ofNat 64 (b.ls.toNat / 2 ^ (c.lcgBits - 64)) +
          BitVec.ofNat 64 (headOf c b.x b.cur).toNat)).toNat ∧
      (c.ring = false → headOf c b.x b.cur = b.x[0]'(count_pos c)) ∧
      (draw b).2.ls.toNat =
        ((multiplier c.kind c.mLow).toNat * b.ls.toNat + b.la.toNat) % 2 ^ c.lcgBits ∧
      (draw b).2.x = (c.update b.x b.cur).1 ∧ (draw b).2.cur = (c.update b.x b.cur).2 ∧
      (draw b).2.la = b.la ∧ (draw b).2.bc = b.bc ∧ (draw b).2.hc = b.hc

/-- spec/40_word_source.md R101: NEXT on a valid bank emits the drawn word in WB bytes, advances G,
and changes nothing else but LAST. -/
def Obligations.NextEmitsOneDraw : Prop :=
  ∀ (t : State) (b : Bank t.config), t.g = some b →
    exec .next t =
      .next { t with
        g := some (draw b).2
        dout := t.dout ++ leBytes (wordBytes t.config) (draw b).1
        last := 0 }

/-- spec/40_word_source.md R102: for W = 64 NEXTLONG does what NEXT does; for W = 32 it makes two
draws, and the word's first four bytes are the second draw, the low half. -/
def Obligations.NextlongEmitsSixtyFourBits : Prop :=
  ∀ (t : State) (b : Bank t.config), t.g = some b →
    (t.config.wordBits = 64 →
      exec .nextlong t =
        .next { t with
          g := some (draw b).2
          dout := t.dout ++ leBytes 8 (draw b).1
          last := 0 }) ∧
    (t.config.wordBits = 32 →
      exec .nextlong t =
        .next { t with
          g := some (draw (draw b).2).2
          dout := t.dout ++ leBytes 4 (draw (draw b).2).1 ++ leBytes 4 (draw b).1
          last := 0 })

/-- spec/40_word_source.md R103: for W = 32 NEXTINT is NEXT; for W = 64 with HC empty it draws, emits
the low half and stashes the high half; with HC not empty it emits the stashed half, makes no draw
and marks HC empty. -/
def Obligations.NextintUsesTheHalfCache : Prop :=
  ∀ (t : State) (b : Bank t.config), t.g = some b →
    (t.config.wordBits = 32 →
      exec .nextint t =
        .next { t with
          g := some (draw b).2
          dout := t.dout ++ leBytes 4 (draw b).1
          last := 0 }) ∧
    (t.config.wordBits = 64 → b.hc.getLsbD 63 = true →
      exec .nextint t =
        .next { t with
          g := some { (draw b).2 with hc := BitVec.ofNat _ ((draw b).1.toNat / 2 ^ 32) }
          dout := t.dout ++ (leBytes 8 (draw b).1).take 4
          last := 0 }) ∧
    (t.config.wordBits = 64 → b.hc.getLsbD 63 = false →
      exec .nextint t =
        .next { t with
          g := some { b with hc := BitVec.allOnes _ }
          dout := t.dout ++ (leBytes 8 b.hc).take 4
          last := 0 })

/-- spec/40_word_source.md R104: with BC = 1 NEXTBOOL draws, emits bit 0 and caches the other W - 1
bits under a marker at the top; otherwise it emits bit 0 of BC, makes no draw and shifts BC. -/
def Obligations.NextboolUsesTheBooleanCache : Prop :=
  ∀ (t : State) (b : Bank t.config), t.g = some b →
    (b.bc = 1 →
      exec .nextbool t =
        .next { t with
          g := some { (draw b).2 with
            bc := BitVec.ofNat _ ((draw b).1.toNat / 2 + 2 ^ (t.config.wordBits - 1)) }
          dout := t.dout ++ [BitVec.ofNat 8 ((draw b).1.toNat % 2)]
          last := 0 }) ∧
    (b.bc ≠ 1 →
      exec .nextbool t =
        .next { t with
          g := some { b with bc := BitVec.ofNat _ (b.bc.toNat / 2) }
          dout := t.dout ++ [BitVec.ofNat 8 (b.bc.toNat % 2)]
          last := 0 })

/-- spec/40_word_source.md R104, R110: from an empty boolean cache, n <= W NEXTBOOL emit bits 0 to
n - 1 of one drawn word and make that one draw; after W of them the cache is empty again. -/
def Obligations.BooleansOfOneWord : Prop :=
  ∀ (t : State) (b : Bank t.config) (n : Nat), t.g = some b → b.bc = 1 → 1 ≤ n →
    n ≤ t.config.wordBits →
      runCommands t (List.replicate n .nextbool) =
        .next { t with
          g := some { (draw b).2 with
            bc := BitVec.ofNat _
              ((draw b).1.toNat / 2 ^ n + 2 ^ (t.config.wordBits - n)) }
          dout := t.dout ++ (List.range n).map fun k =>
            BitVec.ofNat 8 ((draw b).1.toNat / 2 ^ k % 2)
          last := 0 }

/-- spec/40_word_source.md R103, R107, R110: from an empty half-word cache of a 64-bit source, two
NEXTINT emit the eight bytes of one drawn word and make that one draw; a NEXT between them draws the
next word and does not disturb the stashed half. -/
def Obligations.HalvesOfOneWord : Prop :=
  ∀ (t : State) (b : Bank t.config), t.g = some b → t.config.wordBits = 64 →
    b.hc.getLsbD 63 = true →
      runCommands t [.nextint, .nextint] =
        .next { t with
          g := some { (draw b).2 with hc := BitVec.allOnes _ }
          dout := t.dout ++ leBytes 8 (draw b).1
          last := 0 } ∧
      runCommands t [.nextint, .next, .nextint] =
        .next { t with
          g := some { (draw (draw b).2).2 with hc := BitVec.allOnes _ }
          dout := t.dout ++ (leBytes 8 (draw b).1).take 4 ++
            leBytes 8 (draw (draw b).2).1 ++ (leBytes 8 (draw b).1).drop 4
          last := 0 }

/-- spec/40_word_source.md R107: NEXT and NEXTLONG leave both caches as they were, NEXTINT leaves
BC and NEXTBOOL leaves HC. -/
def Obligations.InBandDrawsKeepTheOtherCache : Prop :=
  ∀ (t : State) (b : Bank t.config), t.g = some b →
    (∃ (b' : Bank t.config) (bytes : List Byte),
      exec .next t = .next { t with g := some b', dout := t.dout ++ bytes, last := 0 } ∧
        b'.bc = b.bc ∧ b'.hc = b.hc) ∧
    (∃ (b' : Bank t.config) (bytes : List Byte),
      exec .nextlong t = .next { t with g := some b', dout := t.dout ++ bytes, last := 0 } ∧
        b'.bc = b.bc ∧ b'.hc = b.hc) ∧
    (∃ (b' : Bank t.config) (bytes : List Byte),
      exec .nextint t = .next { t with g := some b', dout := t.dout ++ bytes, last := 0 } ∧
        b'.bc = b.bc) ∧
    (∃ (b' : Bank t.config) (bytes : List Byte),
      exec .nextbool t = .next { t with g := some b', dout := t.dout ++ bytes, last := 0 } ∧
        b'.hc = b.hc)

/-- spec/40_word_source.md R106: JUMP, LONGJUMP, JUMPV, RESTORE and SEED end, when they succeed, with
a valid G whose two caches are empty. -/
def Obligations.OutOfBandChangesEmptyTheCaches : Prop :=
  ∀ (i : Instr) (t u : State),
    (i = .jump ∨ i = .longjump ∨ (∃ cs, i = .jumpv cs) ∨ (∃ bytes, i = .restore bytes) ∨
      ∃ bytes, i = .seed bytes) →
    exec i t = .next u → u.last = 0 →
      ∃ b, u.g = some b ∧ b.bc = 1 ∧ b.hc = BitVec.allOnes _

/-! ### Jumps -/

/-- spec/41_xbg_jump.md R123 to R126, spec/42_lcg_mac128.md R163: JUMP with a descriptor and a valid
bank copies all of G to S, caches included, and then moves G by the descriptor's parts: the
polynomial of C applied to the logical vector, 2^k LCG steps; LA stays, the caches are empty, and
nothing is emitted. -/
def Obligations.JumpCopiesThenMovesTheBank : Prop :=
  ∀ (t : State) (b : Bank t.config) (d : JumpDescriptor t.config.kind.lcgBits),
    t.g = some b → t.config.jump = some d →
      ∃ b' : Bank t.config, exec .jump t = .next { t with g := some b', s := some b, last := 0 } ∧
        JumpsTo (descriptorCoeffs d) (descriptorExponent d) b b'

/-- spec/41_xbg_jump.md R123, R124, R125, R127, spec/42_lcg_mac128.md R163: the same of LONGJUMP and
the configuration's long-jump descriptor. -/
def Obligations.LongjumpCopiesThenMovesTheBank : Prop :=
  ∀ (t : State) (b : Bank t.config) (d : JumpDescriptor t.config.kind.lcgBits),
    t.g = some b → t.config.ljump = some d →
      ∃ b' : Bank t.config,
        exec .longjump t = .next { t with g := some b', s := some b, last := 0 } ∧
          JumpsTo (descriptorCoeffs d) (descriptorExponent d) b b'

/-- spec/41_xbg_jump.md R123, R124, R125, R128: JUMPV with K >= 1 words copies G to S and applies
their polynomial to the logical vector; LA and LS stay. -/
def Obligations.JumpvAppliesThePolynomial : Prop :=
  ∀ (t : State) (b : Bank t.config) (c : Word64) (cs : List Word64), t.g = some b →
    ∃ b' : Bank t.config,
      exec (.jumpv (c :: cs)) t = .next { t with g := some b', s := some b, last := 0 } ∧
        JumpsTo (some (c :: cs)) none b b'

/-- spec/41_xbg_jump.md R134: JUMPV with the one bit m of K words leaves the logical vector m updates
give, under the cursor 64 K updates give; without a ring the registers themselves; and under EQV and
TEQV every later draw agrees. -/
def Obligations.SmallPowerJumpIsStepping : Prop :=
  ∀ (t : State) (b : Bank t.config) (k m : Nat), t.g = some b → m < 64 * k →
    ∃ b' : Bank t.config,
      exec (.jumpv (singleBit k m)) t = .next { t with g := some b', s := some b, last := 0 } ∧
        b'.logical = (xbgSteps m b).logical ∧ b'.cur = (xbgSteps (64 * k) b).cur ∧
        (t.config.ring = false → b'.x = (xbgSteps m b).x) ∧
        (RotationEquivariant t.config → OutputEquivariant t.config →
          ∀ n : Nat, (draws n b').1 = (draws n (xbgSteps m b)).1)

/-- spec/41_xbg_jump.md R130: with EQV, TEQV and coefficient words that advance by D (JCOEF), the
XBG jump leaves the logical vector that D updates give, and every later draw gives the same word
either way. The rule's LIN and CUR are not needed. -/
def Obligations.JumpMatchesBruteForce : Prop :=
  ∀ (c : Cfg) (coeffs : List Word64) (distance : Nat) (b : Bank c),
    RotationEquivariant c → OutputEquivariant c → AdvancesBy c coeffs distance →
      (xbgJump coeffs b).logical = (xbgSteps distance b).logical ∧
        ∀ n : Nat, (draws n (xbgJump coeffs b)).1 = (draws n (xbgSteps distance b)).1

/-- spec/41_xbg_jump.md R131: with CUR and EQV, n jumps by a descriptor leave the same generator
registers as one jump by a descriptor that advances n times as far, the cursor included; so n JUMP
leave the same G as one LONGJUMP, while S holds the state before the last of them. -/
def Obligations.LongJumpIsComposedJumps : Prop :=
  (∀ (c : Cfg) (d d' : JumpDescriptor c.kind.lcgBits) (n : Nat) (b : Bank c),
    CursorAutonomous c → RotationEquivariant c → 0 < n → Composes c d d' n →
      Nat.iterate (jumped (descriptorCoeffs d) (descriptorExponent d)) n b =
        jumped (descriptorCoeffs d') (descriptorExponent d') b) ∧
  ∀ (t : State) (b : Bank t.config) (d d' : JumpDescriptor t.config.kind.lcgBits) (n : Nat),
    CursorAutonomous t.config → RotationEquivariant t.config → 0 < n →
    Composes t.config d d' n → t.g = some b → t.config.jump = some d → t.config.ljump = some d' →
      let jumps := fun k : Nat =>
        Nat.iterate (jumped (descriptorCoeffs d) (descriptorExponent d)) k b
      runCommands t (List.replicate n .jump) =
          .next { t with g := some (jumps n), s := some (jumps (n - 1)), last := 0 } ∧
        exec .longjump t = .next { t with g := some (jumps n), s := some b, last := 0 }

/-- spec/41_xbg_jump.md R132: with LIN, all-zero X stays all-zero under the update and under every
XBG jump; every draw of a stand-alone XBG is then TRANSFORM(0, cur), and with TZERO it is zero. -/
def Obligations.ZeroIsAFixedPoint : Prop :=
  ∀ (c : Cfg) (b : Bank c), Linear c → b.x = zeroWords _ _ →
    (xbgStep b).x = zeroWords _ _ ∧
    (∀ coeffs : List Word64, (xbgJump coeffs b).x = zeroWords _ _) ∧
    (c.kind.isLX = false → ∀ n : Nat,
      (draws n b).1 =
          (List.range n).map (fun i => c.transform (zeroWords _ _) (xbgSteps i b).cur) ∧
        (draws n b).2.x = zeroWords _ _ ∧
        (ZeroOutput c → (draws n b).1 = List.replicate n 0))

/-! ### The LCG and the multiply-add kernel -/

/-- spec/42_lcg_mac128.md R158, R159: an LCG step writes LS alone, and LS' = (M LS + LA) mod 2^L for
both widths; the 128-bit form is one use of the kernel with multiplier {1, M_LOW}. -/
def Obligations.LcgStepIsWideMultiplyAdd : Prop :=
  (∀ (c : Cfg) (b : Bank c), c.kind.isLX = true →
    lcgStep b = { b with
      ls := BitVec.ofNat _ ((multiplier c.kind c.mLow).toNat * b.ls.toNat + b.la.toNat) }) ∧
  ∀ (mLow : Word64) (ls la : BitVec 128),
    (high64 (lcgStep128 mLow ls la), low64 (lcgStep128 mLow ls la)) =
      mac128 1 mLow (high64 ls) (low64 ls) (high64 la) (low64 la)

/-- spec/42_lcg_mac128.md R163: a jump by 2^k leaves the bank as 2^k LCG steps do; for k = 0 as one
step does. -/
def Obligations.LcgJumpIsRepeatedStep : Prop :=
  ∀ (c : Cfg) (k : Nat) (b : Bank c),
    lcgJump k b = lcgSteps (2 ^ k) b ∧ lcgJump 0 b = lcgStep b

/-- spec/42_lcg_mac128.md R160: from M'_0 = M and A'_0 = 1 by repeated squaring,
M'_k = M^(2^k) and A'_k = 1 + M + … + M^(2^k - 1), modulo 2^L. -/
def Obligations.BrownConstantsInClosedForm : Prop :=
  ∀ (l : Nat) (m : BitVec l) (k : Nat),
    brown m 0 = (m, 1) ∧
    brown m (k + 1) = ((brown m k).1 * (brown m k).1, ((brown m k).1 + 1) * (brown m k).2) ∧
    (brown m k).1.toNat = m.toNat ^ 2 ^ k % 2 ^ l ∧
    (brown m k).2.toNat = (∑ i ∈ Finset.range (2 ^ k), m.toNat ^ i) % 2 ^ l

/-- spec/42_lcg_mac128.md R151, R155: UMULH emits the high half h of the exact product,
a b = h 2^64 + (a * b), in eight bytes, seeded or not; `umulh` is symmetric. -/
def Obligations.UmulhEmitsTheHighHalf : Prop :=
  ∀ (a b : Word64), umulh a b = umulh b a ∧
    (umulh a b).toNat = a.toNat * b.toNat / 2 ^ 64 ∧
    a.toNat * b.toNat = (umulh a b).toNat * 2 ^ 64 + (a * b).toNat ∧
    ∀ t : State,
      exec (.umulh a b) t = .next { t with dout := t.dout ++ leBytes 8 (umulh a b), last := 0 }

/-- spec/42_lcg_mac128.md R152: the fold of the four partial products of 32-bit halves gives the high
half of the exact product. -/
def Obligations.UmulhDatapathIsTheHighHalf : Prop :=
  ∀ a b : Word64, (umulhDatapath a b).toNat = a.toNat * b.toNat / 2 ^ 64

/-- spec/42_lcg_mac128.md R153, R156: UADDH emits the carry of the exact sum as a word 0 or 1; the
carry is symmetric and is what comparing the wrapped sum with an operand gives. -/
def Obligations.UaddhEmitsTheCarry : Prop :=
  ∀ (a b : Word64), uaddh a b = uaddh b a ∧
    (uaddh a b).toNat = (if 2 ^ 64 ≤ a.toNat + b.toNat then 1 else 0) ∧
    uaddh a b = (if a + b < a then 1 else 0) ∧
    ∀ t : State,
      exec (.uaddh a b) t = .next { t with dout := t.dout ++ leBytes 8 (uaddh a b), last := 0 }

/-- spec/42_lcg_mac128.md R154, R157: MAC128 emits the high and then the low half of
({MH, ML} {XH, XL} + {AH, AL}) mod 2^128, seeded or not. -/
def Obligations.Mac128EmitsTheWideResult : Prop :=
  ∀ (t : State) (mh ml xh xl ah al : Word64),
    ∃ rh rl : Word64,
      exec (.mac128 mh ml xh xl ah al) t =
        .next { t with dout := t.dout ++ leBytes 8 rh ++ leBytes 8 rl, last := 0 } ∧
      rh.toNat * 2 ^ 64 + rl.toNat =
        ((mh.toNat * 2 ^ 64 + ml.toNat) * (xh.toNat * 2 ^ 64 + xl.toNat) +
          (ah.toNat * 2 ^ 64 + al.toNat)) % 2 ^ 128

/-! ### The distance encoder -/

/-- spec/44_distance_encoder.md R190 to R195: a zero of either sign, and a positive normal binary64
whose exact value sig 2^(e - 1075) is a natural number r, is encoded when it is below PERIOD: KD
words, word 0 the least significant, whose bytes are r. -/
def Obligations.DencEncodesTheExactDistance : Prop :=
  ∀ (t : State) (d : Word64) (r : Nat),
    let e := d.toNat / 2 ^ 52 % 2 ^ 11
    let f := d.toNat % 2 ^ 52
    (e = 0 ∧ f = 0 ∧ r = 0) ∨
      (d.toNat < 2 ^ 63 ∧ 1 ≤ e ∧ e ≤ 2046 ∧ (2 ^ 52 + f) * 2 ^ e = r * 2 ^ 1075) →
    r < t.config.period →
      ∃ bytes : List Byte,
        exec (.denc d) t = .next { t with dout := t.dout ++ bytes, last := 0 } ∧
          bytes.length = 8 * distanceWords t.config ∧ leNat bytes = r

/-- spec/44_distance_encoder.md R192, R193, R196: a NaN, an infinity, a negative number other than
-0, a subnormal, a number with a fraction, and a distance not below PERIOD end with IJD, code 4, and
change nothing else. -/
def Obligations.DencRejectsEveryOtherOperand : Prop :=
  ∀ (t : State) (d : Word64),
    let e := d.toNat / 2 ^ 52 % 2 ^ 11
    let f := d.toNat % 2 ^ 52
    (e = 2047 ∨ (2 ^ 63 < d.toNat) ∨ (e = 0 ∧ f ≠ 0) ∨
      (1 ≤ e ∧ ¬ ∃ r : Nat, (2 ^ 52 + f) * 2 ^ e = r * 2 ^ 1075) ∨
      (1 ≤ e ∧ t.config.period * 2 ^ 1075 ≤ (2 ^ 52 + f) * 2 ^ e)) →
    exec (.denc d) t = .next { t with last := 4, flt := t.flt ||| 16 }

/-! ### The codec -/

/-- spec/45_codec_seed.md R210 to R213, spec/20_memory.md R52, R53: SAVE of a valid bank appends
STATE_BYTES bytes and changes nothing else but LAST; each segment stands at its offset: X in register
order, the cursor of a ring, LA and LS with the high half first, and the empty cache words whatever
the caches hold. -/
def Obligations.SaveEmitsTheSegments : Prop :=
  ∀ (t : State) (b : Bank t.config), t.g = some b →
    let wb := wordBytes t.config
    let lw := lcgWordCount t.config
    let at3 := (t.config.count + cursorWords t.config) * wb
    let at5 := at3 + 16 * lw
    ∃ bytes : List Byte,
      exec .save t = .next { t with dout := t.dout ++ bytes, last := 0 } ∧
        bytes.length = stateBytes t.config ∧
        (∀ i : Fin t.config.words.count,
          leNat (slice bytes (wb * i) (wb * i + wb)) = b.x[i].toNat) ∧
        (t.config.ring = true →
          leNat (slice bytes (t.config.count * wb) (t.config.count * wb + wb)) = b.cur.toNat) ∧
        (∀ h < lw, leNat (slice bytes (at3 + 8 * h) (at3 + 8 * h + 8)) =
          b.la.toNat / 2 ^ (64 * (lw - 1 - h)) % 2 ^ 64) ∧
        (∀ h < lw, leNat (slice bytes (at3 + 8 * lw + 8 * h) (at3 + 8 * lw + 8 * h + 8)) =
          b.ls.toNat / 2 ^ (64 * (lw - 1 - h)) % 2 ^ 64) ∧
        leNat (slice bytes at5 (at5 + wb)) = 1 ∧
        (t.config.wordBits = 64 →
          leNat (slice bytes (at5 + wb) (at5 + wb + 8)) = 2 ^ 64 - 1)

/-- spec/45_codec_seed.md R214, R217, R218, R227: RESTORE of a payload of STATE_BYTES bytes with a
cursor word below N, on any engine, loads every field of G from its segment, LA with bit 0 set, with
the caches empty whatever the cache words of the payload are, and touches nothing else but LAST. -/
def Obligations.RestoreLoadsTheSegments : Prop :=
  ∀ (t : State) (payload : List Byte),
    let wb := wordBytes t.config
    let lw := lcgWordCount t.config
    let at2 := t.config.count * wb
    let at3 := (t.config.count + cursorWords t.config) * wb
    payload.length = stateBytes t.config →
    (t.config.ring = true → leNat (slice payload at2 (at2 + wb)) < t.config.count) →
      ∃ b : Bank t.config,
        exec (.restore payload) t = .next { t with g := some b, last := 0 } ∧
          (∀ i : Fin t.config.words.count,
            b.x[i].toNat = leNat (slice payload (wb * i) (wb * i + wb))) ∧
          (t.config.ring = true → b.cur.toNat = leNat (slice payload at2 (at2 + wb))) ∧
          (∀ h < lw, b.la.toNat / 2 ^ (64 * (lw - 1 - h)) % 2 ^ 64 =
            if h = lw - 1 then leNat (slice payload (at3 + 8 * h) (at3 + 8 * h + 8)) ||| 1
            else leNat (slice payload (at3 + 8 * h) (at3 + 8 * h + 8))) ∧
          (∀ h < lw, b.ls.toNat / 2 ^ (64 * (lw - 1 - h)) % 2 ^ 64 =
            leNat (slice payload (at3 + 8 * lw + 8 * h) (at3 + 8 * lw + 8 * h + 8))) ∧
          b.bc = 1 ∧ b.hc = BitVec.allOnes _

/-- spec/45_codec_seed.md R215, R216: a payload of any other length, and a cursor word not below N,
end with SER, code 5, and change nothing else. -/
def Obligations.RestoreRefusesBadPayloads : Prop :=
  ∀ (t : State) (payload : List Byte),
    let wb := wordBytes t.config
    let at2 := t.config.count * wb
    payload.length ≠ stateBytes t.config ∨
      (t.config.ring = true ∧ t.config.count ≤ leNat (slice payload at2 (at2 + wb))) →
    exec (.restore payload) t = .next { t with last := 5, flt := t.flt ||| 32 }

/-- spec/45_codec_seed.md R219: the bytes a SAVE of a well-formed valid bank emits, restored on any
engine of the same CFG, give a bank with the same X, CUR, LA, LS and empty caches, so that every
later draw is the same; if the caches were empty at the SAVE it is the same bank. -/
def Obligations.RestoreUndoesSave : Prop :=
  ∀ (t : State) (b : Bank t.config), t.g = some b → b.Wf →
    ∃ bytes : List Byte,
      exec .save t = .next { t with dout := t.dout ++ bytes, last := 0 } ∧
      (∀ (g s : Option (Bank t.config)) (last : BitVec 4) (flt : BitVec 8) (dout cmd : List Byte),
        exec (.restore bytes) ⟨t.cfg, g, s, last, flt, dout, cmd⟩ =
          .next ⟨t.cfg, some { b with bc := 1, hc := BitVec.allOnes _ }, s, 0, flt, dout, cmd⟩) ∧
      (∀ n : Nat,
        (draws n { b with bc := 1, hc := BitVec.allOnes _ }).1 = (draws n b).1) ∧
      (b.bc = 1 → (t.config.wordBits = 64 → b.hc.getLsbD 63 = true) →
        { b with bc := 1, hc := BitVec.allOnes _ } = b)

/-- spec/45_codec_seed.md R213: SAVE, RESTORE of those bytes, and SAVE again give the same bytes,
whatever the caches held. -/
def Obligations.SaveRestoreSaveGivesTheSameBytes : Prop :=
  ∀ (t : State) (b : Bank t.config), t.g = some b → b.Wf →
    ∃ (bytes : List Byte) (b' : Bank t.config),
      exec .save t = .next { t with dout := t.dout ++ bytes, last := 0 } ∧
      runCommands t [.save, .restore bytes, .save] =
        .next { t with g := some b', dout := t.dout ++ bytes ++ bytes, last := 0 }

/-- spec/45_codec_seed.md R220, R221, R222: SEED of n whole words, on any engine, makes word i of the
expanded seed the i-th given word or, past them, FIN of the first given word (or 0) plus
(i - n + 1) GAMMA; LA (bit 0 set), LS and X take them in this order, the high half first; CUR is 0,
the caches are empty, and nothing else changes but LAST. -/
def Obligations.SeedExpandsAndAssigns : Prop :=
  ∀ (t : State) (payload : List Byte), payload.length % wordBytes t.config = 0 →
    let c := t.config
    let lw := lcgWordCount c
    let n := payload.length / wordBytes c
    let given := fun i : Nat => wWord c.wordBits payload i
    let word := fun i : Nat =>
      if i < n then given i
      else c.seedFin ((if n = 0 then 0 else given 0) + BitVec.ofNat _ (i - n + 1) * c.seedGamma)
    ∃ b : Bank t.config,
      exec (.seed payload) t = .next { t with g := some b, last := 0 } ∧
        (∀ i : Fin t.config.words.count, b.x[i] = word (2 * lw + i)) ∧
        (∀ h < lw, b.la.toNat / 2 ^ (64 * (lw - 1 - h)) % 2 ^ 64 =
          if h = lw - 1 then (word h).toNat ||| 1 else (word h).toNat) ∧
        (∀ h < lw, b.ls.toNat / 2 ^ (64 * (lw - 1 - h)) % 2 ^ 64 = (word (lw + h)).toNat) ∧
        b.cur = 0 ∧ b.bc = 1 ∧ b.hc = BitVec.allOnes _

/-- spec/45_codec_seed.md R223: the words of a seed from NATIVE on are ignored. -/
def Obligations.OverLengthSeedWordsAreIgnored : Prop :=
  ∀ (t : State) (payload : List Byte), payload.length % wordBytes t.config = 0 →
    nativeWords t.config * wordBytes t.config ≤ payload.length →
      ∃ b : Bank t.config,
        exec (.seed payload) t = .next { t with g := some b, last := 0 } ∧
        exec (.seed (payload.take (nativeWords t.config * wordBytes t.config))) t =
          .next { t with g := some b, last := 0 }

/-- spec/45_codec_seed.md R225: XCHG exchanges the banks whole, valid or not; the VALID bits of STAT
swap with them, and nothing else changes but LAST. -/
def Obligations.XchgSwapsTheBanks : Prop :=
  ∀ t : State,
    exec .xchg t = .next { t with g := t.s, s := t.g, last := 0 } ∧
      runCommands t [.xchg, .xchg] = .next { t with last := 0 }

/-- spec/30_encoding.md R82: XCHG, SAVE, XCHG appends the serialized form of the shadow bank and
leaves both banks as they were; with S not valid its SAVE faults with NSD and the banks are swapped
back. -/
def Obligations.CopyOutSavesTheShadowBank : Prop :=
  ∀ t : State,
    (∀ b : Bank t.config, t.s = some b →
      ∃ bytes : List Byte,
        exec .save { t with g := some b } =
          .next { t with g := some b, dout := t.dout ++ bytes, last := 0 } ∧
        runCommands t [.xchg, .save, .xchg] =
          .next { t with dout := t.dout ++ bytes, last := 0 }) ∧
    (t.s = none →
      runCommands t [.xchg, .save, .xchg] = .next { t with last := 0, flt := t.flt ||| 4 })

/-! ### Running a program -/

/-- spec/70_reset_and_hazards.md R279, spec/30_encoding.md R73: a program runs from a given state
until its last packet has been executed, one step for each packet, illegal and faulting ones
included, and ends with nothing left of the stream; a byte string that is no program is not run. For
well-formed commands the end, and so the result (DOUT, STAT, FLT and the final banks), is that of
executing them in order. -/
def Obligations.ProgramsRunToTheirLastPacket : Prop :=
  ∀ (t : State) (stream : List Byte),
    (isProgram stream = false → runProgram t stream = none) ∧
    (isProgram stream = true →
      ∃ u : State, runProgram t stream = some (.next u) ∧ u.cmd = [] ∧ u.cfg = t.cfg ∧
        runSteps (splitPackets stream).1.length { t with cmd := stream } = .next u) ∧
    ∀ is : List Instr, (∀ i ∈ is, i.wellFormed (wordBytes t.config) = true) →
      stream = is.flatMap encode →
        ∃ u : State, runCommands { t with cmd := [] } is = .next u ∧
          runProgram t stream = some (.next u) ∧
          programResult u =
            ⟨u.dout, u.last ++ 0#2 ++ BitVec.ofBool u.s.isSome ++ BitVec.ofBool u.g.isSome, u.flt,
              u.g, u.s⟩
end

