-- ==== Sys2Proof/Laws/Bytes.lean ====
section
/-! SUPPORT. What the byte-order helpers do: lengths, and that `le_n` and `bytes_n` undo each other
(spec/00_scope.md R18). -/

namespace Sys2Proof.Machine

@[simp] theorem natBytes_length (n v : Nat) : (natBytes n v).length = n := by
  induction n generalizing v with
  | zero => rfl
  | succ n ih => simp [natBytes, ih]

@[simp] theorem leBytes_length (n : Nat) {w : Nat} (v : BitVec w) : (leBytes n v).length = n :=
  natBytes_length n v.toNat

theorem leNat_natBytes (n v : Nat) : leNat (natBytes n v) = v % 256 ^ n := by
  induction n generalizing v with
  | zero => simp [natBytes, leNat, Nat.mod_one]
  | succ n ih =>
    simp only [natBytes, leNat, ih, BitVec.toNat_ofNat]
    have h : v % 256 ^ (n + 1) = v % 256 + 256 * (v / 256 % 256 ^ n) := by
      rw [Nat.pow_succ, Nat.mul_comm, Nat.mod_mul]
    omega

theorem leNat_lt (bs : List Byte) : leNat bs < 256 ^ bs.length := by
  induction bs with
  | nil => simp [leNat]
  | cons b bs ih =>
    have hb := b.isLt
    simp only [leNat, List.length_cons, Nat.pow_succ']
    omega

theorem natBytes_leNat (bs : List Byte) : natBytes bs.length (leNat bs) = bs := by
  induction bs with
  | nil => rfl
  | cons b bs ih =>
    have hb := b.isLt
    have h1 : (b.toNat + 256 * leNat bs) / 256 = leNat bs := by omega
    have h2 : BitVec.ofNat 8 (b.toNat + 256 * leNat bs) = b := by
      apply BitVec.eq_of_toNat_eq
      simp only [BitVec.toNat_ofNat]
      omega
    simp only [List.length_cons, natBytes, leNat, h1, h2, ih]

theorem leNat_leBytes (n : Nat) {w : Nat} (v : BitVec w) (h : w ≤ 8 * n) :
    leNat (leBytes n v) = v.toNat := by
  have hv : v.toNat < 256 ^ n := by
    calc v.toNat < 2 ^ w := v.isLt
      _ ≤ 2 ^ (8 * n) := Nat.pow_le_pow_right (by omega) h
      _ = 256 ^ n := by rw [Nat.pow_mul]
  rw [leBytes, leNat_natBytes, Nat.mod_eq_of_lt hv]

theorem leWord_leBytes (n : Nat) {w : Nat} (v : BitVec w) (h : w ≤ 8 * n) :
    leWord w (leBytes n v) = v := by
  rw [leWord, leNat_leBytes n v h]
  simp

theorem leBytes_leWord (bs : List Byte) {w : Nat} (h : 8 * bs.length ≤ w) :
    leBytes bs.length (leWord w bs) = bs := by
  have hlt : leNat bs < 2 ^ w := by
    calc leNat bs < 256 ^ bs.length := leNat_lt bs
      _ = 2 ^ (8 * bs.length) := by rw [Nat.pow_mul]
      _ ≤ 2 ^ w := Nat.pow_le_pow_right (by omega) h
  rw [leBytes, leWord, BitVec.toNat_ofNat, Nat.mod_eq_of_lt hlt, natBytes_leNat]

theorem leNat_append (a b : List Byte) : leNat (a ++ b) = leNat a + 256 ^ a.length * leNat b := by
  induction a with
  | nil => simp [leNat]
  | cons x xs ih =>
    simp only [List.cons_append, leNat, ih, List.length_cons, Nat.pow_succ']
    ring

/-- Slicing the i-th block of a concatenation of equal blocks. -/
theorem slice_flatMap_block {α : Type} (f : α → List Byte) (n : Nat) (hf : ∀ a, (f a).length = n)
    (xs : List α) (i : Nat) (hi : i < xs.length) (tail : List Byte) :
    slice (xs.flatMap f ++ tail) (n * i) (n * i + n) = f xs[i] := by
  induction xs generalizing i with
  | nil => simp at hi
  | cons x xs ih =>
    cases i with
    | zero =>
      simp only [slice, Nat.mul_zero, Nat.zero_add, List.drop_zero, Nat.sub_zero,
        List.flatMap_cons, List.append_assoc, List.getElem_cons_zero]
      rw [← hf x, List.take_left']
      rfl
    | succ i =>
      have h := ih i (by simpa using hi)
      simp only [slice, List.flatMap_cons, List.append_assoc, List.getElem_cons_succ] at h ⊢
      rw [← h]
      have e : n * (i + 1) = (f x).length + n * i := by rw [hf x]; ring
      simp [e, List.drop_append, List.drop_eq_nil_of_le (Nat.le_add_right _ _)]

theorem flatMap_block_length {α : Type} (f : α → List Byte) (n : Nat)
    (hf : ∀ a, (f a).length = n) (xs : List α) : (xs.flatMap f).length = n * xs.length := by
  induction xs with
  | nil => simp
  | cons x xs ih => simp [hf, ih]; ring

end Sys2Proof.Machine
end

