-- ==== Sys2Proof/Laws/Operands.lean ====
section
/-! SUPPORT. What the operand forms read from a payload made of words (spec/30_encoding.md R74). -/

namespace Sys2Proof.Machine

/-- The i-th 64-bit word of a list of words sent one after the other. -/
theorem w64_flatMap (ws : List Word64) (tail : List Byte) (i : Nat) (hi : i < ws.length) :
    w64 (ws.flatMap (leBytes 8) ++ tail) i = ws[i] := by
  rw [w64, slice_flatMap_block (leBytes 8) 8 (fun a => leBytes_length 8 a) ws i hi tail]
  exact leWord_leBytes 8 _ (by omega)

theorem w64s_length (payload : List Byte) (n : Nat) : (w64s payload n).length = n := by
  simp [w64s]

/-- Reading back all the 64-bit words of a payload made of them. -/
theorem w64s_flatMap (ws : List Word64) (tail : List Byte) :
    w64s (ws.flatMap (leBytes 8) ++ tail) ws.length = ws := by
  apply List.ext_getElem
  · simp [w64s]
  · intro i h1 h2
    simp only [w64s, List.getElem_map, List.getElem_range]
    exact w64_flatMap ws tail i h2

/-- The i-th `w`-bit word of a list of words sent one after the other. -/
theorem wWord_flatMap {w : Nat} (hw : 8 * (w / 8) = w) (ws : List (BitVec w)) (tail : List Byte)
    (i : Nat) (hi : i < ws.length) :
    wWord w (ws.flatMap (leBytes (w / 8)) ++ tail) i = ws[i] := by
  rw [wWord, slice_flatMap_block (leBytes (w / 8)) (w / 8) (fun a => leBytes_length _ a) ws i hi
    tail]
  exact leWord_leBytes (w / 8) _ (by omega)

theorem wWords_length (w : Nat) (payload : List Byte) :
    (wWords w payload).length = payload.length / (w / 8) := by
  simp [wWords]

/-- Native words are whole bytes. -/
theorem wordBits_bytes (k : Kind) : 8 * (k.wordBits / 8) = k.wordBits := by
  cases k <;> rfl

end Sys2Proof.Machine
end

