-- ==== Sys2Proof/Laws/Ring.lean ====
section
/-! SUPPORT. The logical view of a ring (spec/41_xbg_jump.md R122): the two index maps undo each
other, so reading a realigned vector back gives the vector. -/

namespace Sys2Proof.Machine

theorem cursor_lt (c : Cfg) (cur : BitVec (cursorBits c.ring c.words)) :
    cur.toNat < c.words.count := by
  have h := cur.isLt
  have : 2 ^ cursorBits c.ring c.words ≤ c.words.count := by
    unfold cursorBits WordCount.count
    split
    · exact Nat.le_refl _
    · exact Nat.pow_le_pow_right (by omega) (Nat.zero_le _)
  omega

theorem logicalIndex_physicalIndex (c : Cfg) (cur : BitVec (cursorBits c.ring c.words))
    (i : Fin c.words.count) : logicalIndex c cur (physicalIndex c cur i) = i := by
  have h := cursor_lt c cur
  have hi := i.isLt
  apply Fin.ext
  simp only [logicalIndex, physicalIndex]
  rcases Nat.lt_or_ge (i.val + cur.toNat) c.words.count with h1 | h1
  · rw [Nat.mod_eq_of_lt h1]
    have e : i.val + cur.toNat + (c.words.count - cur.toNat) = i.val + c.words.count := by omega
    rw [e, Nat.add_mod_right, Nat.mod_eq_of_lt hi]
  · have e1 : (i.val + cur.toNat) % c.words.count = i.val + cur.toNat - c.words.count := by
      rw [Nat.mod_eq_sub_mod h1, Nat.mod_eq_of_lt (by omega)]
    rw [e1]
    have e : i.val + cur.toNat - c.words.count + (c.words.count - cur.toNat) = i.val := by omega
    rw [e, Nat.mod_eq_of_lt hi]

theorem physicalIndex_logicalIndex (c : Cfg) (cur : BitVec (cursorBits c.ring c.words))
    (j : Fin c.words.count) : physicalIndex c cur (logicalIndex c cur j) = j := by
  have h := cursor_lt c cur
  have hj := j.isLt
  apply Fin.ext
  simp only [logicalIndex, physicalIndex]
  rcases Nat.lt_or_ge (j.val + (c.words.count - cur.toNat)) c.words.count with h1 | h1
  · rw [Nat.mod_eq_of_lt h1]
    have e : j.val + (c.words.count - cur.toNat) + cur.toNat = j.val + c.words.count := by omega
    rw [e, Nat.add_mod_right, Nat.mod_eq_of_lt hj]
  · have e1 : (j.val + (c.words.count - cur.toNat)) % c.words.count =
        j.val + (c.words.count - cur.toNat) - c.words.count := by
      rw [Nat.mod_eq_sub_mod h1, Nat.mod_eq_of_lt (by omega)]
    rw [e1]
    have e : j.val + (c.words.count - cur.toNat) - c.words.count + cur.toNat = j.val := by omega
    rw [e, Nat.mod_eq_of_lt hj]

@[simp] theorem logicalWords_get (c : Cfg) (x : XVec c.kind c.words)
    (cur : BitVec (cursorBits c.ring c.words)) (i : Nat) (hi : i < c.words.count) :
    (logicalWords c x cur)[i] = x[physicalIndex c cur i] := by
  simp [logicalWords]

@[simp] theorem realign_get (c : Cfg) (acc : XVec c.kind c.words)
    (cur : BitVec (cursorBits c.ring c.words)) (j : Nat) (hj : j < c.words.count) :
    (realign c acc cur)[j] = acc[logicalIndex c cur j] := by
  simp [realign]

/-- "realigned to the generator's current cursor": the logical vector of the written bank is the
accumulator (spec/41_xbg_jump.md R124). -/
@[simp] theorem logicalWords_realign (c : Cfg) (acc : XVec c.kind c.words)
    (cur : BitVec (cursorBits c.ring c.words)) :
    logicalWords c (realign c acc cur) cur = acc := by
  apply Vector.ext
  intro i hi
  have h := logicalIndex_physicalIndex c cur ⟨i, hi⟩
  rw [logicalWords_get, Fin.getElem_fin, realign_get]
  simp only [Fin.getElem_fin, h]

/-- A bank's words are determined by its logical vector and its cursor. -/
@[simp] theorem realign_logicalWords (c : Cfg) (x : XVec c.kind c.words)
    (cur : BitVec (cursorBits c.ring c.words)) :
    realign c (logicalWords c x cur) cur = x := by
  apply Vector.ext
  intro j hj
  have h := physicalIndex_logicalIndex c cur ⟨j, hj⟩
  rw [realign_get, Fin.getElem_fin, logicalWords_get]
  simp only [Fin.getElem_fin, h]

end Sys2Proof.Machine
end

