-- ==== Sys2Proof/Laws/State.lean ====
section
/-! SUPPORT. One lemma per field per update of State and of Bank, each true by definition, so that no
proof unfolds a record update. -/

namespace Sys2Proof.Machine

/-! ### State -/
@[simp] theorem State.ok_cfg (t : State) : (t.ok).cfg = t.cfg := rfl
@[simp] theorem State.ok_g (t : State) : (t.ok).g = t.g := rfl
@[simp] theorem State.ok_s (t : State) : (t.ok).s = t.s := rfl
@[simp] theorem State.ok_last (t : State) : (t.ok).last = 0 := rfl
@[simp] theorem State.ok_flt (t : State) : (t.ok).flt = t.flt := rfl
@[simp] theorem State.ok_dout (t : State) : (t.ok).dout = t.dout := rfl
@[simp] theorem State.ok_cmd (t : State) : (t.ok).cmd = t.cmd := rfl
@[simp] theorem State.raise_cfg (t : State) (f : FaultCode) : (t.raise f).cfg = t.cfg := rfl
@[simp] theorem State.raise_g (t : State) (f : FaultCode) : (t.raise f).g = t.g := rfl
@[simp] theorem State.raise_s (t : State) (f : FaultCode) : (t.raise f).s = t.s := rfl
@[simp] theorem State.raise_last (t : State) (f : FaultCode) : (t.raise f).last = f.lastValue := rfl
@[simp] theorem State.raise_flt (t : State) (f : FaultCode) : (t.raise f).flt = setFaultBit t.flt f := rfl
@[simp] theorem State.raise_dout (t : State) (f : FaultCode) : (t.raise f).dout = t.dout := rfl
@[simp] theorem State.raise_cmd (t : State) (f : FaultCode) : (t.raise f).cmd = t.cmd := rfl
@[simp] theorem State.emit_cfg (t : State) (bytes : List Byte) : (t.emit bytes).cfg = t.cfg := rfl
@[simp] theorem State.emit_g (t : State) (bytes : List Byte) : (t.emit bytes).g = t.g := rfl
@[simp] theorem State.emit_s (t : State) (bytes : List Byte) : (t.emit bytes).s = t.s := rfl
@[simp] theorem State.emit_last (t : State) (bytes : List Byte) : (t.emit bytes).last = t.last := rfl
@[simp] theorem State.emit_flt (t : State) (bytes : List Byte) : (t.emit bytes).flt = t.flt := rfl
@[simp] theorem State.emit_dout (t : State) (bytes : List Byte) : (t.emit bytes).dout = t.dout ++ bytes := rfl
@[simp] theorem State.emit_cmd (t : State) (bytes : List Byte) : (t.emit bytes).cmd = t.cmd := rfl
@[simp] theorem State.setG_cfg (t : State) (b : Bank t.config) : (t.setG b).cfg = t.cfg := rfl
@[simp] theorem State.setG_g (t : State) (b : Bank t.config) : (t.setG b).g = some b := rfl
@[simp] theorem State.setG_s (t : State) (b : Bank t.config) : (t.setG b).s = t.s := rfl
@[simp] theorem State.setG_last (t : State) (b : Bank t.config) : (t.setG b).last = t.last := rfl
@[simp] theorem State.setG_flt (t : State) (b : Bank t.config) : (t.setG b).flt = t.flt := rfl
@[simp] theorem State.setG_dout (t : State) (b : Bank t.config) : (t.setG b).dout = t.dout := rfl
@[simp] theorem State.setG_cmd (t : State) (b : Bank t.config) : (t.setG b).cmd = t.cmd := rfl
@[simp] theorem State.setS_cfg (t : State) (b : Bank t.config) : (t.setS b).cfg = t.cfg := rfl
@[simp] theorem State.setS_g (t : State) (b : Bank t.config) : (t.setS b).g = t.g := rfl
@[simp] theorem State.setS_s (t : State) (b : Bank t.config) : (t.setS b).s = some b := rfl
@[simp] theorem State.setS_last (t : State) (b : Bank t.config) : (t.setS b).last = t.last := rfl
@[simp] theorem State.setS_flt (t : State) (b : Bank t.config) : (t.setS b).flt = t.flt := rfl
@[simp] theorem State.setS_dout (t : State) (b : Bank t.config) : (t.setS b).dout = t.dout := rfl
@[simp] theorem State.setS_cmd (t : State) (b : Bank t.config) : (t.setS b).cmd = t.cmd := rfl
@[simp] theorem State.consume_cfg (t : State) (rest : List Byte) : (t.consume rest).cfg = t.cfg := rfl
@[simp] theorem State.consume_g (t : State) (rest : List Byte) : (t.consume rest).g = t.g := rfl
@[simp] theorem State.consume_s (t : State) (rest : List Byte) : (t.consume rest).s = t.s := rfl
@[simp] theorem State.consume_last (t : State) (rest : List Byte) : (t.consume rest).last = t.last := rfl
@[simp] theorem State.consume_flt (t : State) (rest : List Byte) : (t.consume rest).flt = t.flt := rfl
@[simp] theorem State.consume_dout (t : State) (rest : List Byte) : (t.consume rest).dout = t.dout := rfl
@[simp] theorem State.consume_cmd (t : State) (rest : List Byte) : (t.consume rest).cmd = rest := rfl
@[simp] theorem State.withFetchWord_cfg (t : State) (nbits w : Nat) : (t.withFetchWord nbits w).cfg = t.cfg := rfl
@[simp] theorem State.withFetchWord_g (t : State) (nbits w : Nat) : (t.withFetchWord nbits w).g = t.g := rfl
@[simp] theorem State.withFetchWord_s (t : State) (nbits w : Nat) : (t.withFetchWord nbits w).s = t.s := rfl
@[simp] theorem State.withFetchWord_last (t : State) (nbits w : Nat) : (t.withFetchWord nbits w).last = t.last := rfl
@[simp] theorem State.withFetchWord_flt (t : State) (nbits w : Nat) : (t.withFetchWord nbits w).flt = t.flt := rfl
@[simp] theorem State.withFetchWord_dout (t : State) (nbits w : Nat) : (t.withFetchWord nbits w).dout = t.dout := rfl
@[simp] theorem State.withFetchWord_cmd (t : State) (nbits w : Nat) : (t.withFetchWord nbits w).cmd = tableWordPacket nbits w ++ t.cmd := rfl
@[simp] theorem hostSend_cfg (t : State) (bytes : List Byte) : (hostSend t bytes).cfg = t.cfg := rfl
@[simp] theorem hostSend_g (t : State) (bytes : List Byte) : (hostSend t bytes).g = t.g := rfl
@[simp] theorem hostSend_s (t : State) (bytes : List Byte) : (hostSend t bytes).s = t.s := rfl
@[simp] theorem hostSend_last (t : State) (bytes : List Byte) : (hostSend t bytes).last = t.last := rfl
@[simp] theorem hostSend_flt (t : State) (bytes : List Byte) : (hostSend t bytes).flt = t.flt := rfl
@[simp] theorem hostSend_dout (t : State) (bytes : List Byte) : (hostSend t bytes).dout = t.dout := rfl
@[simp] theorem hostSend_cmd (t : State) (bytes : List Byte) : (hostSend t bytes).cmd = t.cmd ++ bytes := rfl
@[simp] theorem hostTake_cfg (t : State) (n : Nat) : (hostTake t n).2.cfg = t.cfg := rfl
@[simp] theorem hostTake_g (t : State) (n : Nat) : (hostTake t n).2.g = t.g := rfl
@[simp] theorem hostTake_s (t : State) (n : Nat) : (hostTake t n).2.s = t.s := rfl
@[simp] theorem hostTake_last (t : State) (n : Nat) : (hostTake t n).2.last = t.last := rfl
@[simp] theorem hostTake_flt (t : State) (n : Nat) : (hostTake t n).2.flt = t.flt := rfl
@[simp] theorem hostTake_dout (t : State) (n : Nat) : (hostTake t n).2.dout = t.dout.drop n := rfl
@[simp] theorem hostTake_cmd (t : State) (n : Nat) : (hostTake t n).2.cmd = t.cmd := rfl
@[simp] theorem hostTake_bytes (t : State) (n : Nat) : (hostTake t n).1 = t.dout.take n := rfl
@[simp] theorem programResult_dout (t : State) : (programResult t).dout = t.dout := rfl
@[simp] theorem programResult_stat (t : State) : (programResult t).stat = t.stat := rfl
@[simp] theorem programResult_flt (t : State) : (programResult t).flt = t.flt := rfl
@[simp] theorem programResult_g (t : State) : (programResult t).g = t.g := rfl
@[simp] theorem programResult_s (t : State) : (programResult t).s = t.s := rfl
@[simp] theorem State.resetOf_cfg (id : CfgId) : (State.resetOf id).cfg = id := rfl
@[simp] theorem State.resetOf_g (id : CfgId) : (State.resetOf id).g = none := rfl
@[simp] theorem State.resetOf_s (id : CfgId) : (State.resetOf id).s = none := rfl
@[simp] theorem State.resetOf_last (id : CfgId) : (State.resetOf id).last = 0 := rfl
@[simp] theorem State.resetOf_flt (id : CfgId) : (State.resetOf id).flt = 0 := rfl
@[simp] theorem State.resetOf_dout (id : CfgId) : (State.resetOf id).dout = [] := rfl
@[simp] theorem State.resetOf_cmd (id : CfgId) : (State.resetOf id).cmd = [] := rfl

/-! ### Bank -/

@[simp] theorem setCachesEmpty_x {c : Cfg} (b : Bank c) :
    (setCachesEmpty b).x = b.x := rfl
@[simp] theorem setCachesEmpty_cur {c : Cfg} (b : Bank c) :
    (setCachesEmpty b).cur = b.cur := rfl
@[simp] theorem setCachesEmpty_la {c : Cfg} (b : Bank c) :
    (setCachesEmpty b).la = b.la := rfl
@[simp] theorem setCachesEmpty_ls {c : Cfg} (b : Bank c) :
    (setCachesEmpty b).ls = b.ls := rfl
@[simp] theorem setCachesEmpty_bc {c : Cfg} (b : Bank c) :
    (setCachesEmpty b).bc = 1 := rfl
@[simp] theorem setCachesEmpty_hc {c : Cfg} (b : Bank c) :
    (setCachesEmpty b).hc = BitVec.allOnes _ := rfl
@[simp] theorem xbgStep_x {c : Cfg} (b : Bank c) :
    (xbgStep b).x = (c.update b.x b.cur).1 := rfl
@[simp] theorem xbgStep_cur {c : Cfg} (b : Bank c) :
    (xbgStep b).cur = (c.update b.x b.cur).2 := rfl
@[simp] theorem xbgStep_la {c : Cfg} (b : Bank c) :
    (xbgStep b).la = b.la := rfl
@[simp] theorem xbgStep_ls {c : Cfg} (b : Bank c) :
    (xbgStep b).ls = b.ls := rfl
@[simp] theorem xbgStep_bc {c : Cfg} (b : Bank c) :
    (xbgStep b).bc = b.bc := rfl
@[simp] theorem xbgStep_hc {c : Cfg} (b : Bank c) :
    (xbgStep b).hc = b.hc := rfl
@[simp] theorem lcgStep_x {c : Cfg} (b : Bank c) :
    (lcgStep b).x = b.x := rfl
@[simp] theorem lcgStep_cur {c : Cfg} (b : Bank c) :
    (lcgStep b).cur = b.cur := rfl
@[simp] theorem lcgStep_la {c : Cfg} (b : Bank c) :
    (lcgStep b).la = b.la := rfl
@[simp] theorem lcgStep_ls {c : Cfg} (b : Bank c) :
    (lcgStep b).ls = lcgNext c.kind c.mLow b.ls b.la := rfl
@[simp] theorem lcgStep_bc {c : Cfg} (b : Bank c) :
    (lcgStep b).bc = b.bc := rfl
@[simp] theorem lcgStep_hc {c : Cfg} (b : Bank c) :
    (lcgStep b).hc = b.hc := rfl
@[simp] theorem lcgJump_x {c : Cfg} (k : Nat) (b : Bank c) :
    (lcgJump k b).x = b.x := rfl
@[simp] theorem lcgJump_cur {c : Cfg} (k : Nat) (b : Bank c) :
    (lcgJump k b).cur = b.cur := rfl
@[simp] theorem lcgJump_la {c : Cfg} (k : Nat) (b : Bank c) :
    (lcgJump k b).la = b.la := rfl
@[simp] theorem lcgJump_ls {c : Cfg} (k : Nat) (b : Bank c) :
    (lcgJump k b).ls = lcgJumped c.kind (brown (multiplier c.kind c.mLow) k).1
      (brown (multiplier c.kind c.mLow) k).2 b.ls b.la := rfl
@[simp] theorem lcgJump_bc {c : Cfg} (k : Nat) (b : Bank c) :
    (lcgJump k b).bc = b.bc := rfl
@[simp] theorem lcgJump_hc {c : Cfg} (k : Nat) (b : Bank c) :
    (lcgJump k b).hc = b.hc := rfl

@[simp] theorem deserialize_bc (c : Cfg) (payload : List Byte) : (deserialize c payload).bc = 1 := rfl
@[simp] theorem deserialize_hc (c : Cfg) (payload : List Byte) :
    (deserialize c payload).hc = BitVec.allOnes _ := rfl
@[simp] theorem assignSeed_cur (c : Cfg) (s : List (BitVec c.wordBits)) :
    (assignSeed c s).cur = 0 := rfl
@[simp] theorem assignSeed_bc (c : Cfg) (s : List (BitVec c.wordBits)) :
    (assignSeed c s).bc = 1 := rfl
@[simp] theorem assignSeed_hc (c : Cfg) (s : List (BitVec c.wordBits)) :
    (assignSeed c s).hc = BitVec.allOnes _ := rfl

end Sys2Proof.Machine
end

