-- ==== Sys2Proof/Laws/Ops.lean ====
section
/-! SUPPORT. What each shared operation can do, said once: the guard on bank G, fetching, the draw
and the jump. -/

namespace Sys2Proof.Machine

/-! ### Ending a command -/

theorem State.withG_none {t : State} (h : t.g = none) (k : Bank t.config → State) :
    t.withG k = t.raise .nsd := by
  unfold State.withG
  split
  · rfl
  · simp_all

theorem State.withG_some {t : State} {b : Bank t.config} (h : t.g = some b)
    (k : Bank t.config → State) : t.withG k = k b := by
  unfold State.withG
  split
  · simp_all
  · simp_all

/-- Everything the guard can do: fault NSD on a bank that is not valid, or go on with its fields. -/
theorem State.withG_cases (t : State) (k : Bank t.config → State) :
    (t.g = none ∧ t.withG k = t.raise .nsd) ∨ (∃ b, t.g = some b ∧ t.withG k = k b) := by
  cases h : t.g with
  | none => exact .inl ⟨rfl, State.withG_none h k⟩
  | some b => exact .inr ⟨b, rfl, State.withG_some h k⟩

@[simp] theorem FaultCode.lastValue_toNat (f : FaultCode) : f.lastValue.toNat = f.number := by
  cases f <;> rfl

/-! ### Fetching -/

/-- A framed packet is what `fetch` decodes. -/
theorem fetch_of_packet {t : State} {p : Packet} {rest : List Byte}
    (h : nextPacket t.cmd = some (p, rest)) :
    fetch t = some (decodePacket (wordBytes t.config) p, rest) := by
  simp [fetch, h]

theorem fetch_none {t : State} (h : nextPacket t.cmd = none) : fetch t = none := by
  simp [fetch, h]

/-- Everything a step can do: wait, raise ILL, or execute the decoded command. -/
theorem step_cases (t : State) :
    (nextPacket t.cmd = none ∧ step t = .next t) ∨
    (∃ p rest e, nextPacket t.cmd = some (p, rest) ∧
      decodePacket (wordBytes t.config) p = .error e ∧
      step t = .next ((t.consume rest).raise .ill)) ∨
    (∃ p rest i, nextPacket t.cmd = some (p, rest) ∧
      decodePacket (wordBytes t.config) p = .ok i ∧ step t = exec i (t.consume rest)) := by
  cases h : nextPacket t.cmd with
  | none => exact .inl ⟨rfl, by simp [step, fetch_none h]⟩
  | some q =>
    obtain ⟨p, rest⟩ := q
    cases hd : decodePacket (wordBytes t.config) p with
    | error e => exact .inr (.inl ⟨p, rest, e, rfl, hd, by simp [step, fetch_of_packet h, hd]⟩)
    | ok i => exact .inr (.inr ⟨p, rest, i, rfl, hd, by simp [step, fetch_of_packet h, hd]⟩)

/-! ### Runs -/

/-- A run ends where no complete packet is left, whatever the fuel. -/
theorem runPackets_done {t : State} (h : nextPacket t.cmd = none) (fuel : Nat) :
    runPackets fuel t = .next t := by
  cases fuel <;> simp [runPackets, h]

/-- A run takes the packet at the head of the stream in one step. -/
theorem runPackets_step {t u : State} {p : Packet} {rest : List Byte} (fuel : Nat)
    (h : nextPacket t.cmd = some (p, rest)) (hs : step t = .next u) :
    runPackets (fuel + 1) t = runPackets fuel u := by
  simp [runPackets, h, hs]

/-- Everything running a byte string can do: it is no program, or its packets are run. -/
theorem runProgram_cases (t : State) (stream : List Byte) :
    (isProgram stream = false ∧ runProgram t stream = none) ∨
      (isProgram stream = true ∧
        runProgram t stream = some (runPackets stream.length { t with cmd := stream })) := by
  cases h : isProgram stream <;> simp [runProgram, loadProgram, h]

/-! ### The draw -/

/-- A draw touches neither cache nor LA (spec/40_word_source.md R100). -/
theorem afterDraw_frame {c : Cfg} (b : Bank c) :
    (afterDraw b).la = b.la ∧ (afterDraw b).bc = b.bc ∧ (afterDraw b).hc = b.hc := by
  unfold afterDraw
  split <;> simp

@[simp] theorem afterDraw_la {c : Cfg} (b : Bank c) : (afterDraw b).la = b.la :=
  (afterDraw_frame b).1
@[simp] theorem afterDraw_bc {c : Cfg} (b : Bank c) : (afterDraw b).bc = b.bc :=
  (afterDraw_frame b).2.1
@[simp] theorem afterDraw_hc {c : Cfg} (b : Bank c) : (afterDraw b).hc = b.hc :=
  (afterDraw_frame b).2.2
@[simp] theorem draw_word {c : Cfg} (b : Bank c) : (draw b).1 = drawnWord b := rfl
@[simp] theorem draw_bank {c : Cfg} (b : Bank c) : (draw b).2 = afterDraw b := rfl

/-! ### The jump -/

@[simp] theorem xbgSteps_succ {c : Cfg} (n : Nat) (b : Bank c) :
    xbgSteps (n + 1) b = xbgSteps n (xbgStep b) := rfl
@[simp] theorem xbgSteps_zero {c : Cfg} (b : Bank c) : xbgSteps 0 b = b := rfl

/-- The steps of an XBG touch X and CUR only (spec/41_xbg_jump.md R121). -/
theorem xbgSteps_frame {c : Cfg} (n : Nat) (b : Bank c) :
    (xbgSteps n b).la = b.la ∧ (xbgSteps n b).ls = b.ls ∧ (xbgSteps n b).bc = b.bc ∧
      (xbgSteps n b).hc = b.hc := by
  induction n generalizing b with
  | zero => simp
  | succ n ih => simpa using ih (xbgStep b)

/-- The jump loop makes one step for each coefficient bit (spec/41_xbg_jump.md R133). -/
theorem jumpLoop_bank {c : Cfg} (bits : List Bool) (acc : XVec c.kind c.words) (b : Bank c) :
    (jumpLoop bits acc b).2 = xbgSteps bits.length b := by
  induction bits generalizing acc b with
  | nil => rfl
  | cons bit bits ih => simp [jumpLoop, ih]

@[simp] theorem coefficientBits_length (coeffs : List Word64) :
    (coefficientBits coeffs).length = 64 * coeffs.length := by
  induction coeffs with
  | nil => rfl
  | cons w ws ih =>
    simp only [coefficientBits, List.flatMap_cons, List.length_append, List.length_map,
      List.length_range, List.length_cons] at ih ⊢
    omega

/-- What an XBG jump leaves alone. -/
theorem xbgJump_frame {c : Cfg} (coeffs : List Word64) (b : Bank c) :
    (xbgJump coeffs b).la = b.la ∧ (xbgJump coeffs b).ls = b.ls ∧ (xbgJump coeffs b).bc = b.bc ∧
      (xbgJump coeffs b).hc = b.hc := by
  simp only [xbgJump, jumpLoop_bank]
  exact xbgSteps_frame _ b

/-! ### The draws of the four commands -/

/-- NEXTLONG's draws touch neither cache nor LA (spec/40_word_source.md R102). -/
theorem longDraw_frame {c : Cfg} (b : Bank c) :
    (longDraw b).2.la = b.la ∧ (longDraw b).2.bc = b.bc ∧ (longDraw b).2.hc = b.hc := by
  unfold longDraw
  split <;> simp

/-- NEXTINT's draw leaves LA and the boolean cache (R103, R107). -/
theorem intDraw_frame {c : Cfg} (b : Bank c) :
    (intDraw b).2.la = b.la ∧ (intDraw b).2.bc = b.bc := by
  unfold intDraw
  split
  · simp
  · split <;> simp

/-- NEXTBOOL's draw leaves LA and the half-word cache (R104, R107). -/
theorem boolDraw_frame {c : Cfg} (b : Bank c) :
    (boolDraw b).2.la = b.la ∧ (boolDraw b).2.hc = b.hc := by
  unfold boolDraw
  split <;> simp

/-- Whatever its parts, a jump leaves LA alone and the caches empty (spec/41_xbg_jump.md R125). -/
theorem jumped_frame {c : Cfg} (coeffs : Option (List Word64)) (k : Option Nat) (b : Bank c) :
    (jumped coeffs k b).la = b.la ∧ (jumped coeffs k b).bc = 1 ∧
      (jumped coeffs k b).hc = BitVec.allOnes _ := by
  cases coeffs <;> cases k <;> simp [jumped, (xbgJump_frame _ b).1]

/-! ### Lengths of what is emitted -/

/-- The distance array has 8 bytes for each word (spec/44_distance_encoder.md R194). -/
theorem distanceArray_length (n r : Nat) : (distanceArray n r).length = 8 * n := by
  rw [distanceArray, flatMap_block_length _ 8 (fun j => leBytes_length 8 _), List.length_range]

/-- An LCG register has LW words (spec/45_codec_seed.md R210). -/
theorem lcgToWords_length (c : Cfg) (v : BitVec c.kind.lcgBits) :
    (lcgToWords c.kind v).length = lcgWordCount c := by
  revert v
  unfold lcgWordCount Cfg.lcgBits
  cases c.kind <;> intro v <;> simp only [Kind.lcgBits] <;> rfl

/-- A serialized form has STATE_BYTES bytes (spec/45_codec_seed.md R211). -/
theorem serialize_length {c : Cfg} (b : Bank c) : (serialize b).length = stateBytes c := by
  have h1 : (b.x.toList.flatMap (leBytes (wordBytes c))).length = wordBytes c * c.count := by
    rw [flatMap_block_length _ _ (fun a => leBytes_length _ a), Vector.length_toList]
  have h2 := flatMap_block_length (leBytes 8) 8 (fun a => leBytes_length 8 a)
    (lcgToWords c.kind b.la)
  have h3 := flatMap_block_length (leBytes 8) 8 (fun a => leBytes_length 8 a)
    (lcgToWords c.kind b.ls)
  rw [lcgToWords_length] at h2 h3
  have h4 : (if c.ring then leBytes (wordBytes c) (b.cur.setWidth c.wordBits) else []).length =
      cursorWords c * wordBytes c := by
    unfold cursorWords
    split <;> simp
  have h5 : wordBytes c + (if c.wordBits = 64 then leBytes 8 (BitVec.allOnes 64) else []).length =
      cacheWords c * wordBytes c := by
    unfold cacheWords wordBytes
    split <;> simp_all
  simp only [serialize, List.length_append, h1, h2, h3, h4, leBytes_length, stateBytes]
  rw [Nat.add_mul, Nat.mul_comm c.count, ← h5]
  omega

end Sys2Proof.Machine
end

