-- ==== Sys2Proof/Laws/Packet.lean ====
section
/-! SUPPORT. What framing and decoding can do, said once (spec/30_encoding.md R70 to R78). -/

namespace Sys2Proof

open Machine

/-- The header's four bytes: op, rsv, plen low, plen high (spec/30_encoding.md R71). -/
theorem header_bytes (op rsv : Byte) (n : Nat) (h : n ≤ 65535) :
    leBytes 4 (BitVec.ofNat 16 n ++ rsv ++ op) =
      [op, rsv, BitVec.ofNat 8 (n % 256), BitVec.ofNat 8 (n / 256)] := by
  have h1 := op.isLt
  have h2 := rsv.isLt
  have e : (BitVec.ofNat 16 n ++ rsv ++ op).toNat = (n * 256 + rsv.toNat) * 256 + op.toNat := by
    simp only [BitVec.toNat_append, BitVec.toNat_ofNat]
    rw [Nat.mod_eq_of_lt (by omega), Nat.shiftLeft_eq, Nat.shiftLeft_eq, Nat.mul_comm n,
      Nat.mul_comm _ (2 ^ 8), ← Nat.two_pow_add_eq_or_of_lt h2, ← Nat.two_pow_add_eq_or_of_lt h1]
    ring
  simp only [leBytes, e, natBytes, List.cons.injEq, and_true]
  refine ⟨?_, ?_, ?_, ?_⟩ <;> apply BitVec.eq_of_toNat_eq <;>
    simp only [BitVec.toNat_ofNat] <;> omega

/-- Reading the fields back from the header's bytes. -/
theorem header_fields (a b c d : Byte) :
    let h : BitVec 32 := leWord 32 [a, b, c, d]
    h.extractLsb' 0 8 = a ∧ h.extractLsb' 8 8 = b ∧
      (h.extractLsb' 16 16).toNat = c.toNat + 256 * d.toNat := by
  have := a.isLt
  have := b.isLt
  have := c.isLt
  have := d.isLt
  refine ⟨BitVec.eq_of_toNat_eq ?_, BitVec.eq_of_toNat_eq ?_, ?_⟩ <;>
    simp [leWord, leNat, BitVec.extractLsb'_toNat, Nat.shiftRight_eq_div_pow] <;> omega

/-- Everything framing does with a whole header (R72). -/
theorem nextPacket_cons (a b c d : Byte) (body : List Byte) :
    nextPacket (a :: b :: c :: d :: body) =
      if body.length < c.toNat + 256 * d.toNat then none
      else some (⟨a, b, body.take (c.toNat + 256 * d.toNat)⟩,
        body.drop (c.toNat + 256 * d.toNat)) := by
  obtain ⟨h1, h2, h3⟩ := header_fields a b c d
  simp only [nextPacket, List.length_cons, List.take_succ_cons, List.take_zero,
    List.drop_succ_cons, List.drop_zero, h1, h2, h3]
  rw [if_neg (by omega)]

/-- Framing gives back a packet that was put there. -/
theorem nextPacket_bytes (p : Packet) (rest : List Byte) (h : p.payload.length ≤ 65535) :
    nextPacket (p.bytes ++ rest) = some (p, rest) := by
  obtain ⟨op, rsv, payload⟩ := p
  simp only at h
  simp only [Packet.bytes, Packet.header, header_bytes op rsv payload.length h,
    List.cons_append, List.nil_append]
  rw [nextPacket_cons]
  simp only [BitVec.toNat_ofNat, List.length_append]
  have e : payload.length % 256 % 2 ^ 8 + 256 * (payload.length / 256 % 2 ^ 8) =
      payload.length := by omega
  rw [e, if_neg (by omega), List.take_left, List.drop_left]

/-- A framed packet stands at the head of the stream, and plen can say its length. -/
theorem nextPacket_some {stream rest : List Byte} {p : Packet}
    (h : nextPacket stream = some (p, rest)) :
    stream = p.bytes ++ rest ∧ p.payload.length ≤ 65535 := by
  match stream with
  | [] | [_] | [_, _] | [_, _, _] => simp [nextPacket] at h
  | a :: b :: c :: d :: body =>
    rw [nextPacket_cons] at h
    split at h
    · cases h
    · simp only [Option.some.injEq, Prod.mk.injEq] at h
      obtain ⟨rfl, rfl⟩ := h
      have := c.isLt
      have := d.isLt
      have e : (body.take (c.toNat + 256 * d.toNat)).length = c.toNat + 256 * d.toNat := by
        rw [List.length_take]
        omega
      have e1 : BitVec.ofNat 8 ((c.toNat + 256 * d.toNat) % 256) = c := by
        apply BitVec.eq_of_toNat_eq
        simp only [BitVec.toNat_ofNat]
        omega
      have e2 : BitVec.ofNat 8 ((c.toNat + 256 * d.toNat) / 256) = d := by
        apply BitVec.eq_of_toNat_eq
        simp only [BitVec.toNat_ofNat]
        omega
      refine ⟨?_, by simp only [e]; omega⟩
      simp only [Packet.bytes, Packet.header, e, header_bytes a b (c.toNat + 256 * d.toNat)
        (by omega), e1, e2]
      simp

/-- When the stream holds no complete packet (R73). -/
theorem nextPacket_none {stream : List Byte} : nextPacket stream = none ↔
    stream.length < 4 ∨ stream.length < 4 + leNat ((stream.drop 2).take 2) := by
  match stream with
  | [] | [_] | [_, _] | [_, _, _] => simp [nextPacket]
  | a :: b :: c :: d :: body =>
    rw [nextPacket_cons]
    simp [leNat]
    omega

/-- When a packet is a command, and which (R78). -/
theorem decodePacket_ok_iff {wb : Nat} {p : Packet} {i : Instr} :
    decodePacket wb p = .ok i ↔
      p.rsv = 0 ∧ ∃ o, Opcode.ofByte p.op = some o ∧
        o.lengthLegal wb p.payload.length = true ∧ i = o.operands p.payload := by
  by_cases h : p.rsv = 0
  · simp only [decodePacket, h, bne_self_eq_false, Bool.false_eq_true, ↓reduceIte, true_and]
    cases ho : Opcode.ofByte p.op with
    | none => simp
    | some o =>
      simp only [Option.some.injEq, exists_eq_left']
      split
      · simp [*, eq_comm (a := i)]
      · simp [*]
  · have h' : (p.rsv != 0) = true := by simpa using h
    rw [decodePacket, if_pos h']
    exact ⟨fun e => (nomatch e), fun e => absurd e.1 h⟩

/-- The opcode map read forwards and back (R77). -/
theorem ofByte_byte (o : Opcode) : Opcode.ofByte o.byte = some o := by cases o <;> decide

theorem byte_of_ofByte {b : Byte} {o : Opcode} (h : Opcode.ofByte b = some o) : o.byte = b := by
  simpa using List.find?_some h

end Sys2Proof
end

