-- ==== Sys2Proof/Laws/PerInstr.lean ====
section
/-! SUPPORT. Two families of facts about commands as syntax, one lemma for each constructor of Instr:
a well-formed command's payload has a length its opcode admits, and an opcode reads a command's own
payload back as that command. -/

namespace Sys2Proof

open Machine

/-- A well-formed command's payload has a legal length that plen can say (spec/30_encoding.md R70,
R75, R76). -/
def Laws.LegalPayload.Statement (i : Instr) : Prop :=
  ∀ wb : Nat, i.wellFormed wb = true →
    i.opcode.lengthLegal wb i.payload.length = true ∧ i.payload.length ≤ maxPayload

/-- The operands an opcode reads from a command's payload are the command's (R74). -/
def Laws.OperandsBack.Statement (i : Instr) : Prop := i.opcode.operands i.payload = i

namespace Laws

theorem LegalPayload.next : LegalPayload.Statement .next := by
  intro wb _; exact ⟨rfl, by decide⟩
theorem LegalPayload.nextint : LegalPayload.Statement .nextint := by
  intro wb _; exact ⟨rfl, by decide⟩
theorem LegalPayload.nextlong : LegalPayload.Statement .nextlong := by
  intro wb _; exact ⟨rfl, by decide⟩
theorem LegalPayload.nextbool : LegalPayload.Statement .nextbool := by
  intro wb _; exact ⟨rfl, by decide⟩
theorem LegalPayload.jump : LegalPayload.Statement .jump := by
  intro wb _; exact ⟨rfl, by decide⟩
theorem LegalPayload.longjump : LegalPayload.Statement .longjump := by
  intro wb _; exact ⟨rfl, by decide⟩
theorem LegalPayload.denc (d : Word64) : LegalPayload.Statement (.denc d) := by
  intro wb _; exact ⟨rfl, by simp [Instr.payload, maxPayload]⟩
theorem LegalPayload.jumpv (coeffs : List Word64) : LegalPayload.Statement (.jumpv coeffs) := by
  intro wb h
  simp only [Instr.wellFormed, Bool.and_eq_true, Bool.not_eq_true', decide_eq_true_eq,
    List.isEmpty_eq_false_iff] at h
  have hl : 0 < coeffs.length := List.length_pos_of_ne_nil h.1
  have e : (Instr.jumpv coeffs).payload.length = 8 * coeffs.length :=
    flatMap_block_length (leBytes 8) 8 (fun a => leBytes_length 8 a) coeffs
  rw [e]
  refine ⟨?_, h.2⟩
  simp [Instr.opcode, Opcode.lengthLegal, Opcode.fixedLength]
  omega
theorem LegalPayload.save : LegalPayload.Statement .save := by
  intro wb _; exact ⟨rfl, by decide⟩
theorem LegalPayload.restore (payload : List Byte) :
    LegalPayload.Statement (.restore payload) := by
  intro wb h
  simp only [Instr.wellFormed, decide_eq_true_eq] at h
  exact ⟨rfl, h⟩
theorem LegalPayload.seed (payload : List Byte) : LegalPayload.Statement (.seed payload) := by
  intro wb h
  simp only [Instr.wellFormed, Bool.and_eq_true, decide_eq_true_eq] at h
  exact ⟨by simp [Instr.opcode, Instr.payload, Opcode.lengthLegal, Opcode.fixedLength, h.1], h.2⟩
theorem LegalPayload.xchg : LegalPayload.Statement .xchg := by
  intro wb _; exact ⟨rfl, by decide⟩
theorem LegalPayload.umulh (a b : Word64) : LegalPayload.Statement (.umulh a b) := by
  intro wb _; simp [Instr.payload, Instr.opcode, Opcode.lengthLegal, Opcode.fixedLength, maxPayload]
theorem LegalPayload.uaddh (a b : Word64) : LegalPayload.Statement (.uaddh a b) := by
  intro wb _; simp [Instr.payload, Instr.opcode, Opcode.lengthLegal, Opcode.fixedLength, maxPayload]
theorem LegalPayload.mac128 (mh ml xh xl ah al : Word64) :
    LegalPayload.Statement (.mac128 mh ml xh xl ah al) := by
  intro wb _; simp [Instr.payload, Instr.opcode, Opcode.lengthLegal, Opcode.fixedLength, maxPayload]

theorem OperandsBack.next : OperandsBack.Statement .next := rfl
theorem OperandsBack.nextint : OperandsBack.Statement .nextint := rfl
theorem OperandsBack.nextlong : OperandsBack.Statement .nextlong := rfl
theorem OperandsBack.nextbool : OperandsBack.Statement .nextbool := rfl
theorem OperandsBack.jump : OperandsBack.Statement .jump := rfl
theorem OperandsBack.longjump : OperandsBack.Statement .longjump := rfl
theorem OperandsBack.denc (d : Word64) : OperandsBack.Statement (.denc d) := by
  have h := w64_flatMap [d] [] 0 (by simp)
  simp only [List.flatMap_cons, List.flatMap_nil, List.append_nil, List.getElem_cons_zero] at h
  simp [OperandsBack.Statement, Instr.opcode, Instr.payload, Opcode.operands, h]
theorem OperandsBack.jumpv (coeffs : List Word64) : OperandsBack.Statement (.jumpv coeffs) := by
  have e : (coeffs.flatMap (leBytes 8)).length = 8 * coeffs.length :=
    flatMap_block_length (leBytes 8) 8 (fun a => leBytes_length 8 a) coeffs
  have h := w64s_flatMap coeffs []
  rw [List.append_nil] at h
  simp only [OperandsBack.Statement, Instr.opcode, Instr.payload, Opcode.operands, e,
    Nat.mul_div_cancel_left _ (by omega : 0 < 8), h]
theorem OperandsBack.save : OperandsBack.Statement .save := rfl
theorem OperandsBack.restore (payload : List Byte) : OperandsBack.Statement (.restore payload) := rfl
theorem OperandsBack.seed (payload : List Byte) : OperandsBack.Statement (.seed payload) := rfl
theorem OperandsBack.xchg : OperandsBack.Statement .xchg := rfl
theorem OperandsBack.umulh (a b : Word64) : OperandsBack.Statement (.umulh a b) := by
  have h0 := w64_flatMap [a, b] [] 0 (by simp)
  have h1 := w64_flatMap [a, b] [] 1 (by simp)
  simp only [List.flatMap_cons, List.flatMap_nil, List.append_nil, List.getElem_cons_zero,
    List.getElem_cons_succ] at h0 h1
  simp [OperandsBack.Statement, Instr.opcode, Instr.payload, Opcode.operands, h0, h1]
theorem OperandsBack.uaddh (a b : Word64) : OperandsBack.Statement (.uaddh a b) := by
  have h0 := w64_flatMap [a, b] [] 0 (by simp)
  have h1 := w64_flatMap [a, b] [] 1 (by simp)
  simp only [List.flatMap_cons, List.flatMap_nil, List.append_nil, List.getElem_cons_zero,
    List.getElem_cons_succ] at h0 h1
  simp [OperandsBack.Statement, Instr.opcode, Instr.payload, Opcode.operands, h0, h1]
theorem OperandsBack.mac128 (mh ml xh xl ah al : Word64) :
    OperandsBack.Statement (.mac128 mh ml xh xl ah al) := by
  have h (i : Nat) (hi : i < 6) := w64_flatMap [mh, ml, xh, xl, ah, al] [] i hi
  have h0 := h 0 (by omega)
  have h1 := h 1 (by omega)
  have h2 := h 2 (by omega)
  have h3 := h 3 (by omega)
  have h4 := h 4 (by omega)
  have h5 := h 5 (by omega)
  simp only [List.flatMap_cons, List.flatMap_nil, List.append_nil, List.getElem_cons_zero,
    List.getElem_cons_succ] at h0 h1 h2 h3 h4 h5
  simp [OperandsBack.Statement, Instr.opcode, Instr.payload, Opcode.operands, List.append_assoc,
    h0, h1, h2, h3, h4, h5]

end Laws

end Sys2Proof
end

