-- ==== Sys2Proof/Tests/Slice0.lean ====
section
/-! SUPPORT. Tests of single steps, with expected values from the spec's worked examples and vectors
(spec/95_test_vectors.md and spec/96_test_vectors_programs.md, named V-…), and for each statement
with hypotheses a witness that meets them. -/

namespace Sys2Proof.Tests

open Sys2Proof Sys2Proof.Machine

/-! ### Helpers -/

/-- The next state; the reset state where there is none. -/
def after : Host.Outcome State Fault Refusal → State
  | .next u => u
  | .fault _ => State.reset
  | .refused _ => State.reset

/-- A state with the given bank G and everything else as after reset. -/
def seeded (id : CfgId) (b : Bank (cfgOf id)) : State := { State.resetOf id with g := some b }

/-- A REF-X128P bank with empty caches. -/
def b128 (x0 x1 : Word64) : Bank cfgX128P where
  x := #v[x0, x1]
  cur := 0
  la := 0
  ls := 0
  bc := 1
  hc := BitVec.allOnes 64

/-- A REF-X256SS bank. -/
def b256 (x0 x1 x2 x3 : Word64) (bc : Word64 := 1) (hc : Word64 := BitVec.allOnes 64) :
    Bank cfgX256SS where
  x := #v[x0, x1, x2, x3]
  cur := 0
  la := 0
  ls := 0
  bc := bc
  hc := hc

/-- A REF-X128W32SS bank. -/
def b32 (x0 x1 x2 x3 : BitVec 32) (bc : BitVec 32 := 1) : Bank cfgX128W32SS where
  x := #v[x0, x1, x2, x3]
  cur := 0
  la := 0
  ls := 0
  bc := bc
  hc := 0

/-- A REF-L64X128 bank with empty caches. -/
def bl64 (la ls x0 x1 : Word64) : Bank cfgL64X128 where
  x := #v[x0, x1]
  cur := 0
  la := la
  ls := ls
  bc := 1
  hc := BitVec.allOnes 64

/-- A REF-L128X128 bank with empty caches. -/
def bl128 (la ls : BitVec 128) (x0 x1 : Word64) : Bank cfgL128X128 where
  x := #v[x0, x1]
  cur := 0
  la := la
  ls := ls
  bc := 1
  hc := BitVec.allOnes 64

/-- A bank of the ring REF-X1024SS with words 1 to 16, its cursor at the last word. -/
def b1024 : Bank cfgX1024SS where
  x := Vector.ofFn fun i => BitVec.ofNat 64 (i.val + 1)
  cur := 15
  la := 0
  ls := 0
  bc := 1
  hc := BitVec.allOnes 64

/-- The same bank where JUMP is by one cycle. -/
def b1024Short : Bank cfgX1024SSShortJumps where
  x := b1024.x
  cur := 15
  la := 0
  ls := 0
  bc := 1
  hc := BitVec.allOnes 64

/-- A REF-L64X128 bank where JUMP is by one cycle. -/
def bl64Short : Bank cfgL64X128ShortJumps where
  x := #v[1, 2]
  cur := 0
  la := 3
  ls := 3
  bc := 1
  hc := BitVec.allOnes 64

/-- X of bank G as numbers. -/
def xs (t : State) : Option (List Nat) := t.g.map fun b => b.x.toList.map BitVec.toNat

/-- BC and HC of bank G as numbers. -/
def caches (t : State) : Option (Nat × Nat) := t.g.map fun b => (b.bc.toNat, b.hc.toNat)

/-- LA and LS of bank G as numbers. -/
def lcg (t : State) : Option (Nat × Nat) := t.g.map fun b => (b.la.toNat, b.ls.toNat)

/-! ### Ill-formed commands are refused -/

theorem test_illFormed_jumpv_no_words : (Instr.jumpv []).wellFormed 8 = false := by decide
theorem test_illFormed_jumpv_too_long :
    (Instr.jumpv (List.replicate 8192 0)).wellFormed 8 = false := by
  simp only [Instr.wellFormed, maxPayload, List.length_replicate]
  decide
theorem test_illFormed_restore_too_long :
    (Instr.restore (List.replicate 65536 0)).wellFormed 8 = false := by
  simp only [Instr.wellFormed, maxPayload, List.length_replicate]
  decide
theorem test_illFormed_seed_partial_word :
    (Instr.seed [0xEF, 0xBE, 0xAD, 0xDE]).wellFormed 8 = false := by decide
theorem test_illFormed_seed_too_long :
    (Instr.seed (List.replicate 65536 0)).wellFormed 8 = false := by
  simp only [Instr.wellFormed, maxPayload, List.length_replicate]
  decide

/-! ### Decoding packets written out from R71, R74, R77 and section 6 of spec/30_encoding.md -/

/-- What the decoder reads from a byte string that begins with a packet, for W = 64. -/
def decoded (bytes : List Byte) : Option (Except Illegal Instr) :=
  (nextPacket bytes).map fun q => decodePacket 8 q.1

theorem test_decode_next : decoded [0x01, 0, 0, 0] = some (.ok .next) := by decide
theorem test_decode_nextint : decoded [0x02, 0, 0, 0] = some (.ok .nextint) := by decide
theorem test_decode_nextlong : decoded [0x03, 0, 0, 0] = some (.ok .nextlong) := by decide
theorem test_decode_nextbool : decoded [0x04, 0, 0, 0] = some (.ok .nextbool) := by decide
theorem test_decode_jump : decoded [0x10, 0, 0, 0] = some (.ok .jump) := by decide
theorem test_decode_longjump : decoded [0x11, 0, 0, 0] = some (.ok .longjump) := by decide
/-- Section 6: DENC dbl:1.0. -/
theorem test_decode_denc : decoded [0x12, 0, 0x08, 0, 0, 0, 0, 0, 0, 0, 0xF0, 0x3F] =
    some (.ok (.denc 0x3FF0000000000000)) := by decide
theorem test_decode_jumpv :
    decoded [0x13, 0, 0x10, 0, 1, 0, 0, 0, 0, 0, 0, 0, 0, 0, 0, 0, 0, 0, 0, 0x80] =
      some (.ok (.jumpv [1, 0x8000000000000000])) := by decide
theorem test_decode_save : decoded [0x20, 0, 0, 0] = some (.ok .save) := by decide
theorem test_decode_restore : decoded [0x21, 0, 0x03, 0, 0xAA, 0xBB, 0xCC] =
    some (.ok (.restore [0xAA, 0xBB, 0xCC])) := by decide
/-- Section 6: SEED 0x1, 0x2 with W = 64. -/
theorem test_decode_seed :
    decoded [0x22, 0, 0x10, 0, 1, 0, 0, 0, 0, 0, 0, 0, 2, 0, 0, 0, 0, 0, 0, 0] =
      some (.ok (.seed [1, 0, 0, 0, 0, 0, 0, 0, 2, 0, 0, 0, 0, 0, 0, 0])) := by decide
theorem test_decode_xchg : decoded [0x23, 0, 0, 0] = some (.ok .xchg) := by decide
theorem test_decode_umulh :
    decoded [0x30, 0, 0x10, 0, 1, 2, 3, 4, 5, 6, 7, 8, 9, 10, 11, 12, 13, 14, 15, 16] =
      some (.ok (.umulh 0x0807060504030201 0x100F0E0D0C0B0A09)) := by decide
theorem test_decode_uaddh :
    decoded [0x31, 0, 0x10, 0, 1, 0, 0, 0, 0, 0, 0, 0, 0, 0, 0, 0, 0, 0, 0, 0x80] =
      some (.ok (.uaddh 1 0x8000000000000000)) := by decide
theorem test_decode_mac128 : decoded
    [0x32, 0, 0x30, 0, 1, 0, 0, 0, 0, 0, 0, 0, 2, 0, 0, 0, 0, 0, 0, 0, 3, 0, 0, 0, 0, 0, 0, 0,
      4, 0, 0, 0, 0, 0, 0, 0, 5, 0, 0, 0, 0, 0, 0, 0, 6, 0, 0, 0, 0, 0, 0, 0] =
      some (.ok (.mac128 1 2 3 4 5 6)) := by decide
/-- V-ENC-2, V-ENC-4, V-ENC-5. -/
theorem test_decode_illegal :
    decoded [0, 0, 0, 0] = some (.error (.unknownOpcode 0)) ∧
      decoded [1, 1, 0, 0] = some (.error (.reservedByte 1)) ∧
      decoded [1, 0, 2, 0, 0xAA, 0xBB] = some (.error (.payloadLength .next 2)) := by decide
/-- V-ENC-7, V-ENC-8. -/
theorem test_decode_jumpv_illegal :
    decoded [0x13, 0, 0, 0] = some (.error (.payloadLength .jumpv 0)) ∧
      decoded [0x13, 0, 12, 0, 1, 2, 3, 4, 5, 6, 7, 8, 9, 10, 11, 12] =
        some (.error (.payloadLength .jumpv 12)) := by decide
/-- V-ENC-10: four seed bytes are a partial word when W = 64 and one word when W = 32. -/
theorem test_decode_seed_by_width :
    decodePacket 8 ⟨0x22, 0, [0xEF, 0xBE, 0xAD, 0xDE]⟩ = .error (.payloadLength .seed 4) ∧
      decodePacket 4 ⟨0x22, 0, [0xEF, 0xBE, 0xAD, 0xDE]⟩ =
        .ok (.seed [0xEF, 0xBE, 0xAD, 0xDE]) := by decide
/-- V-ENC-15, V-ENC-16: truncated packets are no packets. -/
theorem test_decode_truncated :
    decoded [1, 0, 0] = none ∧ decoded [0x30, 0, 0x10, 0, 1, 2, 3] = none := by decide
/-- The host's numbering: bit 0 is the lowest bit of the first byte. -/
theorem test_tableWord_denc :
    decodeTableWord 32 0x00080012 = some (.denc 0) ∧ decodeTableWord 32 0x00100030 =
      some (.umulh 0 0) ∧ decodeTableWord 32 0x00000013 = none := by decide

/-! ### Reset -/

theorem test_reset_stat : State.reset.stat = 0 ∧ State.reset.flt = 0 := by decide

/-! ### One step of each command -/

/-- V-WS-1 line 1 (R101): the word 0x2D00, and X after the update. -/
theorem test_next_emits_and_updates :
    (after (exec .next (seeded .refX256SS (b256 1 2 3 4)))).dout = [0, 0x2D, 0, 0, 0, 0, 0, 0] ∧
      xs (after (exec .next (seeded .refX256SS (b256 1 2 3 4)))) =
        some [7, 0, 0x40002, 0xC00000000000] := by decide
/-- The LXM draw (spec/43_lxm.md, the worked example). -/
theorem test_next_lxm : (after (exec .next (seeded .refL64X128 (bl64 3 3 1 2)))).dout =
      [0x0F, 0x91, 0x27, 0x78, 0xED, 0x1C, 0x33, 0x81] ∧
    lcg (after (exec .next (seeded .refL64X128 (bl64 3 3 1 2)))) = some (3, 0x739C6FCB9B88CEC2) ∧
      xs (after (exec .next (seeded .refL64X128 (bl64 3 3 1 2)))) =
        some [0x0000000001030003, 0x0000006000000000] := by decide
/-- spec/42_lcg_mac128.md section 6: one step with L = 128. -/
theorem test_lcgStep_wide : (lcgStep (bl128 3 0x30000000000000004 1 2)).ls.toNat =
    0x82113320A5A033FE5816EED6322AEFF7 := by decide
/-- V-WS-2 line 4: two draws, the first the high half. -/
theorem test_nextlong_joins_two_draws :
    (after (exec .nextlong (seeded .refX128W32SS
      (b32 0x01803402 0x00003007 0x00083E02 0x0020280C)))).dout =
        [0x9B, 0x9D, 0x19, 0x79, 0x80, 0x9D, 0x38, 0x04] := by decide
/-- R102: for W = 64 NEXTLONG is NEXT. -/
theorem test_nextlong_wide :
    (after (exec .nextlong (seeded .refX256SS (b256 1 2 3 4)))).dout =
      [0, 0x2D, 0, 0, 0, 0, 0, 0] := by decide
/-- V-WS-3: the low half first, the high half stashed. -/
theorem test_nextint_refills :
    (after (exec .nextint (seeded .refX256SS (b256 0xC00018040002 0xC00000000007 0xC008000E0002
      0x8000A00000000300)))).dout = [0x80, 0x9D, 0, 0] ∧
      caches (after (exec .nextint (seeded .refX256SS (b256 0xC00018040002 0xC00000000007
        0xC008000E0002 0x8000A00000000300)))) = some (1, 0x10E00000) := by decide
theorem test_nextint_issues_the_stash :
    (after (exec .nextint (seeded .refX256SS (b256 1 2 3 4 1 0x10E00000)))).dout =
        [0, 0, 0xE0, 0x10] ∧
      caches (after (exec .nextint (seeded .refX256SS (b256 1 2 3 4 1 0x10E00000)))) =
        some (1, 0xFFFFFFFFFFFFFFFF) := by decide
/-- V-WS-4. -/
theorem test_nextbool_refills :
    (after (exec .nextbool (seeded .refX256SS (b256 1 2 3 4)))).dout = [0] ∧
      caches (after (exec .nextbool (seeded .refX256SS (b256 1 2 3 4)))) =
        some (0x8000000000001680, 0xFFFFFFFFFFFFFFFF) := by decide
/-- V-WS-2 line 7. -/
theorem test_nextbool_issues_a_cached_bit :
    (after (exec .nextbool (seeded .refX128W32SS (b32 0 0 0 0 0xA65CDABD)))).dout = [1] ∧
      caches (after (exec .nextbool (seeded .refX128W32SS (b32 0 0 0 0 0xA65CDABD)))) =
        some (0x532E6D5E, 0) := by decide
/-- V-JMP-1: REF-X128P, JUMP. -/
theorem test_jump_x128p : xs (after (exec .jump (seeded .refX128P (b128 1 2)))) =
    some [0x66FBD4BE1DF0A7B5, 0x830C3DDBB4AA3172] := by decide
/-- The copy in S holds the state before the jump (R125). -/
theorem test_jump_copies :
    ((after (exec .jump (seeded .refL64X128 (bl64 3 3 1 2)))).s.map fun b =>
        (b.ls.toNat, b.x.toList.map BitVec.toNat)) = some (3, [1, 2]) ∧
    lcg (after (exec .jump (seeded .refL64X128 (bl64 3 3 1 2)))) =
      some (3, 0x739C6FCB9B88CEC2) := by decide
/-- V-JMP-1: REF-X128P, LONGJUMP. -/
theorem test_longjump_x128p : xs (after (exec .longjump (seeded .refX128P (b128 1 2)))) =
    some [0x3CE44494D47D323A, 0x2AA25CA8D61DE643] := by decide
/-- V-JMP-2: x + 1 and not three updates. -/
theorem test_jumpv_is_a_polynomial :
    xs (after (exec (.jumpv [3]) (seeded .refX128P (b128 1 2)))) =
      some [0x0000000001030002, 0x0000006000000002] := by decide
theorem test_jumpv_fifth_power :
    xs (after (exec (.jumpv [0x20]) (seeded .refX128P (b128 1 2)))) =
      some [0x2D26201741314A0E, 0x26643004C1C44120] := by decide
/-- spec/44_distance_encoder.md, R190's example. -/
theorem test_denc_word_one :
    (after (exec (.denc 0x43F0000000000000) (State.resetOf .refX128P))).dout =
      [0, 0, 0, 0, 0, 0, 0, 0, 1, 0, 0, 0, 0, 0, 0, 0] := by decide
/-- Worked values: 2^128 is not below PERIOD; 1.5, -1.0, a NaN and a subnormal are no distance. -/
theorem test_denc_rejects :
    (after (exec (.denc 0x47F0000000000000) (State.resetOf .refX128P))).last = 4 ∧
      distanceValue 0x3FF8000000000000 = none ∧ distanceValue 0xBFF0000000000000 = none ∧
      distanceValue 0x7FF0000000000001 = none ∧ distanceValue 1 = none ∧
      distanceValue 0x8000000000000000 = some 0 := by decide
/-- V-WS-2: the SAVE after line 7. -/
theorem test_save_writes_empty_caches :
    (after (exec .save (seeded .refX128W32SS
      (b32 0xD23C3415 0xC3DC6205 0xFA3C080D 0x22C0F480 0x532E6D5E)))).dout =
        [0x15, 0x34, 0x3C, 0xD2, 0x05, 0x62, 0xDC, 0xC3, 0x0D, 0x08, 0x3C, 0xFA, 0x80, 0xF4, 0xC0,
          0x22, 1, 0, 0, 0] := by decide
/-- R214's example on REF-L64X128: LA, and LS from its own segment. -/
theorem test_restore_loads_the_lcg :
    lcg (after (exec (.restore
      [0x01, 0x6D, 0x03, 0x0D, 0x03, 0, 0, 0x41, 0x60, 0x40, 0x20, 0, 0x64, 0x80, 0x01, 0x40,
        3, 0, 0, 0, 0, 0, 0, 0, 0xF4, 0x50, 0xCE, 0x93, 0xA8, 0xCC, 0xA2, 0xE3,
        1, 0, 0, 0, 0, 0, 0, 0, 0xFF, 0xFF, 0xFF, 0xFF, 0xFF, 0xFF, 0xFF, 0xFF])
      (State.resetOf .refL64X128))) = some (3, 0xE3A2CCA893CE50F4) := by decide
/-- R215: any other length is SER. -/
theorem test_restore_short : (after (exec (.restore [0]) (State.resetOf .refX256SS))).last = 5 := by
  decide
/-- R220's example: the mixer fills words 2 and 3. -/
theorem test_seed_expands :
    xs (after (exec (.seed [5, 0, 0, 0, 0, 0, 0, 0, 6, 0, 0, 0, 0, 0, 0, 0])
      (State.resetOf .refX256SS))) =
        some [5, 6, 0x63033B0CA389C35A, 0xC097314D939736F8] := by decide
/-- V-LX-2: LA and LS take the high half first and LA is forced odd. -/
theorem test_seed_lxm_order :
    lcg (after (exec (.seed
      [0, 0, 0, 0, 0, 0, 0, 0, 2, 0, 0, 0, 0, 0, 0, 0, 3, 0, 0, 0, 0, 0, 0, 0,
        4, 0, 0, 0, 0, 0, 0, 0, 1, 0, 0, 0, 0, 0, 0, 0, 2, 0, 0, 0, 0, 0, 0, 0]) State.reset)) =
      some (3, 0x30000000000000004) := by decide
/-- R225 from reset, V-ENC-13. -/
theorem test_xchg_unseeded : exec .xchg State.reset = .next State.reset := rfl
theorem test_xchg_moves_valid :
    (after (exec .xchg (seeded .refX128P (b128 1 2)))).stat = 2 := by decide
/-- R155's example. -/
theorem test_umulh_alternating :
    (after (exec (.umulh 0xAAAAAAAAAAAAAAAA 0x5555555555555555) State.reset)).dout =
      [0xE3, 0x38, 0x8E, 0xE3, 0x38, 0x8E, 0xE3, 0x38] := by decide
theorem test_umulh_corners :
    umulh 0xFFFFFFFFFFFFFFFF 0xFFFFFFFFFFFFFFFF = 0xFFFFFFFFFFFFFFFE ∧
      umulh 0x8000000000000000 2 = 1 ∧
      umulhDatapath 0xFFFFFFFFFFFFFFFF 0xFFFFFFFFFFFFFFFF = 0xFFFFFFFFFFFFFFFE := by decide
/-- R156's example and corner cases. -/
theorem test_uaddh_carry :
    (after (exec (.uaddh 0xFFFFFFFFFFFFFFFF 1) State.reset)).dout = [1, 0, 0, 0, 0, 0, 0, 0] := by
  decide
theorem test_uaddh_corners :
    uaddh 0xFFFFFFFFFFFFFFFF 0 = 0 ∧ uaddh 0x8000000000000000 0x8000000000000000 = 1 ∧
      uaddh 0x7FFFFFFFFFFFFFFF 0x8000000000000000 = 0 := by decide
/-- R157's example: the high half first. -/
theorem test_mac128_high_half_first :
    (after (exec (.mac128 1 0xD605BBB58C8ABBFD 0 1 0 1) State.reset)).dout =
      [1, 0, 0, 0, 0, 0, 0, 0, 0xFE, 0xBB, 0x8A, 0x8C, 0xB5, 0xBB, 0x05, 0xD6] := by decide
theorem test_mac128_wraps :
    mac128 0xFFFFFFFFFFFFFFFF 0xFFFFFFFFFFFFFFFF 0xFFFFFFFFFFFFFFFF 0xFFFFFFFFFFFFFFFF
      0xFFFFFFFFFFFFFFFF 0xFFFFFFFFFFFFFFFF = (0, 0) := by decide
/-- V-ENC-5: an illegal packet is consumed whole, six bytes. -/
theorem test_step_illegal :
    step { State.reset with cmd := [1, 0, 2, 0, 0xAA, 0xBB, 0x23, 0, 0, 0] } =
      .next { State.reset with cmd := [0x23, 0, 0, 0], last := 1, flt := 2 } := rfl
/-- Section 6: NEXT from reset is NSD. -/
theorem test_step_unseeded :
    step { State.reset with cmd := [1, 0, 0, 0] } = .next { State.reset with last := 2, flt := 4 } :=
  rfl
/-- UNS comes before NSD (R244). -/
theorem test_longjump_unsupported :
    (after (exec .longjump (State.resetOf .refX256SSNoLongJump))).last = 3 ∧
      (after (exec .longjump (State.resetOf .refX256SS))).last = 2 := by decide

/-! ### Obligations on a CFG that a reference configuration meets -/

/-- Without a ring the cursor is 0 bits wide. -/
theorem cursor_zero {c : Cfg} (h : c.ring = false) (d : BitVec (cursorBits c.ring c.words)) :
    d.toNat = 0 := by
  have hd := d.isLt
  have e : 2 ^ cursorBits c.ring c.words = 1 := by simp [cursorBits, h]
  omega

/-- Without a ring, turning the ring does nothing. -/
theorem rotateRing_still {c : Cfg} (h : c.ring = false)
    (d : BitVec (cursorBits c.ring c.words)) (x : XVec c.kind c.words) : rotateRing c d x = x := by
  apply Vector.ext
  intro j hj
  have e : logicalIndex c d j = ⟨j, hj⟩ := by
    apply Fin.ext
    simp only [logicalIndex, cursor_zero h d, Nat.sub_zero, Nat.add_mod_right]
    exact Nat.mod_eq_of_lt hj
  simp [rotateRing, e]

/-- Without a ring all cursors are equal. -/
theorem cursor_eq {c : Cfg} (h : c.ring = false) (d e : BitVec (cursorBits c.ring c.words)) :
    d = e := by
  apply BitVec.eq_of_toNat_eq
  rw [cursor_zero h, cursor_zero h]

theorem cursorAutonomous_of_no_ring {c : Cfg} (h : c.ring = false) : CursorAutonomous c :=
  fun _ _ _ => cursor_eq h _ _

theorem rotationEquivariant_of_no_ring {c : Cfg} (h : c.ring = false) :
    RotationEquivariant c := by
  intro x cur d
  rw [rotateRing_still h, rotateRing_still h, cursor_eq h (cur + d) cur]
  exact Prod.ext rfl (cursor_eq h _ _)

theorem outputEquivariant_of_no_ring {c : Cfg} (h : c.ring = false) : OutputEquivariant c := by
  intro x cur d
  rw [rotateRing_still h, cursor_eq h (cur + d) cur]
  exact ⟨rfl, rfl⟩

/-- REF-X128P meets CUR, EQV, TEQV (R8, R9). -/
theorem witness_equivariance_x128p :
    CursorAutonomous cfgX128P ∧ RotationEquivariant cfgX128P ∧ OutputEquivariant cfgX128P :=
  ⟨cursorAutonomous_of_no_ring rfl, rotationEquivariant_of_no_ring rfl,
    outputEquivariant_of_no_ring rfl⟩

/-- The ring of REF-X1024SS turned by d places. -/
def turn1024 (d : BitVec 4) (x : Vector (BitVec 64) 16) : Vector (BitVec 64) 16 :=
  Vector.ofFn fun j => x[(j.val + (16 - d.toNat)) % 16]'(Nat.mod_lt _ (by decide))

theorem turn1024_is_rotateRing : turn1024 = rotateRing cfgX1024SS := rfl

/-- Turning by d takes the word at b to b + d. -/
theorem turn1024_at (d : BitVec 4) (x : Vector (BitVec 64) 16) (b : BitVec 4) :
    (turn1024 d x)[(b + d).toNat] = x[b.toNat] := by
  have hb := b.isLt
  have hd := d.isLt
  simp only [turn1024, Vector.getElem_ofFn]
  congr 1
  rw [BitVec.toNat_add]
  omega

/-- The update of REF-X1024SS, word by word. -/
theorem update1024_get (x : Vector (BitVec 64) 16) (cur : BitVec 4) (j : Nat) (hj : j < 16) :
    (update1024 x cur).1[j] =
      if (cur + 1).toNat = j then
        (x[cur.toNat] ^^^ x[(cur + 1).toNat]).rotateLeft 36
      else if cur.toNat = j then
        x[(cur + 1).toNat].rotateLeft 25 ^^^ (x[cur.toNat] ^^^ x[(cur + 1).toNat]) ^^^
          ((x[cur.toNat] ^^^ x[(cur + 1).toNat]) <<< 27)
      else x[j] := by
  simp only [update1024, Vector.getElem_set]

theorem next_turned (cur d : BitVec 4) : cur + d + 1 = cur + 1 + d := by
  rw [BitVec.add_assoc, BitVec.add_comm d, ← BitVec.add_assoc]

theorem update1024_turns (x : Vector (BitVec 64) 16) (cur d : BitVec 4) :
    update1024 (turn1024 d x) (cur + d) =
      (turn1024 d (update1024 x cur).1, (update1024 x cur).2 + d) := by
  refine Prod.ext (Vector.ext fun j hj => ?_) (next_turned cur d)
  have h0 := turn1024_at d x cur
  have h1 := turn1024_at d x (cur + 1)
  have hc := cur.isLt
  have hp := (cur + 1).isLt
  have hd := d.isLt
  have c0 : (cur + d).toNat = j ↔ cur.toNat = (j + (16 - d.toNat)) % 16 := by
    rw [BitVec.toNat_add]
    omega
  have c1 : (cur + 1 + d).toNat = j ↔ (cur + 1).toNat = (j + (16 - d.toNat)) % 16 := by
    rw [BitVec.toNat_add (cur + 1)]
    omega
  have r : (turn1024 d (update1024 x cur).1)[j] =
      (update1024 x cur).1[(j + (16 - d.toNat)) % 16]'(Nat.mod_lt _ (by decide)) := by
    simp only [turn1024, Vector.getElem_ofFn]
  have r' : (turn1024 d x)[j] = x[(j + (16 - d.toNat)) % 16]'(Nat.mod_lt _ (by decide)) := by
    simp only [turn1024, Vector.getElem_ofFn]
  rw [r, update1024_get, update1024_get]
  simp only [next_turned, h0, h1, c0, c1, r']

theorem transform1024_turns (x : Vector (BitVec 64) 16) (cur d : BitVec 4) :
    (turn1024 d x)[(headIndex1024 (cur + d)).toNat] = x[(headIndex1024 cur).toNat] := by
  simp only [headIndex1024, next_turned]
  exact turn1024_at d x (cur + 1)

/-- REF-X1024SS, a ring of sixteen words, meets CUR, EQV and TEQV (R8, R9). -/
theorem witness_equivariance_x1024ss :
    CursorAutonomous cfgX1024SS ∧ RotationEquivariant cfgX1024SS ∧
      OutputEquivariant cfgX1024SS :=
  ⟨fun _ _ _ => rfl, update1024_turns, fun x cur d =>
    ⟨congrArg starStar (transform1024_turns x cur d), transform1024_turns x cur d⟩⟩

theorem xorWords_zero {w n : Nat} (x : Vector (BitVec w) n) : xorWords (zeroWords w n) x = x := by
  apply Vector.ext
  intro i hi
  simp [xorWords, zeroWords]

/-- JCOEF: the polynomials 1, x and x^2 advance by 0, 1 and 2 cycles, in every configuration. -/
theorem witness_advancesBy (c : Cfg) :
    AdvancesBy c [1] 0 ∧ AdvancesBy c [2] 1 ∧ AdvancesBy c [4] 2 :=
  ⟨fun _ => xorWords_zero _, fun _ => xorWords_zero _, fun _ => xorWords_zero _⟩

theorem rotateLeft_xor {w : Nat} (a b : BitVec w) (k : Nat) :
    (a ^^^ b).rotateLeft k = a.rotateLeft k ^^^ b.rotateLeft k := by
  apply BitVec.eq_of_getLsbD_eq
  intro i hi
  simp only [BitVec.getLsbD_rotateLeft, BitVec.getLsbD_xor]
  cases decide (i < k % w) <;> simp [hi]

theorem shiftLeft_xor {w : Nat} (a b : BitVec w) (k : Nat) :
    (a ^^^ b) <<< k = a <<< k ^^^ b <<< k := BitVec.shiftLeft_xor_distrib _ _ _

/-- Word 0 of the update of G1 is linear. -/
theorem update128_word0 {w : Nat} (r k : Nat) (a b c d : BitVec w) :
    (a ^^^ b).rotateLeft r ^^^ ((c ^^^ d) ^^^ (a ^^^ b)) ^^^ (((c ^^^ d) ^^^ (a ^^^ b)) <<< k) =
      (a.rotateLeft r ^^^ (c ^^^ a) ^^^ ((c ^^^ a) <<< k)) ^^^
        (b.rotateLeft r ^^^ (d ^^^ b) ^^^ ((d ^^^ b) <<< k)) := by
  simp only [rotateLeft_xor, shiftLeft_xor]
  ac_rfl

/-- Word 1 of the update of G1 is linear. -/
theorem update128_word1 {w : Nat} (r : Nat) (a b c d : BitVec w) :
    ((c ^^^ d) ^^^ (a ^^^ b)).rotateLeft r = (c ^^^ a).rotateLeft r ^^^ (d ^^^ b).rotateLeft r := by
  simp only [rotateLeft_xor]
  ac_rfl

theorem update128_xor (x y : Vector (BitVec 64) 2) :
    update128 (xorWords x y) = xorWords (update128 x) (update128 y) := by
  apply Vector.ext
  intro i hi
  match i with
  | 0 =>
    simp only [xorWords, update128, Vector.getElem_ofFn]
    exact update128_word0 24 16 _ _ _ _
  | 1 =>
    simp only [xorWords, update128, Vector.getElem_ofFn]
    exact update128_word1 37 _ _ _ _

/-- REF-X128P meets LIN and TZERO (R8, R132). -/
theorem witness_linear_x128p : Linear cfgX128P ∧ ZeroOutput cfgX128P :=
  ⟨fun x y _ => update128_xor x y, fun _ => by change (0#64 + 0#64 = 0#64); rfl⟩

/-! ### Witnesses: for each statement with hypotheses, a state and operands that meet them -/

/-- REF-X128P after SEED 0x1, 0x2. -/
def s128 : State := seeded .refX128P (b128 1 2)

/-- REF-X128W32SS after SEED 0x1, 0x2, 0x3, 0x4. -/
def s32 : State := seeded .refX128W32SS (b32 1 2 3 4)

/-- REF-X1024SS with a valid bank. -/
def s1024 : State := seeded .refX1024SS b1024

/-- The same ring with jumps by one and by two cycles. -/
def s1024Short : State := seeded .refX1024SSShortJumps b1024Short

/-- REF-L64X128 with descriptors that have a C part and a K part. -/
def sl64Short : State := seeded .refL64X128ShortJumps bl64Short

/-- REF-L64X128 after SEED 0x2, 0x3, 0x1, 0x2. -/
def sl64 : State := seeded .refL64X128 (bl64 3 3 1 2)

theorem bank128_wf : (b128 1 2).Wf :=
  ⟨fun h => absurd h (by decide), (by decide : (b128 1 2).bc ≠ 0), .inl rfl⟩

theorem bankl64_wf : (bl64 3 3 1 2).Wf :=
  ⟨fun _ => by decide, (by decide : (bl64 3 3 1 2).bc ≠ 0), .inl rfl⟩

theorem witness_StepRunsDecodedCommand :
    nextPacket { s128 with cmd := [0x23, 0, 0, 0, 1] }.cmd = some (⟨0x23, 0, []⟩, [1]) ∧
      decodePacket (wordBytes s128.config) ⟨0x23, 0, []⟩ = .ok .xchg := by decide

theorem witness_FramingIsByLengthAlone :
    ([] : List Byte).length ≤ 65535 ∧ (List.replicate 65535 (0 : Byte)).length ≤ 65535 ∧
      { s128 with cmd := [1, 0, 0, 0, 7] }.cmd =
        [1, 0, BitVec.ofNat 8 (0 % 256), BitVec.ofNat 8 (0 / 256)] ++ [] ++ [7] := by
  rw [List.length_replicate]
  decide

theorem witness_IncompletePacketsWaitAndAreNoProgram :
    (([] : List Byte).length < 4 ∧ ([1, 0, 0] : List Byte).length < 4 ∧
      ([0x30, 0, 1, 0] : List Byte).length < 4 + leNat (([0x30, 0, 1, 0].drop 2).take 2)) ∧
    (∃ ps : List Packet, (∀ p ∈ ps, p.payload.length ≤ 65535) ∧
      ([1, 0, 0, 0] : List Byte) = ps.flatMap Packet.bytes) ∧
    ¬ ∃ ps : List Packet, (∀ p ∈ ps, p.payload.length ≤ 65535) ∧
      ([1] : List Byte) = ps.flatMap Packet.bytes := by
  refine ⟨by decide, ⟨[⟨1, 0, []⟩], by decide, by decide⟩, ?_⟩
  rintro ⟨ps, -, h⟩
  cases ps with
  | nil => simp at h
  | cons p ps =>
    have := congrArg List.length h
    simp [Packet.bytes] at this
    omega

/-- One illegal packet for each clause, and a legal one. -/
theorem witness_IllegalPacketRaisesIll :
    nextPacket [1, 1, 0, 0] = some (⟨1, 1, []⟩, []) ∧
      nextPacket [5, 0, 0, 0] = some (⟨5, 0, []⟩, []) ∧
      nextPacket [1, 0, 1, 0, 9] = some (⟨1, 0, [9]⟩, []) ∧
      nextPacket [0x12, 0, 0, 0] = some (⟨0x12, 0, []⟩, []) ∧
      nextPacket [0x30, 0, 1, 0, 9] = some (⟨0x30, 0, [9]⟩, []) ∧
      nextPacket [0x32, 0, 0, 0] = some (⟨0x32, 0, []⟩, []) ∧
      nextPacket [0x13, 0, 0, 0] = some (⟨0x13, 0, []⟩, []) ∧
      nextPacket [0x13, 0, 9, 0, 1, 2, 3, 4, 5, 6, 7, 8, 9] =
        some (⟨0x13, 0, [1, 2, 3, 4, 5, 6, 7, 8, 9]⟩, []) ∧
      nextPacket [0x22, 0, 1, 0, 9] = some (⟨0x22, 0, [9]⟩, []) ∧
      nextPacket [0x22, 0, 0, 0] = some (⟨0x22, 0, []⟩, []) := by decide

/-- The longest JUMPV, RESTORE and SEED, and the shortest JUMPV and SEED. -/
theorem witness_CommandsRoundTripThroughDecoder :
    (Instr.jumpv (List.replicate 8191 0)).wellFormed 8 = true ∧
      (Instr.jumpv [0]).wellFormed 8 = true ∧
      (Instr.restore (List.replicate 65535 0)).wellFormed 8 = true ∧
      (Instr.seed (List.replicate 65528 0)).wellFormed 8 = true ∧
      (Instr.seed []).wellFormed 8 = true ∧ (Instr.mac128 1 2 3 4 5 6).wellFormed 8 = true := by
  refine ⟨?_, by decide, ?_, ?_, by decide, by decide⟩
  · simp only [Instr.wellFormed, maxPayload, List.length_replicate, List.isEmpty_replicate]
    decide
  · simp only [Instr.wellFormed, maxPayload, List.length_replicate]
    decide
  · simp only [Instr.wellFormed, maxPayload, List.length_replicate]
    decide

theorem witness_DecodedPacketsEncodeBack :
    nextPacket [0x12, 0, 8, 0, 0, 0, 0, 0, 0, 0, 0xF0, 0x3F, 1] =
        some (⟨0x12, 0, [0, 0, 0, 0, 0, 0, 0xF0, 0x3F]⟩, [1]) ∧
      decodePacket 8 ⟨0x12, 0, [0, 0, 0, 0, 0, 0, 0xF0, 0x3F]⟩ =
        .ok (.denc 0x3FF0000000000000) := by decide

theorem witness_OpcodeMapIsTheDecoder :
    OpcodeRow.mk .seed 0x00000022 0x0000FFFF ∈ opcodeTable ∧
      (OpcodeRow.mk .seed 0x00000022 0x0000FFFF).selects 0x00080022 = true ∧
      ([1, 2, 3, 4, 5, 6, 7, 8] : List Byte).length ≤ 65535 := by decide

theorem witness_FetchWordRunsTheTableWord :
    wordBytes State.reset.config = 8 ∧ decodeTableWord 32 0x23 = some .xchg := by decide

theorem witness_PacketsRunInOrder :
    ∀ i ∈ [Instr.next, .seed [1, 2, 3, 4, 5, 6, 7, 8], .xchg],
      i.wellFormed (wordBytes s128.config) = true := by decide

/-- A program of two packets, a byte string that ends inside a packet, and a list of commands. -/
theorem witness_ProgramsRunToTheirLastPacket :
    isProgram [0x23, 0, 0, 0, 0xFF, 0, 0, 0] = true ∧ isProgram [0x23] = false ∧
      (∀ i ∈ [Instr.xchg, .next], i.wellFormed (wordBytes s128.config) = true) ∧
      [0x23, 0, 0, 0, 0x01, 0, 0, 0] = [Instr.xchg, .next].flatMap encode := by decide

/-- XCHG of two invalid banks, then the illegal opcode 0xFF: both packets are executed (R279). -/
theorem test_program_runs_past_a_fault :
    runProgram State.reset [0x23, 0, 0, 0, 0xFF, 0, 0, 0] =
      some (.next { State.reset with last := 1, flt := 2 }) := rfl

theorem witness_WellFormedStateKeptByEveryStep :
    ({ sl64 with cmd := [0x23, 0, 0, 0] } : State).Wf ∧
      ∃ u, step { sl64 with cmd := [0x23, 0, 0, 0] } = .next u := by
  refine ⟨⟨?_, ?_, by decide, by decide, by decide⟩, _, rfl⟩
  · intro b h
    cases h
    exact bankl64_wf
  · intro b h
    cases h

/-- XCHG sent after reset and executed; the same loaded as a program. -/
theorem witness_WellFormedInEveryReachableState :
    Reachable (after (step (hostSend (State.resetOf .refX128P) [0x23, 0, 0, 0]))) ∧
      Reachable { State.resetOf .refX128P with cmd := [0x23, 0, 0, 0] } :=
  ⟨.step (t := hostSend (State.resetOf .refX128P) [0x23, 0, 0, 0]) (.send _ (.reset _)) rfl,
    .load [0x23, 0, 0, 0] (.reset .refX128P) rfl⟩

theorem witness_CommandsSucceedOrChangeOnlyStatus :
    exec .xchg State.reset = .next State.reset ∧
      exec .next State.reset = .next { State.reset with last := 2, flt := 4 } := ⟨rfl, rfl⟩

theorem witness_FaultCodeOfEveryCommand :
    (Instr.jumpv [0]).wellFormed (wordBytes s128.config) = true ∧
      (Instr.restore []).wellFormed (wordBytes s128.config) = true ∧
      (Instr.seed []).wellFormed (wordBytes s128.config) = true := by decide

theorem witness_FaultFlagsAreSticky :
    runSteps 1 { State.reset with flt := 4, cmd := [0x23, 0, 0, 0] } =
        .next { State.reset with flt := 4 } ∧ (4#8).getLsbD 2 = true := ⟨rfl, by decide⟩

theorem witness_BytesEmittedByEachCommand :
    exec (.uaddh 1 2) State.reset = .next { State.reset with dout := [0, 0, 0, 0, 0, 0, 0, 0] } ∧
      exec .save State.reset = .next { State.reset with last := 2, flt := 4 } := ⟨rfl, rfl⟩

theorem witness_CodecReadersKeepTheGenerator :
    Instr.save = .save ∧ (∃ d, Instr.denc 0 = .denc d) ∧ (∃ a b, Instr.umulh 1 2 = .umulh a b) ∧
      (∃ a b, Instr.uaddh 1 2 = .uaddh a b) ∧
      ∃ mh ml xh xl ah al, Instr.mac128 1 2 3 4 5 6 = .mac128 mh ml xh xl ah al :=
  ⟨rfl, ⟨_, rfl⟩, ⟨_, _, rfl⟩, ⟨_, _, rfl⟩, ⟨_, _, _, _, _, _, rfl⟩⟩

theorem witness_ShadowOnlyForJumpsAndExchange :
    Instr.next ≠ .jump ∧ Instr.next ≠ .longjump ∧ (∀ cs, Instr.next ≠ .jumpv cs) ∧
      Instr.next ≠ .xchg := ⟨by decide, by decide, fun _ => by simp, by decide⟩

theorem witness_UnseededAndUnsupportedFault :
    State.reset.g = none ∧ State.reset.config.jump ≠ none ∧ State.reset.config.ljump ≠ none ∧
      (State.resetOf .refX256SSNoJump).config.jump = none ∧
      (State.resetOf .refX256SSNoLongJump).config.ljump = none :=
  ⟨rfl, by decide, by decide, rfl, rfl⟩

theorem witness_DrawOfStandaloneXbg : cfgX128P.kind.isLX = false := rfl

theorem witness_DrawOfTheComposite :
    cfgL64X128.kind.isLX = true ∧ cfgL128X128.kind.isLX = true ∧ cfgL64X128.ring = false :=
  ⟨rfl, rfl, rfl⟩

theorem witness_NextEmitsOneDraw : s128.g = some (b128 1 2) := rfl

theorem witness_NextlongEmitsSixtyFourBits :
    (s128.g = some (b128 1 2) ∧ s128.config.wordBits = 64) ∧
      (s32.g = some (b32 1 2 3 4) ∧ s32.config.wordBits = 32) := ⟨⟨rfl, rfl⟩, rfl, rfl⟩

theorem witness_NextintUsesTheHalfCache :
    (s32.g = some (b32 1 2 3 4) ∧ s32.config.wordBits = 32) ∧
      (s128.g = some (b128 1 2) ∧ s128.config.wordBits = 64 ∧
        (b128 1 2).hc.getLsbD 63 = true) ∧
      ((seeded .refX256SS (b256 1 2 3 4 1 0)).g = some (b256 1 2 3 4 1 0) ∧
        (b256 1 2 3 4 1 0).hc.getLsbD 63 = false) :=
  ⟨⟨rfl, rfl⟩, ⟨rfl, rfl, by decide⟩, rfl, by decide⟩

theorem witness_NextboolUsesTheBooleanCache :
    (s128.g = some (b128 1 2) ∧ (b128 1 2).bc = 1) ∧
      ((seeded .refX128W32SS (b32 1 2 3 4 2)).g = some (b32 1 2 3 4 2) ∧
        (b32 1 2 3 4 2).bc ≠ 1) := ⟨⟨rfl, rfl⟩, rfl, by decide⟩

/-- n = 1 and n = W. -/
theorem witness_BooleansOfOneWord :
    s32.g = some (b32 1 2 3 4) ∧ (b32 1 2 3 4).bc = 1 ∧ 1 ≤ s32.config.wordBits ∧ 1 ≤ 32 ∧
      32 ≤ s32.config.wordBits := ⟨rfl, rfl, by decide, by decide, by decide⟩

theorem witness_HalvesOfOneWord :
    sl64.g = some (bl64 3 3 1 2) ∧ sl64.config.wordBits = 64 ∧
      (bl64 3 3 1 2).hc.getLsbD 63 = true := ⟨rfl, rfl, by decide⟩

theorem witness_InBandDrawsKeepTheOtherCache : sl64.g = some (bl64 3 3 1 2) := rfl

theorem witness_OutOfBandChangesEmptyTheCaches :
    (∃ u, exec .jump sl64 = .next u ∧ u.last = 0) ∧
      (∃ u, exec .longjump sl64 = .next u ∧ u.last = 0) ∧
      (∃ u, exec (.jumpv [2]) sl64 = .next u ∧ u.last = 0) ∧
      (∃ u, exec (.restore (List.replicate 32 0)) s128 = .next u ∧ u.last = 0) ∧
      ∃ u, exec (.seed []) State.reset = .next u ∧ u.last = 0 :=
  ⟨⟨_, rfl, rfl⟩, ⟨_, rfl, rfl⟩, ⟨_, rfl, rfl⟩, ⟨_, rfl, by decide⟩, _, rfl, rfl⟩

/-- A descriptor with a C part (without and with a ring), one with a K part, one with both. -/
theorem witness_JumpCopiesThenMovesTheBank :
    (s128.g = some (b128 1 2) ∧ ∃ d, s128.config.jump = some d ∧ descriptorCoeffs d ≠ none) ∧
      (s1024.g = some b1024 ∧ ∃ d, s1024.config.jump = some d ∧ descriptorCoeffs d ≠ none) ∧
      (sl64.g = some (bl64 3 3 1 2) ∧
        ∃ d, sl64.config.jump = some d ∧ descriptorExponent d = some 0) ∧
      (sl64Short.g = some bl64Short ∧
        ∃ d, sl64Short.config.jump = some d ∧ descriptorCoeffs d = some [2] ∧
          descriptorExponent d = some 0) :=
  ⟨⟨rfl, _, rfl, by decide⟩, ⟨rfl, _, rfl, by decide⟩, ⟨rfl, _, rfl, rfl⟩, rfl, _, rfl, rfl, rfl⟩

/-- The same four kinds of long-jump descriptor. -/
theorem witness_LongjumpCopiesThenMovesTheBank :
    (s128.g = some (b128 1 2) ∧ ∃ d, s128.config.ljump = some d ∧ descriptorCoeffs d ≠ none) ∧
      (s1024.g = some b1024 ∧ ∃ d, s1024.config.ljump = some d ∧ descriptorCoeffs d ≠ none) ∧
      (sl64.g = some (bl64 3 3 1 2) ∧
        ∃ d, sl64.config.ljump = some d ∧ descriptorExponent d = some 32) ∧
      (sl64Short.g = some bl64Short ∧
        ∃ d, sl64Short.config.ljump = some d ∧ descriptorCoeffs d = some [4] ∧
          descriptorExponent d = some 1) :=
  ⟨⟨rfl, _, rfl, by decide⟩, ⟨rfl, _, rfl, by decide⟩, ⟨rfl, _, rfl, rfl⟩, rfl, _, rfl, rfl, rfl⟩

theorem witness_JumpvAppliesThePolynomial : s128.g = some (b128 1 2) := rfl

/-- m = 0, the last bit of a word, the first bit of the next; without a ring, and on a ring whose
cursor wraps. -/
theorem witness_SmallPowerJumpIsStepping :
    0 < 64 * 1 ∧ 63 < 64 * 1 ∧ 64 < 64 * 2 ∧
      (s128.g = some (b128 1 2) ∧ s128.config.ring = false ∧ RotationEquivariant s128.config ∧
        OutputEquivariant s128.config) ∧
      (s1024.g = some b1024 ∧ s1024.config.ring = true ∧ RotationEquivariant s1024.config ∧
        OutputEquivariant s1024.config) :=
  ⟨by decide, by decide, by decide,
    ⟨rfl, rfl, witness_equivariance_x128p.2.1, witness_equivariance_x128p.2.2⟩,
    rfl, rfl, witness_equivariance_x1024ss.2.1, witness_equivariance_x1024ss.2.2⟩

/-- Without a ring and on one: the polynomial x^2 and two cycles. -/
theorem witness_JumpMatchesBruteForce :
    (RotationEquivariant cfgX128P ∧ OutputEquivariant cfgX128P ∧ AdvancesBy cfgX128P [4] 2) ∧
      (cfgX1024SS.ring = true ∧ RotationEquivariant cfgX1024SS ∧ OutputEquivariant cfgX1024SS ∧
        AdvancesBy cfgX1024SS [4] 2) :=
  ⟨⟨witness_equivariance_x128p.2.1, witness_equivariance_x128p.2.2, (witness_advancesBy _).2.2⟩,
    rfl, witness_equivariance_x1024ss.2.1, witness_equivariance_x1024ss.2.2,
    (witness_advancesBy _).2.2⟩

/-- Two XBG jumps by one cycle make one by two, in every configuration. -/
theorem composes_xbg (c : Cfg) : Composes c (.xbg 2 []) (.xbg 4 []) 2 := by
  refine ⟨?_, by simp [descriptorCoeffs], by simp [descriptorExponent], fun _ => rfl⟩
  rintro cs ⟨⟩
  exact ⟨_, 1, rfl, (witness_advancesBy _).2.1, (witness_advancesBy _).2.2⟩

/-- REF-L64X128: n LCG jumps by 2^0 make one by 2^k where n = 2^k. -/
theorem composes_lcg (k : Fin 64) : Composes cfgL64X128 (.lcg ⟨0, by decide⟩) (.lcg k) (2 ^ k.val) := by
  refine ⟨by simp [descriptorCoeffs], fun _ => rfl, ?_, by simp [descriptorExponent]⟩
  rintro e ⟨⟩
  exact ⟨_, rfl, (Nat.mul_one _).symm⟩

/-- Two jumps of both sub-generators by one cycle make one by two. -/
theorem composes_both : Composes cfgL64X128ShortJumps (.both 2 [] ⟨0, by decide⟩)
    (.both 4 [] ⟨1, by decide⟩) 2 := by
  refine ⟨?_, by simp [descriptorCoeffs], ?_, by simp [descriptorExponent]⟩
  · rintro cs ⟨⟩
    exact ⟨_, 1, rfl, (witness_advancesBy _).2.1, (witness_advancesBy _).2.2⟩
  · rintro e ⟨⟩
    exact ⟨_, rfl, rfl⟩

/-- The first clause: an XBG without a ring, one with a ring, an LCG, and both sub-generators. -/
theorem witness_LongJumpIsComposedJumps_parts :
    Composes cfgX128P (.xbg 2 []) (.xbg 4 []) 2 ∧
      (CursorAutonomous cfgX1024SS ∧ RotationEquivariant cfgX1024SS ∧
        Composes cfgX1024SS (.xbg 2 []) (.xbg 4 []) 2) ∧
      Composes cfgL64X128 (.lcg ⟨0, by decide⟩) (.lcg ⟨1, by decide⟩) (2 ^ 1) ∧
      Composes cfgL64X128ShortJumps (.both 2 [] ⟨0, by decide⟩) (.both 4 [] ⟨1, by decide⟩) 2 :=
  ⟨composes_xbg _, ⟨witness_equivariance_x1024ss.1, witness_equivariance_x1024ss.2.1,
    composes_xbg _⟩, composes_lcg ⟨1, by decide⟩, composes_both⟩

/-- The second clause on REF-L64X128: 2^32 JUMP and one LONGJUMP. -/
theorem witness_LongJumpIsComposedJumps :
    CursorAutonomous sl64.config ∧ RotationEquivariant sl64.config ∧ 0 < 2 ^ 32 ∧
      Composes sl64.config (.lcg ⟨0, by decide⟩) (.lcg ⟨32, by decide⟩) (2 ^ 32) ∧
      sl64.g = some (bl64 3 3 1 2) ∧ sl64.config.jump = some (.lcg ⟨0, by decide⟩) ∧
      sl64.config.ljump = some (.lcg ⟨32, by decide⟩) :=
  ⟨cursorAutonomous_of_no_ring rfl, rotationEquivariant_of_no_ring rfl, by decide,
    composes_lcg ⟨32, by decide⟩, rfl, rfl, rfl⟩

/-- The second clause on a ring: two JUMP and one LONGJUMP. -/
theorem witness_LongJumpIsComposedJumps_ring :
    s1024Short.config.ring = true ∧ CursorAutonomous s1024Short.config ∧
      RotationEquivariant s1024Short.config ∧
      Composes s1024Short.config (.xbg 2 []) (.xbg 4 []) 2 ∧ s1024Short.g = some b1024Short ∧
      s1024Short.config.jump = some (.xbg 2 []) ∧ s1024Short.config.ljump = some (.xbg 4 []) :=
  ⟨rfl, witness_equivariance_x1024ss.1, witness_equivariance_x1024ss.2.1, composes_xbg _, rfl, rfl,
    rfl⟩

/-- The second clause with descriptors that have both parts: two JUMP and one LONGJUMP. -/
theorem witness_LongJumpIsComposedJumps_both :
    CursorAutonomous sl64Short.config ∧ RotationEquivariant sl64Short.config ∧
      Composes sl64Short.config (.both 2 [] ⟨0, by decide⟩) (.both 4 [] ⟨1, by decide⟩) 2 ∧
      sl64Short.g = some bl64Short ∧
      sl64Short.config.jump = some (.both 2 [] ⟨0, by decide⟩) ∧
      sl64Short.config.ljump = some (.both 4 [] ⟨1, by decide⟩) :=
  ⟨cursorAutonomous_of_no_ring rfl, rotationEquivariant_of_no_ring rfl, composes_both, rfl, rfl,
    rfl⟩

theorem witness_ZeroIsAFixedPoint :
    Linear cfgX128P ∧ (b128 0 0).x = zeroWords _ _ ∧ cfgX128P.kind.isLX = false ∧
      ZeroOutput cfgX128P :=
  ⟨witness_linear_x128p.1, by decide, rfl, witness_linear_x128p.2⟩

theorem witness_LcgStepIsWideMultiplyAdd :
    cfgL64X128.kind.isLX = true ∧ cfgL128X128.kind.isLX = true := ⟨rfl, rfl⟩

theorem half_is_no_natural (n : Nat) :
    ¬ ∃ r : Nat, (2 ^ 52 + 2 ^ 51) * 2 ^ n = r * 2 ^ (n + 52) := by
  rintro ⟨r, h⟩
  have e : r * 2 ^ (n + 52) = (r * 2 ^ 52) * 2 ^ n := by rw [Nat.pow_add]; ring
  rw [e] at h
  have := Nat.eq_of_mul_eq_mul_right (Nat.two_pow_pos n) h
  omega

theorem period_bound (n : Nat) : (2 ^ 128 - 1) * 2 ^ n ≤ (2 ^ 52 + 0) * 2 ^ (n + 76) := by
  rw [Nat.add_comm n, Nat.pow_add, ← Nat.mul_assoc]
  exact Nat.mul_le_mul_right _ (by decide)

theorem one_is_exact (n : Nat) : (2 ^ 52 + 0) * 2 ^ n = 1 * 2 ^ (n + 52) := by
  rw [Nat.pow_add]
  ring

/-- -0.0 is 0 and 1.0 is 1; both are below the period. -/
theorem witness_DencEncodesTheExactDistance :
    ((0x8000000000000000 : Word64).toNat / 2 ^ 52 % 2 ^ 11 = 0 ∧
        (0x8000000000000000 : Word64).toNat % 2 ^ 52 = 0 ∧ 0 < s128.config.period) ∧
      ((0x3FF0000000000000 : Word64).toNat < 2 ^ 63 ∧
        (0x3FF0000000000000 : Word64).toNat / 2 ^ 52 % 2 ^ 11 = 1023 ∧
        (0x3FF0000000000000 : Word64).toNat % 2 ^ 52 = 0 ∧
        (2 ^ 52 + 0) * 2 ^ 1023 = 1 * 2 ^ 1075 ∧ 1 < s128.config.period) := by
  rw [show 1075 = 1023 + 52 from rfl]
  exact ⟨by decide, by decide, by decide, by decide, one_is_exact 1023, by decide⟩

/-- Infinity, -1.0, the smallest subnormal, 1.5, and 2^128 on a generator of period 2^128 - 1. -/
theorem witness_DencRejectsEveryOtherOperand :
    (0x7FF0000000000000 : Word64).toNat / 2 ^ 52 % 2 ^ 11 = 2047 ∧
      2 ^ 63 < (0xBFF0000000000000 : Word64).toNat ∧
      ((1 : Word64).toNat / 2 ^ 52 % 2 ^ 11 = 0 ∧ (1 : Word64).toNat % 2 ^ 52 ≠ 0) ∧
      ((0x3FF8000000000000 : Word64).toNat / 2 ^ 52 % 2 ^ 11 = 1023 ∧
        (0x3FF8000000000000 : Word64).toNat % 2 ^ 52 = 2 ^ 51 ∧
        ¬ ∃ r : Nat, (2 ^ 52 + 2 ^ 51) * 2 ^ 1023 = r * 2 ^ 1075) ∧
      ((0x47F0000000000000 : Word64).toNat / 2 ^ 52 % 2 ^ 11 = 1151 ∧
        s128.config.period * 2 ^ 1075 ≤ (2 ^ 52 + 0) * 2 ^ 1151) := by
  refine ⟨by decide, by decide, by decide, ⟨by decide, by decide, ?_⟩, by decide, ?_⟩
  · rw [show 1075 = 1023 + 52 from rfl]
    exact half_is_no_natural 1023
  · rw [show s128.config.period = 2 ^ 128 - 1 from rfl, show 1151 = 1075 + 76 from rfl]
    exact period_bound 1075

theorem witness_SaveEmitsTheSegments : sl64.g = some (bl64 3 3 1 2) := rfl

/-- The ring's payload with the greatest cursor word, 15, and one of a configuration with an LCG. -/
theorem witness_RestoreLoadsTheSegments :
    (List.replicate 64 (0 : Byte)).length = stateBytes State.reset.config ∧
      State.reset.config.ring = false ∧
      (List.replicate 128 (0 : Byte) ++ [15, 0, 0, 0, 0, 0, 0, 0] ++ List.replicate 16 0).length =
        stateBytes cfgX1024SS ∧
      leNat (slice (List.replicate 128 0 ++ [15, 0, 0, 0, 0, 0, 0, 0] ++ List.replicate 16 0)
        (cfgX1024SS.count * wordBytes cfgX1024SS)
        (cfgX1024SS.count * wordBytes cfgX1024SS + wordBytes cfgX1024SS)) < cfgX1024SS.count := by
  decide +kernel

/-- A payload one byte short, and the least cursor word that is out of range, 16. -/
theorem witness_RestoreRefusesBadPayloads :
    (List.replicate 63 (0 : Byte)).length ≠ stateBytes State.reset.config ∧
      cfgX1024SS.ring = true ∧
      cfgX1024SS.count ≤
        leNat (slice (List.replicate 128 0 ++ [16, 0, 0, 0, 0, 0, 0, 0] ++ List.replicate 16 0)
          (cfgX1024SS.count * wordBytes cfgX1024SS)
          (cfgX1024SS.count * wordBytes cfgX1024SS + wordBytes cfgX1024SS)) := by
  decide +kernel

theorem witness_RestoreUndoesSave :
    sl64.g = some (bl64 3 3 1 2) ∧ (bl64 3 3 1 2).Wf ∧ (bl64 3 3 1 2).bc = 1 ∧
      (bl64 3 3 1 2).hc.getLsbD 63 = true := ⟨rfl, bankl64_wf, rfl, by decide⟩

theorem witness_SaveRestoreSaveGivesTheSameBytes :
    s128.g = some (b128 1 2) ∧ (b128 1 2).Wf := ⟨rfl, bank128_wf⟩

theorem witness_SeedExpandsAndAssigns :
    ([] : List Byte).length % wordBytes State.reset.config = 0 ∧
      (List.replicate 48 (1 : Byte)).length % wordBytes State.reset.config = 0 := by decide

/-- A seed of exactly NATIVE words and one of a word more. -/
theorem witness_OverLengthSeedWordsAreIgnored :
    ((List.replicate 16 (1 : Byte)).length % wordBytes s128.config = 0 ∧
      nativeWords s128.config * wordBytes s128.config ≤ (List.replicate 16 (1 : Byte)).length) ∧
    ((List.replicate 24 (1 : Byte)).length % wordBytes s128.config = 0 ∧
      nativeWords s128.config * wordBytes s128.config ≤ (List.replicate 24 (1 : Byte)).length) := by
  decide

theorem witness_CopyOutSavesTheShadowBank :
    ({ s128 with s := some (b128 3 4) } : State).s = some (b128 3 4) ∧ s128.s = none :=
  ⟨rfl, rfl⟩

end Sys2Proof.Tests
end

section
/-! The effect of a command. Whatever the command, it does one of five things to the machine, and
which one, with which bytes and banks, is settled by bank G alone. `exec_eq_apply_effect` ties this
to `exec`; frames, invariants and what a command depends on are then read off the five cases. -/

namespace Sys2Proof.Machine

/-! ### The five effects -/

/-- What a command can do to the machine. -/
inductive Effect (c : Cfg) where
  /-- Fault entry (spec/60_exceptions.md R245). -/
  | fault (f : FaultCode)
  /-- Bytes for DOUT, both banks kept (spec/10_state.md R36). -/
  | emit (bytes : List Byte)
  /-- A new bank G, and bytes for DOUT. -/
  | load (b : Bank c) (bytes : List Byte)
  /-- The old bank goes to S, the new one to G (spec/41_xbg_jump.md R125). -/
  | jump (before after : Bank c)
  /-- The banks change places (spec/45_codec_seed.md R225). -/
  | exchange

/-- The state after an effect, LAST included. -/
def State.apply (t : State) : Effect t.config → State
  | .fault f => t.raise f
  | .emit bytes => (t.emit bytes).ok
  | .load b bytes => ((t.setG b).emit bytes).ok
  | .jump b b' => ((t.setS b).setG b').ok
  | .exchange => ({ t with g := t.s, s := t.g } : State).ok

@[simp] theorem State.apply_cfg (t : State) (e : Effect t.config) : (t.apply e).cfg = t.cfg := by
  cases e <;> rfl

@[simp] theorem State.apply_cmd (t : State) (e : Effect t.config) : (t.apply e).cmd = t.cmd := by
  cases e <;> rfl

/-- An effect does not see the command stream (spec/10_state.md R34). -/
theorem State.apply_setCmd (t : State) (e : Effect t.config) (stream : List Byte) :
    State.apply { t with cmd := stream } e = { t.apply e with cmd := stream } := by
  cases e <;> rfl

/-! ### The effect of each command -/

/-- The effect of a command that needs bank G (spec/60_exceptions.md R242). -/
def onBank {c : Cfg} (g : Option (Bank c)) (e : Bank c → Effect c) : Effect c :=
  match g with
  | none => .fault .nsd
  | some b => e b

/-- The effect of `do_jump` (spec/41_xbg_jump.md R125). -/
def jumpEffect {c : Cfg} (g : Option (Bank c)) (coeffs : Option (List Word64)) (k : Option Nat) :
    Effect c :=
  onBank g fun b => .jump b (jumped coeffs k b)

/-- The effect of JUMP and LONGJUMP: UNS before NSD (spec/60_exceptions.md R244). -/
def descriptorEffect {c : Cfg} (g : Option (Bank c)) :
    Option (JumpDescriptor c.kind.lcgBits) → Effect c
  | none => .fault .uns
  | some d => jumpEffect g (descriptorCoeffs d) (descriptorExponent d)

/-- The effect of DENC (spec/44_distance_encoder.md R190). -/
def dencEffect (c : Cfg) (d : Word64) : Effect c :=
  match distanceValue d with
  | none => .fault .ijd
  | some r =>
    if r < c.period then .emit (distanceArray (distanceWords c) r) else .fault .ijd

/-- The effect of RESTORE (spec/45_codec_seed.md R214 to R216). -/
def restoreEffect (c : Cfg) (payload : List Byte) : Effect c :=
  if payload.length ≠ stateBytes c ∨ c.count ≤ cursorWord c payload then .fault .ser
  else .load (deserialize c payload) []

/-- The effect of SEED (spec/45_codec_seed.md R220). -/
def seedEffect (c : Cfg) (payload : List Byte) : Effect c :=
  if payload.length % wordBytes c ≠ 0 then .fault .ill
  else .load (assignSeed c (expand c (wWords c.wordBits payload))) []

/-- The effect of a command on a bank G. -/
def effect {c : Cfg} (i : Instr) (g : Option (Bank c)) : Effect c :=
  match i with
  | .next => onBank g fun b => .load (draw b).2 (leBytes (wordBytes c) (draw b).1)
  | .nextint => onBank g fun b => .load (intDraw b).2 (leBytes 4 (intDraw b).1)
  | .nextlong => onBank g fun b => .load (longDraw b).2 (leBytes 8 (longDraw b).1)
  | .nextbool => onBank g fun b => .load (boolDraw b).2 [boolByte (boolDraw b).1]
  | .jump => descriptorEffect g c.jump
  | .longjump => descriptorEffect g c.ljump
  | .denc d => dencEffect c d
  | .jumpv coeffs => if coeffs.isEmpty then .fault .ill else jumpEffect g (some coeffs) none
  | .save => onBank g fun b => .emit (serialize b)
  | .restore payload => restoreEffect c payload
  | .seed payload => seedEffect c payload
  | .xchg => .exchange
  | .umulh a b => .emit (leBytes 8 (umulh a b))
  | .uaddh a b => .emit (leBytes 8 (uaddh a b))
  | .mac128 mh ml xh xl ah al =>
    .emit (leBytes 8 (mac128 mh ml xh xl ah al).1 ++ leBytes 8 (mac128 mh ml xh xl ah al).2)

theorem onBank_elim {c : Cfg} {P : Effect c → Prop} {g : Option (Bank c)} {e : Bank c → Effect c}
    (invalid : P (.fault .nsd)) (valid : ∀ b, g = some b → P (e b)) : P (onBank g e) := by
  cases g with
  | none => exact invalid
  | some b => exact valid b rfl

theorem dencEffect_cases (c : Cfg) (d : Word64) :
    (∃ f, dencEffect c d = .fault f) ∨ ∃ bytes, dencEffect c d = .emit bytes := by
  unfold dencEffect
  split
  · exact .inl ⟨_, rfl⟩
  · split
    · exact .inr ⟨_, rfl⟩
    · exact .inl ⟨_, rfl⟩

/-! ### Every command is its effect -/

theorem State.emit_nil (t : State) : t.emit [] = t := by simp [State.emit]

theorem State.emit_emit (t : State) (a b : List Byte) : (t.emit a).emit b = t.emit (a ++ b) := by
  simp [State.emit]

theorem withG_eq_apply_onBank {t : State} {k : Bank t.config → State}
    {e : Bank t.config → Effect t.config} (h : ∀ b, k b = t.apply (e b)) :
    t.withG k = t.apply (onBank t.g e) := by
  obtain ⟨hg, hk⟩ | ⟨b, hg, hk⟩ := t.withG_cases k
  · rw [hk, hg]; rfl
  · rw [hk, hg, h b]; rfl

theorem jumpBy_eq_apply (t : State) (desc : Option (JumpDescriptor t.config.kind.lcgBits)) :
    jumpBy t desc = t.apply (descriptorEffect t.g desc) := by
  cases desc with
  | none => rfl
  | some d => exact withG_eq_apply_onBank fun _ => rfl

theorem execDenc_eq_apply (d : Word64) (t : State) :
    execDenc d t = .next (t.apply (dencEffect t.config d)) := by
  unfold execDenc dencEffect
  cases distanceValue d with
  | none => rfl
  | some r => by_cases h : r < t.config.period <;> simp only [h, if_true, if_false] <;> rfl

theorem execJumpv_eq_apply (coeffs : List Word64) (t : State) :
    execJumpv coeffs t = .next (t.apply (effect (.jumpv coeffs) t.g)) := by
  cases coeffs with
  | nil => rfl
  | cons c cs => exact congrArg Host.Outcome.next (withG_eq_apply_onBank fun _ => rfl)

theorem execRestore_eq_apply (payload : List Byte) (t : State) :
    execRestore payload t = .next (t.apply (restoreEffect t.config payload)) := by
  unfold execRestore restoreEffect
  by_cases hlen : payload.length ≠ stateBytes t.config
  · rw [if_pos hlen, if_pos (.inl hlen)]; rfl
  · by_cases hcur : t.config.count ≤ cursorWord t.config payload
    · rw [if_neg hlen, if_pos hcur, if_pos (.inr hcur)]; rfl
    · rw [if_neg hlen, if_neg hcur, if_neg (not_or.2 ⟨hlen, hcur⟩), State.apply, State.emit_nil]

theorem execSeed_eq_apply (payload : List Byte) (t : State) :
    execSeed payload t = .next (t.apply (seedEffect t.config payload)) := by
  unfold execSeed seedEffect
  by_cases h : payload.length % wordBytes t.config ≠ 0
  · rw [if_pos h, if_pos h]; rfl
  · rw [if_neg h, if_neg h, State.apply, State.emit_nil]

/-- Everything a command can do: it ends in a next state, its effect applied. -/
theorem exec_eq_apply_effect (i : Instr) (t : State) :
    exec i t = .next (t.apply (effect i t.g)) := by
  cases i with
  | next | nextint | nextlong | nextbool | save =>
    exact congrArg Host.Outcome.next (withG_eq_apply_onBank fun _ => rfl)
  | jump | longjump => exact congrArg Host.Outcome.next (jumpBy_eq_apply t _)
  | denc d => exact execDenc_eq_apply d t
  | jumpv coeffs => exact execJumpv_eq_apply coeffs t
  | restore payload => exact execRestore_eq_apply payload t
  | seed payload => exact execSeed_eq_apply payload t
  | xchg | umulh | uaddh => rfl
  | mac128 mh ml xh xl ah al =>
    exact congrArg (fun u => Host.Outcome.next (State.ok u)) (State.emit_emit t _ _)

/-- A command run with another stream behind it: the same effect, that stream kept. -/
theorem exec_setCmd (i : Instr) (t : State) (stream : List Byte) :
    exec i { t with cmd := stream } = .next { t.apply (effect i t.g) with cmd := stream } := by
  rw [exec_eq_apply_effect, State.apply_setCmd]

/-- Everything a step can do, in effects: wait, raise ILL, or apply the effect of a command; the
packet, if there is one, is consumed. -/
theorem step_effect_cases (t : State) :
    step t = .next t ∨ (∃ rest, step t = .next ((t.consume rest).raise .ill)) ∨
      ∃ rest i, step t = .next ((t.consume rest).apply (effect i t.g)) := by
  obtain ⟨-, h⟩ | ⟨_, rest, _, -, -, h⟩ | ⟨_, rest, i, -, -, h⟩ := step_cases t
  · exact .inl h
  · exact .inr (.inl ⟨rest, h⟩)
  · exact .inr (.inr ⟨rest, i, h.trans (exec_eq_apply_effect i _)⟩)

end Sys2Proof.Machine
end

section
/-! The well-formedness invariant: what keeps LA odd, BC marked and HC shaped in a bank, and the
status registers in range, through every effect. -/

namespace Sys2Proof.Machine

/-! ### Widths -/

theorem wordBits_cases (k : Kind) : k.wordBits = 32 ∨ k.wordBits = 64 := by
  cases k with
  | x32 => exact .inl rfl
  | x64 | lx64 | lx128 => exact .inr rfl

theorem wordBits_pos (k : Kind) : 0 < k.wordBits := by
  have := wordBits_cases k
  omega

theorem lcgBits_pos {k : Kind} (h : k.isLX = true) : 0 < k.lcgBits := by
  cases k with
  | x32 | x64 => cases h
  | lx64 | lx128 => decide

/-! ### Banks -/

theorem Bank.Wf.of_same_la_caches {c : Cfg} {b b' : Bank c} (h : b.Wf)
    (same : b'.la = b.la ∧ b'.bc = b.bc ∧ b'.hc = b.hc) : b'.Wf := by
  obtain ⟨hla, hbc, hhc⟩ := same
  obtain ⟨odd, marked, shaped⟩ := h
  constructor
  · simpa only [Bank.additiveOdd, hla] using odd
  · simpa only [Bank.booleanCacheMarked, hbc] using marked
  · simpa only [Bank.halfCacheShaped, hhc] using shaped

theorem Bank.wf_of_empty_caches {c : Cfg} {b : Bank c} (odd : b.additiveOdd) (hbc : b.bc = 1)
    (hhc : b.hc = BitVec.allOnes _) : b.Wf := by
  refine ⟨odd, ?_, .inl hhc⟩
  rw [Bank.booleanCacheMarked, hbc]
  exact fun h => (wordBits_pos c.kind).ne' (BitVec.one_eq_zero_iff.1 h)

theorem forceOdd_getLsbD_zero {l : Nat} (hl : 0 < l) (v : BitVec l) :
    (forceOdd v).getLsbD 0 = true := by
  simp [forceOdd, hl]

theorem deserialize_wf (c : Cfg) (payload : List Byte) : (deserialize c payload).Wf :=
  Bank.wf_of_empty_caches (fun h => forceOdd_getLsbD_zero (lcgBits_pos h) _) rfl rfl

theorem assignSeed_wf (c : Cfg) (s : List (BitVec c.wordBits)) : (assignSeed c s).Wf :=
  Bank.wf_of_empty_caches (fun h => forceOdd_getLsbD_zero (lcgBits_pos h) _) rfl rfl

theorem jumped_wf {c : Cfg} {b : Bank c} (h : b.Wf) (coeffs : Option (List Word64))
    (k : Option Nat) : (jumped coeffs k b).Wf := by
  obtain ⟨hla, hbc, hhc⟩ := jumped_frame coeffs k b
  refine Bank.wf_of_empty_caches ?_ hbc hhc
  simpa only [Bank.additiveOdd, hla] using h.additiveOdd

theorem draw_wf {c : Cfg} {b : Bank c} (h : b.Wf) : (draw b).2.Wf :=
  h.of_same_la_caches (afterDraw_frame b)

theorem longDraw_wf {c : Cfg} {b : Bank c} (h : b.Wf) : (longDraw b).2.Wf :=
  h.of_same_la_caches (longDraw_frame b)

/-- The high half of a native word, which NEXTINT stashes, is a 32-bit number
(spec/40_word_source.md R103). -/
theorem stashedHalf_lt {c : Cfg} (w : BitVec c.wordBits) :
    ((w >>> 32).setWidth c.kind.hcBits).toNat < 2 ^ 32 := by
  have hbits : c.wordBits ≤ 64 := by
    have := wordBits_cases c.kind
    unfold Cfg.wordBits
    omega
  have hw : w.toNat < 2 ^ 64 := w.isLt.trans_le (Nat.pow_le_pow_right (by decide) hbits)
  calc ((w >>> 32).setWidth c.kind.hcBits).toNat
      ≤ (w >>> 32).toNat := by rw [BitVec.toNat_setWidth]; exact Nat.mod_le _ _
    _ = w.toNat / 2 ^ 32 := by rw [BitVec.toNat_ushiftRight, Nat.shiftRight_eq_div_pow]
    _ < 2 ^ 32 := by omega

theorem intDraw_halfCacheShaped {c : Cfg} {b : Bank c} (h : b.halfCacheShaped) :
    (intDraw b).2.halfCacheShaped := by
  unfold intDraw
  split
  · simpa [Bank.halfCacheShaped] using h
  · split
    · exact .inr (stashedHalf_lt _)
    · exact .inl rfl

theorem intDraw_wf {c : Cfg} {b : Bank c} (h : b.Wf) : (intDraw b).2.Wf := by
  obtain ⟨hla, hbc⟩ := intDraw_frame b
  constructor
  · simpa only [Bank.additiveOdd, hla] using h.additiveOdd
  · simpa only [Bank.booleanCacheMarked, hbc] using h.booleanCacheMarked
  · exact intDraw_halfCacheShaped h.halfCacheShaped

/-- The marker that NEXTBOOL sets over the bits of a new word (spec/40_word_source.md R104). -/
theorem markedWord_ne_zero {w : Nat} (hw : 0 < w) (v : BitVec w) : v ||| (1 <<< (w - 1)) ≠ 0 := by
  intro h
  have hbit := congrArg (BitVec.getLsbD · (w - 1)) h
  simp only [BitVec.getLsbD_or, BitVec.natCast_eq_ofNat, BitVec.getLsbD_ofNat,
    Nat.testBit_shiftLeft] at hbit
  simp [hw] at hbit

/-- Issuing a bit of a cache that holds more than its marker leaves the marker in it (R104). -/
theorem shiftedCache_ne_zero {w : Nat} {v : BitVec w} (h0 : v ≠ 0) (h1 : v ≠ 1) : v >>> 1 ≠ 0 := by
  intro h
  have hhalf : v.toNat / 2 = 0 := by
    simpa [BitVec.toNat_ushiftRight, Nat.shiftRight_eq_div_pow] using congrArg BitVec.toNat h
  have hne : v.toNat ≠ 0 := fun e => h0 (BitVec.eq_of_toNat_eq (by simpa using e))
  have hone : v.toNat = 1 := by omega
  have hlt : 1 < 2 ^ w := hone ▸ v.isLt
  exact h1 (BitVec.eq_of_toNat_eq (hone.trans (Nat.mod_eq_of_lt hlt).symm))

theorem boolDraw_booleanCacheMarked {c : Cfg} {b : Bank c} (h : b.booleanCacheMarked) :
    (boolDraw b).2.booleanCacheMarked := by
  unfold boolDraw
  split
  · exact markedWord_ne_zero (wordBits_pos c.kind) _
  · next hbc => exact shiftedCache_ne_zero h hbc

theorem boolDraw_wf {c : Cfg} {b : Bank c} (h : b.Wf) : (boolDraw b).2.Wf := by
  obtain ⟨hla, hhc⟩ := boolDraw_frame b
  constructor
  · simpa only [Bank.additiveOdd, hla] using h.additiveOdd
  · exact boolDraw_booleanCacheMarked h.booleanCacheMarked
  · simpa only [Bank.halfCacheShaped, hhc] using h.halfCacheShaped

/-! ### Effects -/

/-- Every bank that an effect writes is well formed. -/
def Effect.Wf {c : Cfg} : Effect c → Prop
  | .fault _ => True
  | .emit _ => True
  | .load b _ => b.Wf
  | .jump b b' => b.Wf ∧ b'.Wf
  | .exchange => True

theorem onBank_wf {c : Cfg} {g : Option (Bank c)} {e : Bank c → Effect c}
    (hg : ∀ b, g = some b → b.Wf) (he : ∀ b, b.Wf → (e b).Wf) : (onBank g e).Wf :=
  onBank_elim (P := Effect.Wf) trivial fun b hb => he b (hg b hb)

theorem jumpEffect_wf {c : Cfg} {g : Option (Bank c)} (hg : ∀ b, g = some b → b.Wf)
    (coeffs : Option (List Word64)) (k : Option Nat) : (jumpEffect g coeffs k).Wf :=
  onBank_wf hg fun _ hb => ⟨hb, jumped_wf hb coeffs k⟩

theorem descriptorEffect_wf {c : Cfg} {g : Option (Bank c)} (hg : ∀ b, g = some b → b.Wf)
    (desc : Option (JumpDescriptor c.kind.lcgBits)) : (descriptorEffect g desc).Wf := by
  cases desc with
  | none => trivial
  | some d => exact jumpEffect_wf hg _ _

theorem dencEffect_wf (c : Cfg) (d : Word64) : (dencEffect c d).Wf := by
  obtain ⟨f, h⟩ | ⟨bytes, h⟩ := dencEffect_cases c d
  · rw [h]; trivial
  · rw [h]; trivial

theorem restoreEffect_wf (c : Cfg) (payload : List Byte) : (restoreEffect c payload).Wf := by
  unfold restoreEffect
  split
  · trivial
  · exact deserialize_wf c payload

theorem seedEffect_wf (c : Cfg) (payload : List Byte) : (seedEffect c payload).Wf := by
  unfold seedEffect
  split
  · trivial
  · exact assignSeed_wf c _

theorem effect_wf {c : Cfg} (i : Instr) {g : Option (Bank c)} (hg : ∀ b, g = some b → b.Wf) :
    (effect i g).Wf := by
  cases i with
  | next => exact onBank_wf hg fun _ => draw_wf
  | nextint => exact onBank_wf hg fun _ => intDraw_wf
  | nextlong => exact onBank_wf hg fun _ => longDraw_wf
  | nextbool => exact onBank_wf hg fun _ => boolDraw_wf
  | jump | longjump => exact descriptorEffect_wf hg _
  | denc d => exact dencEffect_wf c d
  | jumpv coeffs =>
    cases coeffs with
    | nil => trivial
    | cons w ws => exact jumpEffect_wf hg _ _
  | save => exact onBank_wf hg fun _ _ => trivial
  | restore payload => exact restoreEffect_wf c payload
  | seed payload => exact seedEffect_wf c payload
  | xchg | umulh | uaddh | mac128 => trivial

/-! ### The status registers -/

theorem FaultCode.lastValue_ne_zero (f : FaultCode) : f.lastValue ≠ 0 := by cases f <;> decide

theorem setFaultBit_getLsbD_of_set {flt : BitVec 8} {n : Nat} (f : FaultCode)
    (h : flt.getLsbD n = true) : (setFaultBit flt f).getLsbD n = true := by
  simp [setFaultBit, h]

theorem setFaultBit_getLsbD_number (flt : BitVec 8) (f : FaultCode) :
    (setFaultBit flt f).getLsbD f.number = true := by
  cases f <;> simp [setFaultBit, FaultCode.number]

/-- The bits of the five faults are none of the hard-wired ones (spec/10_state.md R33). -/
theorem setFaultBit_hardWired {flt : BitVec 8} (h : flt &&& 0xC1 = 0) (f : FaultCode) :
    setFaultBit flt f &&& 0xC1 = 0 := by
  have hbit : 0xC1 &&& (1#8 <<< f.number) = 0 := by cases f <;> decide
  rw [setFaultBit, BitVec.and_comm, BitVec.and_or_distrib_left, BitVec.and_comm _ flt, h, hbit]
  decide

theorem statusWf_zero : StatusWf 0 0 := ⟨by decide, by decide, fun h => absurd rfl h⟩

theorem StatusWf.ok {last : BitVec 4} {flt : BitVec 8} (h : StatusWf last flt) : StatusWf 0 flt :=
  ⟨by decide, h.hardWired, fun h0 => absurd rfl h0⟩

theorem StatusWf.raise {last : BitVec 4} {flt : BitVec 8} (h : StatusWf last flt) (f : FaultCode) :
    StatusWf f.lastValue (setFaultBit flt f) where
  lastIsCode := by cases f <;> decide
  hardWired := setFaultBit_hardWired h.hardWired f
  lastRecorded := fun _ => by
    rw [FaultCode.lastValue_toNat]
    exact setFaultBit_getLsbD_number flt f

/-! ### The machine -/

theorem State.Wf.raise {t : State} (h : t.Wf) (f : FaultCode) : (t.raise f).Wf :=
  ⟨h.active, h.shadow, h.status.raise f⟩

theorem State.Wf.consume {t : State} (h : t.Wf) (rest : List Byte) : (t.consume rest).Wf :=
  ⟨h.active, h.shadow, h.status⟩

theorem State.Wf.apply {t : State} (h : t.Wf) {e : Effect t.config} (he : e.Wf) :
    (t.apply e).Wf := by
  cases e with
  | fault f => exact h.raise f
  | emit bytes => exact ⟨h.active, h.shadow, h.status.ok⟩
  | load b bytes => exact ⟨fun _ hb => Option.some.inj hb ▸ he, h.shadow, h.status.ok⟩
  | jump b b' =>
    obtain ⟨hb, hb'⟩ := he
    exact ⟨fun _ e => Option.some.inj e ▸ hb', fun _ e => Option.some.inj e ▸ hb, h.status.ok⟩
  | exchange => exact ⟨h.shadow, h.active, h.status.ok⟩

theorem step_preserves_wf {t u : State} (ht : t.Wf) (h : step t = .next u) : u.Wf := by
  obtain h' | ⟨rest, h'⟩ | ⟨rest, i, h'⟩ := step_effect_cases t <;>
    obtain rfl := Host.Outcome.next.inj (h.symm.trans h')
  · exact ht
  · exact (ht.consume rest).raise .ill
  · exact (ht.consume rest).apply (effect_wf i ht.active)

theorem resetOf_wf (id : CfgId) : (State.resetOf id).Wf where
  active := fun _ h => nomatch h
  shadow := fun _ h => nomatch h
  status := statusWf_zero

theorem loadProgram_some {t u : State} {stream : List Byte} (h : loadProgram t stream = some u) :
    u = { t with cmd := stream } := by
  unfold loadProgram at h
  split at h
  · exact (Option.some.inj h).symm
  · cases h

/-- Settles O13: each command's effect writes well-formed banks only, and applying such an effect
keeps the state well formed. -/
theorem wellFormedStateKeptByEveryStep : Obligations.WellFormedStateKeptByEveryStep := by
  unfold Obligations.WellFormedStateKeptByEveryStep
  intro t u ht h
  exact step_preserves_wf ht h

/-- Settles O14: no bank is valid, and no fault is recorded. -/
theorem wellFormedAtReset : Obligations.WellFormedAtReset := by
  unfold Obligations.WellFormedAtReset
  exact ⟨resetOf_wf .refL128X128, resetOf_wf⟩

/-- Settles O15, by induction on how the state is reached: the host's acts touch neither bank nor
status. -/
theorem wellFormedInEveryReachableState : Obligations.WellFormedInEveryReachableState := by
  unfold Obligations.WellFormedInEveryReachableState
  intro t h
  induction h with
  | reset id => exact resetOf_wf id
  | load stream _ hload ih =>
    obtain rfl := loadProgram_some hload
    exact ⟨ih.active, ih.shadow, ih.status⟩
  | step _ hstep ih => exact step_preserves_wf ih hstep
  | send bytes _ ih => exact ⟨ih.active, ih.shadow, ih.status⟩
  | take n _ ih => exact ⟨ih.active, ih.shadow, ih.status⟩

end Sys2Proof.Machine
end

section
/-! What runs do: the packets of a stream run in order, and FLT only grows. -/

namespace Sys2Proof

/-! ### The encoding of a command is fetched and decoded to that command -/

theorem legalPayload : ∀ i : Instr, Laws.LegalPayload.Statement i
  | .next => Laws.LegalPayload.next
  | .nextint => Laws.LegalPayload.nextint
  | .nextlong => Laws.LegalPayload.nextlong
  | .nextbool => Laws.LegalPayload.nextbool
  | .jump => Laws.LegalPayload.jump
  | .longjump => Laws.LegalPayload.longjump
  | .denc d => Laws.LegalPayload.denc d
  | .jumpv coeffs => Laws.LegalPayload.jumpv coeffs
  | .save => Laws.LegalPayload.save
  | .restore payload => Laws.LegalPayload.restore payload
  | .seed payload => Laws.LegalPayload.seed payload
  | .xchg => Laws.LegalPayload.xchg
  | .umulh a b => Laws.LegalPayload.umulh a b
  | .uaddh a b => Laws.LegalPayload.uaddh a b
  | .mac128 mh ml xh xl ah al => Laws.LegalPayload.mac128 mh ml xh xl ah al

theorem operandsBack : ∀ i : Instr, Laws.OperandsBack.Statement i
  | .next => Laws.OperandsBack.next
  | .nextint => Laws.OperandsBack.nextint
  | .nextlong => Laws.OperandsBack.nextlong
  | .nextbool => Laws.OperandsBack.nextbool
  | .jump => Laws.OperandsBack.jump
  | .longjump => Laws.OperandsBack.longjump
  | .denc d => Laws.OperandsBack.denc d
  | .jumpv coeffs => Laws.OperandsBack.jumpv coeffs
  | .save => Laws.OperandsBack.save
  | .restore payload => Laws.OperandsBack.restore payload
  | .seed payload => Laws.OperandsBack.seed payload
  | .xchg => Laws.OperandsBack.xchg
  | .umulh a b => Laws.OperandsBack.umulh a b
  | .uaddh a b => Laws.OperandsBack.uaddh a b
  | .mac128 mh ml xh xl ah al => Laws.OperandsBack.mac128 mh ml xh xl ah al

theorem nextPacket_encode {wb : Nat} {i : Instr} (h : i.wellFormed wb = true) (rest : List Byte) :
    nextPacket (encode i ++ rest) = some (encodePacket i, rest) :=
  nextPacket_bytes (encodePacket i) rest (legalPayload i wb h).2

theorem decodePacket_encodePacket {wb : Nat} {i : Instr} (h : i.wellFormed wb = true) :
    decodePacket wb (encodePacket i) = .ok i :=
  decodePacket_ok_iff.2
    ⟨rfl, i.opcode, ofByte_byte i.opcode, (legalPayload i wb h).1, (operandsBack i).symm⟩

namespace Machine

/-! ### Runs over several packets -/

theorem step_encode {t : State} {i : Instr} (h : i.wellFormed (wordBytes t.config) = true)
    (rest : List Byte) :
    step { t with cmd := encode i ++ rest } = exec i { t with cmd := rest } := by
  have hfetch : fetch { t with cmd := encode i ++ rest } = some (.ok i, rest) :=
    (fetch_of_packet (nextPacket_encode h rest)).trans
      (congrArg (fun d => some (d, rest)) (decodePacket_encodePacket h))
  rw [step, hfetch]
  rfl

/-- Settles O10, by induction on the list of commands: the first packet leaves the others and what
follows them in the stream. -/
theorem packetsRunInOrder : Obligations.PacketsRunInOrder := by
  unfold Obligations.PacketsRunInOrder
  intro is
  induction is with
  | nil => intro t rest _; rfl
  | cons i is ih =>
    intro t rest h
    obtain ⟨hi, his⟩ := List.forall_mem_cons.1 h
    have hstep : step { t with cmd := (i :: is).flatMap encode ++ rest } =
        .next { t.apply (effect i t.g) with cmd := is.flatMap encode ++ rest } := by
      rw [List.flatMap_cons, List.append_assoc, step_encode hi, exec_setCmd]
    have his' : ∀ j ∈ is, j.wellFormed (wordBytes (t.apply (effect i t.g)).config) = true := by
      rwa [State.config, State.apply_cfg]
    simp only [List.length_cons, runSteps, runCommands, hstep, exec_setCmd]
    exact ih _ rest his'

/-! ### FLT is sticky -/

theorem apply_flt_sticky {t : State} {n : Nat} (h : t.flt.getLsbD n = true) (e : Effect t.config) :
    (t.apply e).flt.getLsbD n = true := by
  cases e with
  | fault f => exact setFaultBit_getLsbD_of_set f h
  | emit | load | jump | exchange => exact h

theorem step_flt_sticky {t u : State} {n : Nat} (hs : step t = .next u)
    (h : t.flt.getLsbD n = true) : u.flt.getLsbD n = true := by
  obtain h' | ⟨rest, h'⟩ | ⟨rest, i, h'⟩ := step_effect_cases t <;>
    obtain rfl := Host.Outcome.next.inj (hs.symm.trans h')
  · exact h
  · exact setFaultBit_getLsbD_of_set .ill h
  · exact apply_flt_sticky (t := t.consume rest) h _

/-- Settles O19, by induction on the number of steps. -/
theorem faultFlagsAreSticky : Obligations.FaultFlagsAreSticky := by
  unfold Obligations.FaultFlagsAreSticky
  intro n
  induction n with
  | zero =>
    intro t u hr c h
    obtain rfl := Host.Outcome.next.inj hr
    exact h
  | succ n ih =>
    intro t u hr c h
    cases hs : step t with
    | next v =>
      rw [runSteps, hs] at hr
      exact ih v u hr c (step_flt_sticky hs h)
    | fault r => cases r
    | refused r => rw [runSteps, hs] at hr; cases hr

end Machine

end Sys2Proof
end

section
/-! What a command depends on and what it leaves alone, read off its effect. -/

namespace Sys2Proof.Machine

/-! ### LAST, FLT, DOUT and the stream are not read -/

theorem apply_reads_banks_only (id : CfgId) (g s : Option (Bank (cfgOf id)))
    (e : Effect (cfgOf id)) :
    ∃ (g' s' : Option (Bank (cfgOf id))) (code : BitVec 4) (bytes : List Byte),
      ∀ (last : BitVec 4) (flt : BitVec 8) (dout cmd : List Byte),
        State.apply ⟨id, g, s, last, flt, dout, cmd⟩ e =
          ⟨id, g', s', code, if code = 0 then flt else flt ||| (1#8 <<< code.toNat),
            dout ++ bytes, cmd⟩ := by
  cases e with
  | fault f =>
    refine ⟨g, s, f.lastValue, [], fun _ _ _ _ => ?_⟩
    rw [if_neg f.lastValue_ne_zero, FaultCode.lastValue_toNat, List.append_nil]
    rfl
  | emit bytes => exact ⟨g, s, 0, bytes, fun _ _ _ _ => rfl⟩
  | load b bytes => exact ⟨some b, s, 0, bytes, fun _ _ _ _ => rfl⟩
  | jump b b' => exact ⟨some b', some b, 0, [], fun _ _ _ _ => by rw [List.append_nil]; rfl⟩
  | exchange => exact ⟨s, g, 0, [], fun _ _ _ _ => by rw [List.append_nil]; rfl⟩

/-- Settles O20: the effect is a function of the command and bank G, and applying it reads the banks
only. -/
theorem commandsReadOnlyTheBanks : Obligations.CommandsReadOnlyTheBanks := by
  unfold Obligations.CommandsReadOnlyTheBanks
  intro i id g s
  obtain ⟨g', s', code, bytes, h⟩ := apply_reads_banks_only id g s (effect i g)
  refine ⟨g', s', code, bytes, fun last flt dout cmd => ?_⟩
  rw [exec_eq_apply_effect, h]

/-! ### The commands that read the generator or nothing at all -/

theorem effect_of_codecReader {c : Cfg} {i : Instr} (g : Option (Bank c))
    (hi : i = .save ∨ (∃ d, i = .denc d) ∨ (∃ a b, i = .umulh a b) ∨ (∃ a b, i = .uaddh a b) ∨
      ∃ mh ml xh xl ah al, i = .mac128 mh ml xh xl ah al) :
    (∃ f, effect i g = .fault f) ∨ ∃ bytes, effect i g = .emit bytes := by
  obtain rfl | ⟨d, rfl⟩ | ⟨a, b, rfl⟩ | ⟨a, b, rfl⟩ | ⟨mh, ml, xh, xl, ah, al, rfl⟩ := hi
  · cases g with
    | none => exact .inl ⟨.nsd, rfl⟩
    | some b => exact .inr ⟨serialize b, rfl⟩
  · exact dencEffect_cases c d
  · exact .inr ⟨_, rfl⟩
  · exact .inr ⟨_, rfl⟩
  · exact .inr ⟨_, rfl⟩

/-- Settles O22: the effect of each of the five is a fault or bytes for DOUT. -/
theorem codecReadersKeepTheGenerator : Obligations.CodecReadersKeepTheGenerator := by
  unfold Obligations.CodecReadersKeepTheGenerator
  intro i t hi
  rw [exec_eq_apply_effect]
  obtain ⟨f, hf⟩ | ⟨bytes, hb⟩ := effect_of_codecReader t.g hi
  · refine ⟨[], f.lastValue, setFaultBit t.flt f, ?_, ?_, fun _ => rfl⟩
    · rw [hf, List.append_nil]; rfl
    · exact fun h => absurd h f.lastValue_ne_zero
  · refine ⟨bytes, 0, t.flt, ?_, fun _ => rfl, fun h => absurd rfl h⟩
    rw [hb]; rfl

/-! ### The shadow bank -/

/-- The effects that leave S as it is. -/
def Effect.keepsShadow {c : Cfg} : Effect c → Prop
  | .fault _ => True
  | .emit _ => True
  | .load _ _ => True
  | .jump _ _ => False
  | .exchange => False

theorem effect_keepsShadow {c : Cfg} {i : Instr} (g : Option (Bank c)) (hjump : i ≠ .jump)
    (hlongjump : i ≠ .longjump) (hjumpv : ∀ cs, i ≠ .jumpv cs) (hxchg : i ≠ .xchg) :
    (effect i g).keepsShadow := by
  cases i with
  | jump => exact absurd rfl hjump
  | longjump => exact absurd rfl hlongjump
  | jumpv coeffs => exact absurd rfl (hjumpv coeffs)
  | xchg => exact absurd rfl hxchg
  | next | nextint | nextlong | nextbool | save =>
    exact onBank_elim (P := Effect.keepsShadow) trivial fun _ _ => trivial
  | denc d =>
    obtain ⟨f, h⟩ | ⟨bytes, h⟩ := dencEffect_cases c d
    · rw [effect, h]; trivial
    · rw [effect, h]; trivial
  | restore payload =>
    rw [effect, restoreEffect]
    split <;> trivial
  | seed payload =>
    rw [effect, seedEffect]
    split <;> trivial
  | umulh | uaddh | mac128 => trivial

/-- Such an effect does the same to the other fields whatever S holds (spec/10_state.md R30). -/
theorem apply_of_keepsShadow {t : State} {e : Effect t.config} (he : e.keepsShadow) :
    ∃ (g : Option (Bank t.config)) (last : BitVec 4) (flt : BitVec 8) (dout : List Byte),
      ∀ s : Option (Bank t.config), State.apply { t with s := s } e =
        { t with g := g, s := s, last := last, flt := flt, dout := dout } := by
  cases e with
  | fault f => exact ⟨t.g, f.lastValue, setFaultBit t.flt f, t.dout, fun _ => rfl⟩
  | emit bytes => exact ⟨t.g, 0, t.flt, t.dout ++ bytes, fun _ => rfl⟩
  | load b bytes => exact ⟨some b, 0, t.flt, t.dout ++ bytes, fun _ => rfl⟩
  | jump | exchange => exact he.elim

/-- Settles O23: the other commands' effects leave S, and no effect is chosen by it. -/
theorem shadowOnlyForJumpsAndExchange : Obligations.ShadowOnlyForJumpsAndExchange := by
  unfold Obligations.ShadowOnlyForJumpsAndExchange
  intro i t hjump hlongjump hjumpv hxchg
  obtain ⟨g, last, flt, dout, h⟩ :=
    apply_of_keepsShadow (effect_keepsShadow t.g hjump hlongjump hjumpv hxchg)
  refine ⟨g, last, flt, dout, fun s => ?_⟩
  rw [exec_eq_apply_effect, h]

end Sys2Proof.Machine
end

section
/-! Reset and the status register STAT. -/

namespace Sys2Proof.Machine

/-- The bits of STAT from bit 0 up (spec/10_state.md R32). -/
theorem stat_getLsbD (t : State) (n : Nat) :
    t.stat.getLsbD n =
      if n = 0 then t.gValid else if n = 1 then t.sValid else if n < 4 then false
        else t.last.getLsbD (n - 4) := by
  simp only [State.stat, BitVec.getLsbD_append, BitVec.getLsbD_ofBool]
  match n with
  | 0 => simp
  | 1 => simp
  | 2 => simp
  | 3 => simp
  | n + 4 => simp [show ¬ n + 4 < 1 by omega]

theorem stat_resetOf (id : CfgId) : (State.resetOf id).stat = 0 := by
  show 0#4 ++ 0#2 ++ BitVec.ofBool false ++ BitVec.ofBool false = 0#8
  decide

/-- Settles O11: the fields of the reset state, and STAT read off them. -/
theorem resetStateIsAsSpecified : Obligations.ResetStateIsAsSpecified := by
  unfold Obligations.ResetStateIsAsSpecified
  intro t
  exact ⟨rfl, rfl, rfl, rfl, stat_resetOf t.cfg, rfl, rfl, rfl, rfl⟩

/-- Settles O12: each field of STAT read off its bits. -/
theorem statusRegisterFields : Obligations.StatusRegisterFields := by
  unfold Obligations.StatusRegisterFields
  intro t
  refine ⟨stat_getLsbD t 0, stat_getLsbD t 1, ?_, ?_⟩
  · refine BitVec.eq_of_getLsbD_eq fun j hj => ?_
    rw [BitVec.getLsbD_extractLsb', stat_getLsbD, if_neg (by omega), if_neg (by omega),
      if_pos (by omega)]
    simp
  · refine BitVec.eq_of_getLsbD_eq fun j hj => ?_
    rw [BitVec.getLsbD_extractLsb', stat_getLsbD, if_neg (by omega), if_neg (by omega),
      if_neg (by omega), Nat.add_sub_cancel_left]
    simp [hj]

end Sys2Proof.Machine
end

section
/-! The bytes a command appends to DOUT, counted on its effect (spec/20_memory.md R56). -/

namespace Sys2Proof.Machine

/-- An effect that is no fault appends `n` bytes to DOUT. -/
def Effect.emitsCount {c : Cfg} (n : Nat) : Effect c → Prop
  | .fault _ => True
  | .emit bytes => bytes.length = n
  | .load _ bytes => bytes.length = n
  | .jump _ _ => n = 0
  | .exchange => n = 0

/-- Applying an effect appends its bytes, and a fault appends none (spec/60_exceptions.md R245). -/
theorem apply_dout_of_emitsCount {t : State} {n : Nat} {e : Effect t.config}
    (he : e.emitsCount n) :
    ∃ bytes : List Byte, (t.apply e).dout = t.dout ++ bytes ∧
      bytes.length = if (t.apply e).last = 0 then n else 0 := by
  cases e with
  | fault f => exact ⟨[], (List.append_nil _).symm, (if_neg f.lastValue_ne_zero).symm⟩
  | emit bytes => exact ⟨bytes, rfl, he⟩
  | load b bytes => exact ⟨bytes, rfl, he⟩
  | jump | exchange => exact ⟨[], (List.append_nil _).symm, he.symm⟩

/-- The byte counts of spec/20_memory.md R56. -/
def bytesEmitted (c : Cfg) : Instr → Nat
  | .next => wordBytes c
  | .nextint => 4
  | .nextlong => 8
  | .nextbool => 1
  | .denc _ => 8 * distanceWords c
  | .save => stateBytes c
  | .umulh _ _ => 8
  | .uaddh _ _ => 8
  | .mac128 _ _ _ _ _ _ => 16
  | .jump | .longjump | .jumpv _ | .restore _ | .seed _ | .xchg => 0

theorem onBank_emitsCount {c : Cfg} {n : Nat} {e : Bank c → Effect c} (g : Option (Bank c))
    (he : ∀ b, (e b).emitsCount n) : (onBank g e).emitsCount n :=
  onBank_elim (P := Effect.emitsCount n) trivial fun b _ => he b

theorem descriptorEffect_emitsCount {c : Cfg} (g : Option (Bank c))
    (desc : Option (JumpDescriptor c.kind.lcgBits)) : (descriptorEffect g desc).emitsCount 0 := by
  cases desc with
  | none => trivial
  | some d => exact onBank_emitsCount g fun _ => rfl

theorem dencEffect_emitsCount (c : Cfg) (d : Word64) :
    (dencEffect c d).emitsCount (8 * distanceWords c) := by
  unfold dencEffect
  split
  · trivial
  · split
    · exact distanceArray_length _ _
    · trivial

theorem restoreEffect_emitsCount (c : Cfg) (payload : List Byte) :
    (restoreEffect c payload).emitsCount 0 := by
  unfold restoreEffect
  split
  · trivial
  · rfl

theorem seedEffect_emitsCount (c : Cfg) (payload : List Byte) :
    (seedEffect c payload).emitsCount 0 := by
  unfold seedEffect
  split
  · trivial
  · rfl

theorem effect_emitsCount {c : Cfg} (i : Instr) (g : Option (Bank c)) :
    (effect i g).emitsCount (bytesEmitted c i) := by
  cases i with
  | next | nextint | nextlong => exact onBank_emitsCount g fun _ => leBytes_length _ _
  | nextbool => exact onBank_emitsCount g fun _ => rfl
  | jump | longjump => exact descriptorEffect_emitsCount g _
  | denc d => exact dencEffect_emitsCount c d
  | jumpv coeffs =>
    cases coeffs with
    | nil => trivial
    | cons w ws => exact onBank_emitsCount g fun _ => rfl
  | save => exact onBank_emitsCount g serialize_length
  | restore payload => exact restoreEffect_emitsCount c payload
  | seed payload => exact seedEffect_emitsCount c payload
  | xchg => rfl
  | umulh | uaddh => exact leBytes_length _ _
  | mac128 =>
    rw [effect, Effect.emitsCount, List.length_append, leBytes_length, leBytes_length]
    rfl

/-- Settles O21: each command's effect is a fault or carries the bytes R56 counts. -/
theorem bytesEmittedByEachCommand : Obligations.BytesEmittedByEachCommand := by
  unfold Obligations.BytesEmittedByEachCommand
  intro i t u h
  rw [exec_eq_apply_effect] at h
  cases h
  have hout := apply_dout_of_emitsCount (effect_emitsCount i t.g)
  cases i <;> exact hout

end Sys2Proof.Machine
end

section
/-! Decoding undoes encoding: an opcode's operands, read from a payload of a length it admits, send
that payload again (spec/30_encoding.md R74 to R76). -/

namespace Sys2Proof

open Machine

/-! ### A payload is its 64-bit words -/

theorem w64_succ (payload : List Byte) (i : Nat) :
    w64 payload (i + 1) = w64 (payload.drop 8) i := by
  simp only [w64, slice, List.drop_drop, Nat.mul_succ, Nat.add_comm (8 * i) 8]
  congr 2
  omega

theorem w64s_succ (payload : List Byte) (n : Nat) :
    w64s payload (n + 1) = w64 payload 0 :: w64s (payload.drop 8) n := by
  simp [w64s, List.range_succ_eq_map, Function.comp_def, w64_succ]

theorem leBytes_w64_zero {payload : List Byte} (h : 8 ≤ payload.length) :
    leBytes 8 (w64 payload 0) = payload.take 8 := by
  have hlen : (payload.take 8).length = 8 := List.length_take_of_le h
  have hback := leBytes_leWord (payload.take 8) (w := 64) (by omega)
  rwa [hlen] at hback

/-- Sending the words read from a payload of `n` whole words sends that payload. -/
theorem w64s_flatMap_leBytes {n : Nat} {payload : List Byte} (h : payload.length = 8 * n) :
    (w64s payload n).flatMap (leBytes 8) = payload := by
  induction n generalizing payload with
  | zero => simpa [w64s] using (List.length_eq_zero_iff.1 h).symm
  | succ n ih =>
    have hrest : (payload.drop 8).length = 8 * n := by rw [List.length_drop]; omega
    rw [w64s_succ, List.flatMap_cons, leBytes_w64_zero (by omega), ih hrest, List.take_append_drop]

/-! ### The command an opcode makes of a payload -/

@[simp] theorem operands_opcode (o : Opcode) (payload : List Byte) :
    (o.operands payload).opcode = o := by
  cases o <;> rfl

theorem lengthLegal_of_fixed {o : Opcode} {n : Nat} (ho : o.fixedLength = some n) (wb plen : Nat) :
    o.lengthLegal wb plen = true ↔ plen = n := by
  simp [Opcode.lengthLegal, ho]

theorem lengthLegal_jumpv (wb plen : Nat) :
    Opcode.jumpv.lengthLegal wb plen = true ↔ 8 ≤ plen ∧ plen % 8 = 0 := by
  simp [Opcode.lengthLegal, Opcode.fixedLength]

theorem lengthLegal_seed (wb plen : Nat) :
    Opcode.seed.lengthLegal wb plen = true ↔ plen % wb = 0 := by
  simp [Opcode.lengthLegal, Opcode.fixedLength]

theorem operands_payload {wb : Nat} {o : Opcode} {payload : List Byte}
    (h : o.lengthLegal wb payload.length = true) : (o.operands payload).payload = payload := by
  cases o with
  | next | nextint | nextlong | nextbool | jump | longjump | save | xchg =>
    exact (List.length_eq_zero_iff.1 ((lengthLegal_of_fixed rfl wb _).1 h)).symm
  | denc =>
    have hwords := w64s_flatMap_leBytes (n := 1) ((lengthLegal_of_fixed rfl wb _).1 h)
    simpa [Opcode.operands, Instr.payload, w64s, List.range_succ] using hwords
  | umulh | uaddh =>
    have hwords := w64s_flatMap_leBytes (n := 2) ((lengthLegal_of_fixed rfl wb _).1 h)
    simpa [Opcode.operands, Instr.payload, w64s, List.range_succ] using hwords
  | mac128 =>
    have hwords := w64s_flatMap_leBytes (n := 6) ((lengthLegal_of_fixed rfl wb _).1 h)
    simpa [Opcode.operands, Instr.payload, w64s, List.range_succ] using hwords
  | jumpv =>
    obtain ⟨-, hwords⟩ := (lengthLegal_jumpv wb _).1 h
    exact w64s_flatMap_leBytes (by omega)
  | restore | seed => rfl

theorem operands_wellFormed {wb : Nat} {o : Opcode} {payload : List Byte}
    (h : o.lengthLegal wb payload.length = true) (hmax : payload.length ≤ maxPayload) :
    (o.operands payload).wellFormed wb = true := by
  cases o with
  | next | nextint | nextlong | nextbool | jump | longjump | denc | save | xchg | umulh | uaddh
  | mac128 => rfl
  | jumpv =>
    obtain ⟨hone, hwords⟩ := (lengthLegal_jumpv wb _).1 h
    have hlen := w64s_length payload (payload.length / 8)
    simp only [Opcode.operands, Instr.wellFormed, Bool.and_eq_true, Bool.not_eq_true',
      List.isEmpty_eq_false_iff, ← List.length_pos_iff, decide_eq_true_eq, hlen]
    omega
  | restore => exact decide_eq_true hmax
  | seed =>
    have hwords := (lengthLegal_seed wb _).1 h
    simp [Opcode.operands, Instr.wellFormed, hwords, hmax]

/-! ### The two round trips -/

/-- Settles O5. -/
theorem commandsRoundTripThroughDecoder : Obligations.CommandsRoundTripThroughDecoder := by
  unfold Obligations.CommandsRoundTripThroughDecoder
  intro wb i rest h
  exact ⟨nextPacket_encode h rest, decodePacket_encodePacket h⟩

theorem encodePacket_of_decodePacket {wb : Nat} {p : Packet} {i : Instr}
    (h : decodePacket wb p = .ok i) : encodePacket i = p := by
  obtain ⟨hrsv, o, hop, hlegal, rfl⟩ := decodePacket_ok_iff.1 h
  obtain ⟨op, rsv, payload⟩ := p
  rw [encodePacket, operands_opcode, byte_of_ofByte hop, operands_payload hlegal, ← hrsv]

theorem wellFormed_of_decodePacket {wb : Nat} {p : Packet} {i : Instr}
    (h : decodePacket wb p = .ok i) (hmax : p.payload.length ≤ maxPayload) :
    i.wellFormed wb = true := by
  obtain ⟨-, o, -, hlegal, rfl⟩ := decodePacket_ok_iff.1 h
  exact operands_wellFormed hlegal hmax

/-- Settles O6: the framed packet stands at the head of the stream, and the operands read from its
payload are sent as that payload. -/
theorem decodedPacketsEncodeBack : Obligations.DecodedPacketsEncodeBack := by
  unfold Obligations.DecodedPacketsEncodeBack
  intro wb stream rest p i hframe hdecode
  obtain ⟨hstream, hmax⟩ := nextPacket_some hframe
  have hpacket := encodePacket_of_decodePacket hdecode
  exact ⟨wellFormed_of_decodePacket hdecode hmax, hpacket, by rw [encode, hpacket, hstream]⟩

end Sys2Proof
end

section
/-! Framing: a packet is told by its length alone, an incomplete one waits, and a byte string is its
packets and a remainder (spec/30_encoding.md R70 to R73). -/

namespace Sys2Proof

open Machine

/-! ### One step on a framed packet -/

namespace Machine

theorem step_of_decoded {t : State} {p : Packet} {rest : List Byte} {i : Instr}
    (hframe : nextPacket t.cmd = some (p, rest))
    (hdecode : decodePacket (wordBytes t.config) p = .ok i) :
    step t = exec i { t with cmd := rest } := by
  rw [step, fetch_of_packet hframe, hdecode]
  rfl

theorem step_of_illegal {t : State} {p : Packet} {rest : List Byte} {e : Illegal}
    (hframe : nextPacket t.cmd = some (p, rest))
    (hdecode : decodePacket (wordBytes t.config) p = .error e) :
    step t = .next { t with cmd := rest, last := 1, flt := t.flt ||| 2 } := by
  rw [step, fetch_of_packet hframe, hdecode]
  rfl

theorem step_of_incomplete {t : State} (h : nextPacket t.cmd = none) : step t = .next t := by
  rw [step, fetch_none h]

/-- Whatever the packet is, a step consumes exactly it (spec/30_encoding.md R72). -/
theorem step_consumes {t : State} {p : Packet} {rest : List Byte}
    (hframe : nextPacket t.cmd = some (p, rest)) : ∃ u, step t = .next u ∧ u.cmd = rest := by
  cases hdecode : decodePacket (wordBytes t.config) p with
  | error e => exact ⟨_, step_of_illegal hframe hdecode, rfl⟩
  | ok i => exact ⟨_, (step_of_decoded hframe hdecode).trans (exec_setCmd i t rest), rfl⟩

/-- Settles O1. -/
theorem stepRunsDecodedCommand : Obligations.StepRunsDecodedCommand := by
  unfold Obligations.StepRunsDecodedCommand
  intro t p rest i hframe hdecode
  exact step_of_decoded hframe hdecode

end Machine

/-! ### The bytes of a packet -/

theorem Packet.bytes_eq {p : Packet} (h : p.payload.length ≤ 65535) :
    p.bytes = [p.op, p.rsv, BitVec.ofNat 8 (p.payload.length % 256),
      BitVec.ofNat 8 (p.payload.length / 256)] ++ p.payload := by
  rw [Packet.bytes, Packet.header, header_bytes p.op p.rsv p.payload.length h]

theorem Packet.bytes_length (p : Packet) : p.bytes.length = 4 + p.payload.length := by
  rw [Packet.bytes, List.length_append, leBytes_length]

/-- Settles O2: the stream begins with the packet's bytes, and framing gives back a packet that was
put there. -/
theorem framingIsByLengthAlone : Obligations.FramingIsByLengthAlone := by
  unfold Obligations.FramingIsByLengthAlone
  intro op rsv payload rest hlen stream
  have hstream : stream = (Packet.mk op rsv payload).bytes ++ rest := by
    rw [Packet.bytes_eq hlen]
  have hframe : nextPacket stream = some (⟨op, rsv, payload⟩, rest) := by
    rw [hstream]
    exact nextPacket_bytes _ rest hlen
  refine ⟨hframe, fun t ht => ?_⟩
  rw [← ht] at hframe
  exact step_consumes hframe

/-! ### The packets of a byte string -/

/-- Every packet's length is one plen can say (spec/30_encoding.md R70). -/
def Framable (ps : List Packet) : Prop := ∀ p ∈ ps, p.payload.length ≤ 65535

theorem framable_nil : Framable [] := fun _ h => nomatch h

theorem nextPacket_rest_length {stream rest : List Byte} {p : Packet}
    (h : nextPacket stream = some (p, rest)) : rest.length + 4 ≤ stream.length := by
  obtain ⟨rfl, -⟩ := nextPacket_some h
  rw [List.length_append, Packet.bytes_length]
  omega

theorem splitPacketsFuel_of_none {stream : List Byte} (h : nextPacket stream = none) (fuel : Nat) :
    splitPacketsFuel fuel stream = ([], stream) := by
  cases fuel <;> simp [splitPacketsFuel, h]

theorem splitPacketsFuel_of_some {stream rest : List Byte} {p : Packet}
    (h : nextPacket stream = some (p, rest)) (fuel : Nat) :
    splitPacketsFuel (fuel + 1) stream =
      (p :: (splitPacketsFuel fuel rest).1, (splitPacketsFuel fuel rest).2) := by
  simp [splitPacketsFuel, h]

/-- What splitting can answer: packets that stand in the stream before the remainder, and, with fuel
enough, a remainder that holds no packet. -/
theorem splitPacketsFuel_spec (fuel : Nat) (stream : List Byte) :
    Framable (splitPacketsFuel fuel stream).1 ∧
      stream = (splitPacketsFuel fuel stream).1.flatMap Packet.bytes ++
        (splitPacketsFuel fuel stream).2 ∧
      (stream.length ≤ fuel → nextPacket (splitPacketsFuel fuel stream).2 = none) := by
  induction fuel generalizing stream with
  | zero =>
    refine ⟨framable_nil, rfl, fun h => ?_⟩
    obtain rfl := List.length_eq_zero_iff.1 (Nat.le_zero.1 h)
    rfl
  | succ fuel ih =>
    cases hframe : nextPacket stream with
    | none =>
      rw [splitPacketsFuel_of_none hframe]
      exact ⟨framable_nil, rfl, fun _ => hframe⟩
    | some q =>
      obtain ⟨p, rest⟩ := q
      obtain ⟨hps, hrest, hend⟩ := ih rest
      obtain ⟨hstream, hp⟩ := nextPacket_some hframe
      have hshorter := nextPacket_rest_length hframe
      rw [splitPacketsFuel_of_some hframe]
      refine ⟨List.forall_mem_cons.2 ⟨hp, hps⟩, ?_, fun h => hend (by omega)⟩
      rw [List.flatMap_cons, List.append_assoc, ← hrest, hstream]

/-- Splitting finds the packets a byte string was made of. -/
theorem splitPacketsFuel_flatMap {ps : List Packet} (hps : Framable ps) {fuel : Nat}
    (hfuel : ps.length ≤ fuel) {tail : List Byte} (htail : nextPacket tail = none) :
    splitPacketsFuel fuel (ps.flatMap Packet.bytes ++ tail) = (ps, tail) := by
  induction ps generalizing fuel with
  | nil => exact splitPacketsFuel_of_none htail fuel
  | cons p ps ih =>
    obtain ⟨hp, hps⟩ := List.forall_mem_cons.1 hps
    cases fuel with
    | zero => cases hfuel
    | succ fuel =>
      rw [List.flatMap_cons, List.append_assoc, splitPacketsFuel_of_some (nextPacket_bytes p _ hp),
        ih hps (Nat.le_of_succ_le_succ hfuel)]

theorem length_le_flatMap_bytes (ps : List Packet) :
    ps.length ≤ (ps.flatMap Packet.bytes).length := by
  induction ps with
  | nil => exact Nat.le_refl 0
  | cons p ps ih =>
    rw [List.flatMap_cons, List.length_append, Packet.bytes_length, List.length_cons]
    omega

theorem splitPackets_flatMap {ps : List Packet} (hps : Framable ps) :
    splitPackets (ps.flatMap Packet.bytes) = (ps, []) := by
  have h := splitPacketsFuel_flatMap hps (length_le_flatMap_bytes ps) (tail := []) rfl
  rwa [List.append_nil] at h

namespace Machine

/-- A byte string is a program exactly when it is packets and nothing else (spec/30_encoding.md
R73). -/
theorem isProgram_iff (stream : List Byte) :
    isProgram stream = true ↔ ∃ ps, Framable ps ∧ stream = ps.flatMap Packet.bytes := by
  rw [isProgram, List.isEmpty_iff]
  constructor
  · intro hend
    obtain ⟨hps, hstream, -⟩ := splitPacketsFuel_spec stream.length stream
    refine ⟨(splitPackets stream).1, hps, ?_⟩
    rw [← splitPackets, hend, List.append_nil] at hstream
    exact hstream
  · rintro ⟨ps, hps, rfl⟩
    rw [splitPackets_flatMap hps]

/-- Settles O3: an incomplete packet is not fetched, splitting keeps every byte, and splitting a
list of packets leaves nothing. -/
theorem incompletePacketsWaitAndAreNoProgram :
    Obligations.IncompletePacketsWaitAndAreNoProgram := by
  unfold Obligations.IncompletePacketsWaitAndAreNoProgram
  refine ⟨fun t h => step_of_incomplete (nextPacket_none.2 h), fun stream => ?_,
    fun t stream => ⟨fun h => ?_, fun h => ?_⟩⟩
  · obtain ⟨-, hstream, hend⟩ := splitPacketsFuel_spec stream.length stream
    exact ⟨hstream, hend (Nat.le_refl _)⟩
  · exact if_pos ((isProgram_iff stream).2 h)
  · exact if_neg fun hprogram => h ((isProgram_iff stream).1 hprogram)

end Machine

end Sys2Proof
end

section
/-! The opcode map (spec/30_encoding.md R75 to R79): which packets are illegal, and the map read as
match and mask. -/

namespace Sys2Proof

open Machine

/-! ### The illegal packets -/

/-- The opcode map, read from both sides (spec/30_encoding.md R77). -/
theorem ofByte_eq_some_iff {op : Byte} {o : Opcode} : Opcode.ofByte op = some o ↔ op = o.byte :=
  ⟨fun h => (byte_of_ofByte h).symm, fun h => h ▸ ofByte_byte o⟩

theorem byte_injective {o o' : Opcode} (h : o.byte = o'.byte) : o = o' :=
  Option.some.inj ((ofByte_byte o).symm.trans (ofByte_eq_some_iff.2 h))

/-- The fifteen values of `op`, as R78 counts them. -/
def opcodeBytes : List Byte :=
  [0x01#8, 0x02#8, 0x03#8, 0x04#8, 0x10#8, 0x11#8, 0x12#8, 0x13#8, 0x20#8, 0x21#8, 0x22#8, 0x23#8,
    0x30#8, 0x31#8, 0x32#8]

theorem mem_opcodeBytes_iff {op : Byte} : op ∈ opcodeBytes ↔ ∃ o : Opcode, op = o.byte := by
  constructor
  · intro h
    have hmap : op ∈ Opcode.all.map Opcode.byte := h
    obtain ⟨o, -, rfl⟩ := List.mem_map.1 hmap
    exact ⟨o, rfl⟩
  · rintro ⟨o, rfl⟩
    cases o <;> decide

/-- The payload lengths that break R75 or R76, written on the `op` byte. -/
def LengthIllegal (wb : Nat) (op : Byte) (n : Nat) : Prop :=
  (op ∈ [0x01#8, 0x02#8, 0x03#8, 0x04#8, 0x10#8, 0x11#8, 0x20#8, 0x23#8] ∧ n ≠ 0) ∨
  (op = 0x12#8 ∧ n ≠ 8) ∨
  (op ∈ [0x30#8, 0x31#8] ∧ n ≠ 16) ∨
  (op = 0x32#8 ∧ n ≠ 48) ∨
  (op = 0x13#8 ∧ (n < 8 ∨ n % 8 ≠ 0)) ∨
  (op = 0x22#8 ∧ n % wb ≠ 0)

theorem lengthIllegal_iff (wb : Nat) (o : Opcode) (n : Nat) :
    LengthIllegal wb o.byte n ↔ ¬ o.lengthLegal wb n = true := by
  cases o with
  | jumpv =>
    rw [lengthLegal_jumpv, not_and_or, Nat.not_le]
    simp [LengthIllegal, Opcode.byte]
  | seed =>
    rw [lengthLegal_seed]
    simp [LengthIllegal, Opcode.byte]
  | restore => simp [LengthIllegal, Opcode.byte, Opcode.lengthLegal, Opcode.fixedLength]
  | next | nextint | nextlong | nextbool | jump | longjump | denc | save | xchg | umulh | uaddh
  | mac128 =>
    rw [lengthLegal_of_fixed rfl]
    simp [LengthIllegal, Opcode.byte]

/-- The conditions of R78. -/
def PacketIllegal (wb : Nat) (p : Packet) : Prop :=
  p.rsv ≠ 0 ∨ p.op ∉ opcodeBytes ∨ LengthIllegal wb p.op p.payload.length

/-- A packet that meets none of the conditions of R78 is legal (R79), and no other is. -/
theorem decodes_iff_not_illegal {wb : Nat} {p : Packet} :
    (∃ i, decodePacket wb p = .ok i) ↔ ¬ PacketIllegal wb p := by
  simp only [decodePacket_ok_iff, ofByte_eq_some_iff, PacketIllegal, not_or, not_not,
    mem_opcodeBytes_iff]
  constructor
  · rintro ⟨_, hrsv, o, hop, hlegal, -⟩
    rw [hop, lengthIllegal_iff]
    exact ⟨hrsv, ⟨o, rfl⟩, not_not.2 hlegal⟩
  · rintro ⟨hrsv, ⟨o, hop⟩, hlength⟩
    rw [hop, lengthIllegal_iff, not_not] at hlength
    exact ⟨_, hrsv, o, hop, hlength, rfl⟩

theorem decodePacket_of_illegal {wb : Nat} {p : Packet} (h : PacketIllegal wb p) :
    ∃ e, decodePacket wb p = .error e := by
  cases hdecode : decodePacket wb p with
  | error e => exact ⟨e, rfl⟩
  | ok i => exact absurd h (decodes_iff_not_illegal.1 ⟨i, hdecode⟩)

/-- Settles O4: R78's conditions are those on which the decoder answers no command. -/
theorem illegalPacketRaisesIll : Obligations.IllegalPacketRaisesIll := by
  unfold Obligations.IllegalPacketRaisesIll
  intro t p rest hframe n illegal
  constructor
  · intro h
    obtain ⟨e, hdecode⟩ := decodePacket_of_illegal (wb := wordBytes t.config) (p := p) h
    exact step_of_illegal hframe hdecode
  · intro h
    obtain ⟨i, hdecode⟩ := decodes_iff_not_illegal (wb := wordBytes t.config) (p := p).2 h
    exact ⟨i, hdecode, step_of_decoded hframe hdecode⟩

/-! ### The opcode map as match and mask -/

/-- The row of the map for an opcode: plen is matched where R75 fixes it, rsv and op always. -/
def Opcode.row (o : Opcode) : OpcodeRow where
  op := o
  matchBits := BitVec.ofNat 16 (o.fixedLength.getD 0) ++ (0 : Byte) ++ o.byte
  mask := (if o.fixedLength.isSome then BitVec.allOnes 16 else 0) ++ BitVec.allOnes 8 ++
    BitVec.allOnes 8

theorem mem_opcodeTable_iff {r : OpcodeRow} : r ∈ opcodeTable ↔ ∃ o : Opcode, r = o.row := by
  have htable : opcodeTable = Opcode.all.map Opcode.row := by decide
  constructor
  · intro h
    obtain ⟨o, -, rfl⟩ := List.mem_map.1 (htable ▸ h)
    exact ⟨o, rfl⟩
  · rintro ⟨o, rfl⟩
    exact htable ▸ List.mem_map_of_mem (by cases o <;> decide)

theorem bitVec_append_eq_append_iff {v w : Nat} {a a' : BitVec v} {b b' : BitVec w} :
    a ++ b = a' ++ b' ↔ a = a' ∧ b = b' := by
  refine ⟨fun h => ?_, fun ⟨ha, hb⟩ => ha ▸ hb ▸ rfl⟩
  have hb : b = b' := by
    simpa only [BitVec.extractLsb'_append_eq_right] using congrArg (BitVec.extractLsb' 0 w) h
  subst hb
  exact ⟨(BitVec.append_left_inj b).1 h, rfl⟩

/-- A header selects an opcode's row exactly when rsv is 0, op is the opcode's byte, and plen is
what R75 fixes it to, if anything. -/
theorem row_selects_iff (o : Opcode) (plen : BitVec 16) (rsv op : Byte) :
    o.row.selects (plen ++ rsv ++ op) = true ↔
      (∀ n, o.fixedLength = some n → plen = BitVec.ofNat 16 n) ∧ rsv = 0 ∧ op = o.byte := by
  rw [OpcodeRow.selects, Opcode.row, beq_iff_eq, BitVec.and_append, BitVec.and_append,
    bitVec_append_eq_append_iff, bitVec_append_eq_append_iff, BitVec.and_allOnes,
    BitVec.and_allOnes, and_assoc]
  refine and_congr_left fun _ => ?_
  cases o.fixedLength with
  | none => simp
  | some n =>
    rw [Option.isSome_some, if_pos rfl, BitVec.and_allOnes]
    simp

theorem exists_row_selects_iff (o : Opcode) (h : BitVec 32) :
    (∃ r ∈ opcodeTable, r.op = o ∧ r.selects h = true) ↔ o.row.selects h = true := by
  constructor
  · rintro ⟨r, hr, rfl, hsel⟩
    obtain ⟨o, rfl⟩ := mem_opcodeTable_iff.1 hr
    exact hsel
  · exact fun hsel => ⟨o.row, mem_opcodeTable_iff.2 ⟨o, rfl⟩, rfl, hsel⟩

/-- A header is its three fields (spec/30_encoding.md R71). -/
theorem header_eq_fields (h : BitVec 32) :
    h = h.extractLsb' 16 16 ++ h.extractLsb' 8 8 ++ h.extractLsb' 0 8 := by
  rw [BitVec.extractLsb'_append_extractLsb'_eq_extractLsb' (by rfl),
    BitVec.extractLsb'_append_extractLsb'_eq_extractLsb' (by rfl), BitVec.extractLsb'_eq_self]

theorem row_unique {h : BitVec 32} {r r' : OpcodeRow} (hr : r ∈ opcodeTable)
    (hr' : r' ∈ opcodeTable) (hsel : r.selects h = true) (hsel' : r'.selects h = true) : r = r' := by
  obtain ⟨o, rfl⟩ := mem_opcodeTable_iff.1 hr
  obtain ⟨o', rfl⟩ := mem_opcodeTable_iff.1 hr'
  rw [header_eq_fields h, row_selects_iff] at hsel hsel'
  obtain ⟨-, -, hop⟩ := hsel
  obtain ⟨-, -, hop'⟩ := hsel'
  rw [byte_injective (hop.symm.trans hop')]

theorem fixedLength_le {o : Opcode} {n : Nat} (h : o.fixedLength = some n) : n ≤ 65535 := by
  cases o <;> cases h <;> decide

theorem row_selects_header_iff (o : Opcode) {p : Packet} (hlen : p.payload.length ≤ 65535) :
    o.row.selects p.header = true ↔
      (∀ n, o.fixedLength = some n → p.payload.length = n) ∧ p.rsv = 0 ∧ p.op = o.byte := by
  rw [Packet.header, row_selects_iff]
  refine and_congr_left fun _ => forall₂_congr fun n hn => ?_
  have hmax := fixedLength_le hn
  rw [← BitVec.toNat_inj, BitVec.toNat_ofNat, BitVec.toNat_ofNat, Nat.mod_eq_of_lt (by omega),
    Nat.mod_eq_of_lt (by omega)]

/-- The lengths an opcode admits, R75 and R76 apart. -/
theorem lengthLegal_iff (wb : Nat) (o : Opcode) (plen : Nat) :
    o.lengthLegal wb plen = true ↔
      (∀ n, o.fixedLength = some n → plen = n) ∧ (o = .jumpv → 8 ≤ plen ∧ plen % 8 = 0) ∧
        (o = .seed → plen % wb = 0) := by
  cases o with
  | jumpv => simp [lengthLegal_jumpv, Opcode.fixedLength]
  | seed => simp [lengthLegal_seed, Opcode.fixedLength]
  | restore => simp [Opcode.lengthLegal, Opcode.fixedLength]
  | next | nextint | nextlong | nextbool | jump | longjump | denc | save | xchg | umulh | uaddh
  | mac128 =>
    rw [lengthLegal_of_fixed rfl]
    simp [Opcode.fixedLength]

/-- When the decoder answers a command of a given opcode. -/
theorem decodes_opcode_iff {wb : Nat} {p : Packet} {o : Opcode} :
    (∃ i, decodePacket wb p = .ok i ∧ i.opcode = o) ↔
      (p.rsv = 0 ∧ p.op = o.byte) ∧ o.lengthLegal wb p.payload.length = true := by
  simp only [decodePacket_ok_iff, ofByte_eq_some_iff]
  constructor
  · rintro ⟨_, ⟨hrsv, o', hop, hlegal, rfl⟩, rfl⟩
    rw [operands_opcode]
    exact ⟨⟨hrsv, hop⟩, hlegal⟩
  · rintro ⟨⟨hrsv, hop⟩, hlegal⟩
    exact ⟨o.operands p.payload, ⟨hrsv, o, hop, hlegal, rfl⟩, operands_opcode o _⟩

/-- Settles O8: a row is its opcode's, selected by rsv, op and a fixed plen, and the decoder asks
for the same and for R76. -/
theorem opcodeMapIsTheDecoder : Obligations.OpcodeMapIsTheDecoder := by
  unfold Obligations.OpcodeMapIsTheDecoder
  refine ⟨fun h r r' => row_unique, fun wb p o hlen => ?_⟩
  rw [decodes_opcode_iff, exists_row_selects_iff, row_selects_header_iff o hlen, lengthLegal_iff]
  tauto

end Sys2Proof
end

section
/-! Packets that are written out: the host's table word (log 13) and the byte strings printed in
section 6 of spec/30_encoding.md. -/

namespace Sys2Proof

open Machine

/-! ### A table word is one whole packet -/

/-- The bytes of a table word are a header and as many bytes as it announces (log 13). -/
theorem tableWordPacket_shape (nbits w : Nat) :
    ∃ (a b c d : Byte) (body : List Byte), tableWordPacket nbits w = a :: b :: c :: d :: body ∧
      body.length = c.toNat + 256 * d.toNat := by
  obtain ⟨head, hhead, hlen⟩ : ∃ head : List Byte,
      ((natBytes (nbits / 8) w ++ List.replicate 4 0).take
        (max 4 (natBytes (nbits / 8) w).length)) = head ∧ 4 ≤ head.length :=
    ⟨_, rfl, by rw [List.length_take, List.length_append, List.length_replicate]; omega⟩
  match head, hlen with
  | a :: b :: c :: d :: tail, _ =>
    obtain ⟨-, -, hplen⟩ := header_fields a b c d
    refine ⟨a, b, c, d, (tail ++ List.replicate (c.toNat + 256 * d.toNat) 0).take
      (c.toNat + 256 * d.toNat), ?_, by simp⟩
    simp only [tableWordPacket, hhead, List.take_succ_cons, List.take_zero, hplen]
    rw [Nat.add_comm 4]
    rfl

theorem nextPacket_tableWordPacket (nbits w : Nat) :
    ∃ p, nextPacket (tableWordPacket nbits w) = some (p, []) := by
  obtain ⟨a, b, c, d, body, hbytes, hlen⟩ := tableWordPacket_shape nbits w
  refine ⟨⟨a, b, body⟩, ?_⟩
  rw [hbytes, nextPacket_cons, if_neg (by omega), ← hlen, List.take_length, List.drop_length]

/-- Bytes sent behind a stream are left behind its first packet. -/
theorem nextPacket_append {stream rest : List Byte} {p : Packet}
    (h : nextPacket stream = some (p, rest)) (tail : List Byte) :
    nextPacket (stream ++ tail) = some (p, rest ++ tail) := by
  obtain ⟨rfl, hlen⟩ := nextPacket_some h
  rw [List.append_assoc, nextPacket_bytes p _ hlen]

theorem decodeTableWord_eq_some {nbits w : Nat} {i : Instr} (h : decodeTableWord nbits w = some i) :
    ∃ p, nextPacket (tableWordPacket nbits w) = some (p, []) ∧
      decodePacket tableWordBytes p = .ok i := by
  obtain ⟨p, hframe⟩ := nextPacket_tableWordPacket nbits w
  refine ⟨p, hframe, ?_⟩
  rw [decodeTableWord, hframe] at h
  cases hdecode : decodePacket tableWordBytes p with
  | error e => simp [hdecode] at h
  | ok j => simpa [hdecode] using h

namespace Machine

/-- Settles O9: a table word is one whole packet, so the stream left after it is the given
state's. -/
theorem fetchWordRunsTheTableWord : Obligations.FetchWordRunsTheTableWord := by
  unfold Obligations.FetchWordRunsTheTableWord
  intro s nbits w i hwb h
  obtain ⟨p, hframe, hdecode⟩ := decodeTableWord_eq_some h
  have hframe' : nextPacket (s.withFetchWord nbits w).cmd = some (p, s.cmd) :=
    nextPacket_append hframe s.cmd
  have hdecode' : decodePacket (wordBytes (s.withFetchWord nbits w).config) p = .ok i :=
    hwb ▸ hdecode
  exact step_of_decoded hframe' hdecode'

end Machine

/-! ### The printed packets -/

theorem read_encoding {wb : Nat} {i : Instr} (h : i.wellFormed wb = true) {bytes : List Byte}
    (hbytes : bytes = encode i) :
    ((nextPacket bytes).map fun q => (decodePacket wb q.1, q.2)) = some (.ok i, []) := by
  have hframe := nextPacket_encode h []
  rw [List.append_nil] at hframe
  rw [hbytes, hframe, Option.map_some, decodePacket_encodePacket h]

/-- Settles O7: the printed commands are encodings, the illegal packets are evaluated. -/
theorem printedPacketsDecode : Obligations.PrintedPacketsDecode := by
  unfold Obligations.PrintedPacketsDecode
  refine ⟨read_encoding rfl ?_, read_encoding rfl ?_, read_encoding rfl ?_, read_encoding rfl ?_,
    read_encoding rfl ?_, ?_, ?_, ?_⟩ <;> decide

end Sys2Proof
end

section
/-! Copying the shadow bank out (spec/30_encoding.md R82). -/

namespace Sys2Proof.Machine

theorem exec_xchg (t : State) : exec .xchg t = .next { t with g := t.s, s := t.g, last := 0 } := rfl

theorem exec_save_valid {t : State} {b : Bank t.config} (h : t.g = some b) :
    exec .save t = .next { t with dout := t.dout ++ serialize b, last := 0 } :=
  congrArg Host.Outcome.next (State.withG_some h _)

theorem exec_save_invalid {t : State} (h : t.g = none) :
    exec .save t = .next { t with last := 2, flt := t.flt ||| 4 } :=
  congrArg Host.Outcome.next (State.withG_none h _)

theorem runCommands_cons {t u : State} {i : Instr} (h : exec i t = .next u) (is : List Instr) :
    runCommands t (i :: is) = runCommands u is := by
  rw [runCommands, h]

/-- Settles O59: SAVE between the exchanges reads the shadow bank in place of G, and the second
exchange undoes the first. -/
theorem copyOutSavesTheShadowBank : Obligations.CopyOutSavesTheShadowBank := by
  unfold Obligations.CopyOutSavesTheShadowBank
  intro t
  constructor
  · intro b hb
    refine ⟨serialize b, exec_save_valid rfl, ?_⟩
    rw [runCommands_cons (exec_xchg t), runCommands_cons (exec_save_valid hb),
      runCommands_cons (exec_xchg _)]
    rfl
  · intro hs
    rw [runCommands_cons (exec_xchg t), runCommands_cons (exec_save_invalid hs),
      runCommands_cons (exec_xchg _)]
    rfl

end Sys2Proof.Machine
end

section
/-! The word source: what each of the four in-band draws does to the machine, in numbers and bytes,
and what the out-of-band commands leave in the caches (spec/40_word_source.md R101 to R110). -/

namespace Sys2Proof.Machine

/-! ### The bytes of a part of a word -/

/-- `n` bytes hold the numbers of 8n bits. -/
theorem two_pow_bytes (n : Nat) : 2 ^ (8 * n) = 256 ^ n := Nat.pow_mul 2 8 n

theorem natBytes_add (m n v : Nat) :
    natBytes (m + n) v = natBytes m v ++ natBytes n (v / 256 ^ m) := by
  induction m generalizing v with
  | zero => simp [natBytes]
  | succ m ih =>
    rw [Nat.succ_add, natBytes, natBytes, ih, Nat.div_div_eq_div_mul, Nat.pow_succ']
    rfl

/-- The low `n` bytes are those of the number modulo 256^n. -/
theorem natBytes_mod (n v : Nat) : natBytes n (v % 256 ^ n) = natBytes n v := by
  have h := natBytes_leNat (natBytes n v)
  rwa [natBytes_length, leNat_natBytes] at h

theorem leBytes_setWidth {n w : Nat} (w' : Nat) (h : 8 * n ≤ w') (v : BitVec w) :
    leBytes n (v.setWidth w') = leBytes n v := by
  have hdvd : 256 ^ n ∣ 2 ^ w' := two_pow_bytes n ▸ Nat.pow_dvd_pow 2 h
  rw [leBytes, leBytes, BitVec.toNat_setWidth, ← natBytes_mod n (_ % _), Nat.mod_mod_of_dvd _ hdvd,
    natBytes_mod]

theorem take_leBytes_add (m n : Nat) {w : Nat} (v : BitVec w) :
    (leBytes (m + n) v).take m = leBytes m v := by
  rw [leBytes, natBytes_add, List.take_left' (natBytes_length m _)]
  rfl

theorem drop_leBytes_add (m n : Nat) {w : Nat} (v : BitVec w) :
    (leBytes (m + n) v).drop m = natBytes n (v.toNat / 256 ^ m) := by
  rw [leBytes, natBytes_add, List.drop_left' (natBytes_length m _)]

/-- The bytes of a joined word: those of the low part first (spec/20_memory.md R52). -/
theorem leBytes_append (m n : Nat) {w : Nat} (hi : BitVec w) (lo : BitVec (8 * m)) :
    leBytes (m + n) (hi ++ lo) = leBytes m lo ++ leBytes n hi := by
  have hlo : lo.toNat < 256 ^ m := two_pow_bytes m ▸ lo.isLt
  have hval : (hi ++ lo).toNat = 256 ^ m * hi.toNat + lo.toNat := by
    rw [BitVec.toNat_append, ← Nat.shiftLeft_add_eq_or_of_lt lo.isLt, Nat.shiftLeft_eq,
      two_pow_bytes, Nat.mul_comm]
  have hhigh : (hi ++ lo).toNat / 256 ^ m = hi.toNat := by
    rw [hval, Nat.mul_add_div (Nat.pow_pos (by decide)), Nat.div_eq_of_lt hlo, Nat.add_zero]
  have hlow : (hi ++ lo).toNat % 256 ^ m = lo.toNat := by
    rw [hval, Nat.mul_add_mod, Nat.mod_eq_of_lt hlo]
  rw [leBytes, natBytes_add, hhigh, ← natBytes_mod m, hlow]
  rfl

/-! ### The four commands on a valid bank -/

theorem exec_next_valid {t : State} {b : Bank t.config} (h : t.g = some b) :
    exec .next t = .next { t with
      g := some (draw b).2, dout := t.dout ++ leBytes (wordBytes t.config) (draw b).1,
      last := 0 } :=
  congrArg Host.Outcome.next (State.withG_some h _)

theorem exec_nextlong_valid {t : State} {b : Bank t.config} (h : t.g = some b) :
    exec .nextlong t = .next { t with
      g := some (longDraw b).2, dout := t.dout ++ leBytes 8 (longDraw b).1, last := 0 } :=
  congrArg Host.Outcome.next (State.withG_some h _)

theorem exec_nextint_valid {t : State} {b : Bank t.config} (h : t.g = some b) :
    exec .nextint t = .next { t with
      g := some (intDraw b).2, dout := t.dout ++ leBytes 4 (intDraw b).1, last := 0 } :=
  congrArg Host.Outcome.next (State.withG_some h _)

theorem exec_nextbool_valid {t : State} {b : Bank t.config} (h : t.g = some b) :
    exec .nextbool t = .next { t with
      g := some (boolDraw b).2, dout := t.dout ++ [boolByte (boolDraw b).1], last := 0 } :=
  congrArg Host.Outcome.next (State.withG_some h _)

/-! ### NEXT and NEXTLONG -/

/-- Settles O27: the guard passes, and the word drawn is emitted. -/
theorem nextEmitsOneDraw : Obligations.NextEmitsOneDraw := by
  unfold Obligations.NextEmitsOneDraw
  intro t b hg
  exact exec_next_valid hg

theorem longDraw_of_wide {c : Cfg} (hw : c.wordBits = 64) (b : Bank c) :
    longDraw b = ((draw b).1.setWidth 64, (draw b).2) :=
  if_pos hw

theorem longDraw_of_narrow {c : Cfg} (hw : c.wordBits = 32) (b : Bank c) :
    longDraw b =
      ((draw b).1.setWidth 32 ++ (draw (draw b).2).1.setWidth 32, (draw (draw b).2).2) :=
  if_neg (by omega)

/-- Settles O28: the two widths of `longDraw`; a joined word's bytes are its halves'. -/
theorem nextlongEmitsSixtyFourBits : Obligations.NextlongEmitsSixtyFourBits := by
  unfold Obligations.NextlongEmitsSixtyFourBits
  intro t b hg
  constructor
  · intro hw
    rw [exec_nextlong_valid hg, longDraw_of_wide hw, leBytes_setWidth 64 (by decide)]
  · intro hw
    have hbytes := leBytes_append 4 4 ((draw b).1.setWidth 32) ((draw (draw b).2).1.setWidth 32)
    rw [leBytes_setWidth 32 (by decide), leBytes_setWidth 32 (by decide)] at hbytes
    rw [exec_nextlong_valid hg, longDraw_of_narrow hw, hbytes, List.append_assoc]

/-! ### NEXTINT and the half-word cache -/

theorem intDraw_of_narrow {c : Cfg} (hw : c.wordBits = 32) (b : Bank c) :
    intDraw b = ((draw b).1.setWidth 32, (draw b).2) :=
  if_pos hw

theorem intDraw_of_empty {c : Cfg} (hw : c.wordBits = 64) {b : Bank c}
    (hempty : b.hc.getLsbD 63 = true) :
    intDraw b = ((draw b).1.setWidth 32,
      { (draw b).2 with hc := BitVec.ofNat _ ((draw b).1.toNat / 2 ^ 32) }) := by
  have hstash : ((draw b).1 >>> 32).setWidth c.kind.hcBits =
      BitVec.ofNat _ ((draw b).1.toNat / 2 ^ 32) := by
    rw [← BitVec.ofNat_toNat, BitVec.toNat_ushiftRight, Nat.shiftRight_eq_div_pow]
  have hnew : halfCacheEmpty b = true := hempty
  rw [intDraw, if_neg (by omega), if_pos hnew]
  simp only [hstash]

theorem intDraw_of_stashed {c : Cfg} (hw : c.wordBits = 64) {b : Bank c}
    (hstashed : b.hc.getLsbD 63 = false) :
    intDraw b = (b.hc.setWidth 32, { b with hc := BitVec.allOnes _ }) := by
  have hfull : ¬ halfCacheEmpty b = true := by rw [halfCacheEmpty, hstashed]; decide
  rw [intDraw, if_neg (by omega), if_neg hfull]

/-- The four bytes NEXTINT emits of a word or of the cache are the first of its eight. -/
theorem leBytes_lowHalf {w : Nat} (v : BitVec w) :
    leBytes 4 (v.setWidth 32) = (leBytes 8 v).take 4 := by
  rw [leBytes_setWidth 32 (by decide), take_leBytes_add 4 4]

theorem exec_nextint_narrow {t : State} {b : Bank t.config} (hg : t.g = some b)
    (hw : t.config.wordBits = 32) :
    exec .nextint t = .next { t with
      g := some (draw b).2, dout := t.dout ++ leBytes 4 (draw b).1, last := 0 } := by
  rw [exec_nextint_valid hg, intDraw_of_narrow hw, leBytes_setWidth 32 (by decide)]

theorem exec_nextint_empty {t : State} {b : Bank t.config} (hg : t.g = some b)
    (hw : t.config.wordBits = 64) (hempty : b.hc.getLsbD 63 = true) :
    exec .nextint t = .next { t with
      g := some { (draw b).2 with hc := BitVec.ofNat _ ((draw b).1.toNat / 2 ^ 32) }
      dout := t.dout ++ (leBytes 8 (draw b).1).take 4
      last := 0 } := by
  rw [exec_nextint_valid hg, intDraw_of_empty hw hempty, leBytes_lowHalf]

theorem exec_nextint_stashed {t : State} {b : Bank t.config} (hg : t.g = some b)
    (hw : t.config.wordBits = 64) (hstashed : b.hc.getLsbD 63 = false) :
    exec .nextint t = .next { t with
      g := some { b with hc := BitVec.allOnes _ }
      dout := t.dout ++ (leBytes 8 b.hc).take 4
      last := 0 } := by
  rw [exec_nextint_valid hg, intDraw_of_stashed hw hstashed, leBytes_lowHalf]

/-- Settles O29: the three cases of `intDraw`. -/
theorem nextintUsesTheHalfCache : Obligations.NextintUsesTheHalfCache := by
  unfold Obligations.NextintUsesTheHalfCache
  intro t b hg
  exact ⟨exec_nextint_narrow hg, exec_nextint_empty hg, exec_nextint_stashed hg⟩

/-! ### Two halves of one word -/

theorem hcBits_of_wide {k : Kind} (h : k.wordBits = 64) : k.hcBits = 64 := by
  cases k with
  | x32 => cases h
  | x64 | lx64 | lx128 => rfl

/-- The stash of a 64-bit word is its high half as a number: nothing is cut off. -/
theorem stash_toNat {w h : Nat} (v : BitVec w) (hw : w = 64) (hh : h = 64) :
    (BitVec.ofNat h (v.toNat / 2 ^ 32)).toNat = v.toNat / 2 ^ 32 := by
  subst hw hh
  have hlt := v.isLt
  rw [BitVec.toNat_ofNat]
  omega

/-- A stash is never read as the empty cache (spec/40_word_source.md R105). -/
theorem stash_not_empty {w h : Nat} (v : BitVec w) (hw : w = 64) (hh : h = 64) :
    (BitVec.ofNat h (v.toNat / 2 ^ 32)).getLsbD 63 = false := by
  have hlt : v.toNat < 2 ^ 64 := hw ▸ v.isLt
  rw [BitVec.getLsbD, stash_toNat v hw hh]
  exact Nat.testBit_lt_two_pow (by omega)

/-- The four bytes of a stash are the last of the word's eight. -/
theorem stash_bytes {w h : Nat} (v : BitVec w) (hw : w = 64) (hh : h = 64) :
    (leBytes 8 (BitVec.ofNat h (v.toNat / 2 ^ 32))).take 4 = (leBytes 8 v).drop 4 := by
  rw [take_leBytes_add 4 4, drop_leBytes_add 4 4, leBytes, stash_toNat v hw hh,
    ← two_pow_bytes 4]

/-- A draw does not see the half-word cache and keeps it (R100). -/
theorem draw_setHc {c : Cfg} (b : Bank c) (hc : BitVec c.kind.hcBits) :
    draw { b with hc := hc } = ((draw b).1, { (draw b).2 with hc := hc }) := by
  have hbank : afterDraw { b with hc := hc } = { afterDraw b with hc := hc } := by
    unfold afterDraw
    split <;> rfl
  exact congrArg (Prod.mk (drawnWord b)) hbank

/-- NEXTINT after a command that left the stash of a word in the bank. -/
theorem exec_nextint_stash (t : State) (hw : t.config.wordBits = 64) (b : Bank t.config)
    (v : BitVec t.config.wordBits) (dout : List Byte) :
    exec .nextint { t with
        g := some { b with hc := BitVec.ofNat _ (v.toNat / 2 ^ 32) }, dout := dout, last := 0 } =
      .next { t with
        g := some { b with hc := BitVec.allOnes _ }
        dout := dout ++ (leBytes 8 v).drop 4
        last := 0 } := by
  have hh := hcBits_of_wide hw
  rw [exec_nextint_stashed rfl, stash_bytes v hw hh]
  · exact hw
  · exact stash_not_empty v hw hh

/-- Settles O32: the second NEXTINT finds the stash of the first, and a NEXT between keeps it. -/
theorem halvesOfOneWord : Obligations.HalvesOfOneWord := by
  unfold Obligations.HalvesOfOneWord
  intro t b hg hw hempty
  constructor
  · rw [runCommands_cons (exec_nextint_empty hg hw hempty),
      runCommands_cons (exec_nextint_stash t hw (draw b).2 (draw b).1 _)]
    simp only [runCommands, List.append_assoc, List.take_append_drop]
  · have hbytes : wordBytes t.config = 8 := by rw [wordBytes, hw]
    rw [runCommands_cons (exec_nextint_empty hg hw hempty), runCommands_cons (exec_next_valid rfl)]
    simp only [draw_setHc]
    rw [runCommands_cons (exec_nextint_stash t hw (draw (draw b).2).2 (draw b).1 _)]
    simp only [runCommands, State.config, hbytes]

/-! ### NEXTBOOL and the boolean cache -/

theorem boolByte_getLsbD_zero {w : Nat} (v : BitVec w) :
    boolByte (v.getLsbD 0) = BitVec.ofNat 8 (v.toNat % 2) := by
  rw [BitVec.getLsbD, Nat.testBit_zero]
  obtain h | h := Nat.mod_two_eq_zero_or_one v.toNat <;> rw [h] <;> rfl

/-- The bits of a `w`-bit word from bit `n` up, under a marker bit (spec/40_word_source.md R104). -/
def unissued (w v n : Nat) : Nat := v / 2 ^ n + 2 ^ (w - n)

theorem unissued_lt {w v n : Nat} (hv : v < 2 ^ w) (hn : 1 ≤ n) (hnw : n ≤ w) :
    unissued w v n < 2 ^ w := by
  have hbits : v / 2 ^ n < 2 ^ (w - n) := by
    rw [Nat.div_lt_iff_lt_mul (Nat.two_pow_pos n), ← Nat.pow_add, Nat.sub_add_cancel hnw]
    exact hv
  calc unissued w v n < 2 ^ (w - n) + 2 ^ (w - n) := Nat.add_lt_add_right hbits _
    _ = 2 ^ (w - n + 1) := by rw [Nat.pow_succ, Nat.mul_two]
    _ ≤ 2 ^ w := Nat.pow_le_pow_right (by decide) (by omega)

/-- While bits are left the cache is their first bit and twice what is left after it. -/
theorem unissued_eq {w v n : Nat} (hnw : n < w) :
    unissued w v n = v / 2 ^ n % 2 + 2 * unissued w v (n + 1) := by
  have hmarker : 2 ^ (w - n) = 2 * 2 ^ (w - (n + 1)) := by
    rw [← Nat.pow_succ']
    congr 1
    omega
  have hbits : v / 2 ^ (n + 1) = v / 2 ^ n / 2 := by rw [Nat.div_div_eq_div_mul, Nat.pow_succ]
  rw [unissued, unissued, hmarker, hbits]
  omega

theorem unissued_pos (w v n : Nat) : 0 < unissued w v n :=
  Nat.lt_of_lt_of_le (Nat.two_pow_pos (w - n)) (Nat.le_add_left _ _)

/-- The cache NEXTBOOL makes of a new word is the word's bits from bit 1 up under the marker. -/
theorem markedWord_eq_unissued {w : Nat} (hw : 0 < w) (v : BitVec w) :
    (v >>> 1) ||| (1 <<< (w - 1)) = BitVec.ofNat w (unissued w v.toNat 1) := by
  have hbits : v.toNat >>> 1 < 2 ^ (w - 1) := by
    have hlt : v.toNat < 2 * 2 ^ (w - 1) := by
      rw [← Nat.pow_succ', Nat.succ_eq_add_one, Nat.sub_add_cancel hw]
      exact v.isLt
    rw [Nat.shiftRight_eq_div_pow]
    omega
  have hmarker : 1 <<< (w - 1) % 2 ^ w = 1 <<< (w - 1) := by
    rw [Nat.one_shiftLeft]
    exact Nat.mod_eq_of_lt (Nat.pow_lt_pow_right (by decide) (by omega))
  apply BitVec.eq_of_toNat_eq
  rw [BitVec.toNat_or, BitVec.toNat_ushiftRight, BitVec.natCast_eq_ofNat, BitVec.toNat_ofNat,
    BitVec.toNat_ofNat, hmarker, Nat.lor_comm, ← Nat.shiftLeft_add_eq_or_of_lt hbits,
    Nat.mod_eq_of_lt (unissued_lt v.isLt le_rfl hw), unissued, Nat.shiftRight_eq_div_pow,
    Nat.one_shiftLeft, Nat.add_comm]

theorem boolDraw_of_empty {c : Cfg} {b : Bank c} (hempty : b.bc = 1) :
    boolDraw b = ((draw b).1.getLsbD 0,
      { (draw b).2 with bc := BitVec.ofNat _ (unissued c.wordBits (draw b).1.toNat 1) }) := by
  have hmarked := markedWord_eq_unissued (w := c.wordBits) (wordBits_pos c.kind) (draw b).1
  rw [boolDraw, if_pos hempty]
  simp only [hmarked]

theorem boolDraw_of_cached {c : Cfg} {b : Bank c} (hcached : b.bc ≠ 1) :
    boolDraw b = (b.bc.getLsbD 0, { b with bc := BitVec.ofNat _ (b.bc.toNat / 2) }) := by
  have hhalf : b.bc >>> 1 = BitVec.ofNat _ (b.bc.toNat / 2) := by
    rw [← Nat.pow_one 2, ← Nat.shiftRight_eq_div_pow, ← BitVec.toNat_ushiftRight,
      BitVec.ofNat_toNat, BitVec.setWidth_eq]
  rw [boolDraw, if_neg hcached, hhalf]

theorem exec_nextbool_empty {t : State} {b : Bank t.config} (hg : t.g = some b)
    (hempty : b.bc = 1) :
    exec .nextbool t = .next { t with
      g := some { (draw b).2 with
        bc := BitVec.ofNat _ (unissued t.config.wordBits (draw b).1.toNat 1) }
      dout := t.dout ++ [BitVec.ofNat 8 ((draw b).1.toNat % 2)]
      last := 0 } := by
  rw [exec_nextbool_valid hg, boolDraw_of_empty hempty, boolByte_getLsbD_zero]

theorem exec_nextbool_cached {t : State} {b : Bank t.config} (hg : t.g = some b)
    (hcached : b.bc ≠ 1) :
    exec .nextbool t = .next { t with
      g := some { b with bc := BitVec.ofNat _ (b.bc.toNat / 2) }
      dout := t.dout ++ [BitVec.ofNat 8 (b.bc.toNat % 2)]
      last := 0 } := by
  rw [exec_nextbool_valid hg, boolDraw_of_cached hcached, boolByte_getLsbD_zero]

/-- Settles O30: the two cases of `boolDraw`. -/
theorem nextboolUsesTheBooleanCache : Obligations.NextboolUsesTheBooleanCache := by
  unfold Obligations.NextboolUsesTheBooleanCache
  intro t b hg
  exact ⟨exec_nextbool_empty hg, exec_nextbool_cached hg⟩

/-! ### The booleans of one word -/

theorem runCommands_append {t u : State} {is : List Instr} (h : runCommands t is = .next u)
    (js : List Instr) : runCommands t (is ++ js) = runCommands u js := by
  induction is generalizing t with
  | nil =>
    obtain rfl := Host.Outcome.next.inj h
    rfl
  | cons i is ih =>
    rw [runCommands_cons (exec_eq_apply_effect i t)] at h
    rw [List.cons_append, runCommands_cons (exec_eq_apply_effect i t), ih h]

/-- NEXTBOOL after a command that left the bits of a word from bit `n` up in the bank. -/
theorem exec_nextbool_unissued (t : State) (b : Bank t.config) (v : BitVec t.config.wordBits)
    (dout : List Byte) {n : Nat} (hn : 1 ≤ n) (hnw : n < t.config.wordBits) :
    exec .nextbool { t with
        g := some { b with bc := BitVec.ofNat _ (unissued t.config.wordBits v.toNat n) }
        dout := dout
        last := 0 } =
      .next { t with
        g := some { b with bc := BitVec.ofNat _ (unissued t.config.wordBits v.toNat (n + 1)) }
        dout := dout ++ [BitVec.ofNat 8 (v.toNat / 2 ^ n % 2)]
        last := 0 } := by
  have hsplit := unissued_eq (v := v.toNat) hnw
  have hnext := unissued_pos t.config.wordBits v.toNat (n + 1)
  have hcache : (BitVec.ofNat t.config.wordBits (unissued t.config.wordBits v.toNat n)).toNat =
      unissued t.config.wordBits v.toNat n := by
    rw [BitVec.toNat_ofNat, Nat.mod_eq_of_lt (unissued_lt v.isLt hn hnw.le)]
  have hcached : BitVec.ofNat t.config.wordBits (unissued t.config.wordBits v.toNat n) ≠ 1 := by
    intro h
    rw [h] at hcache
    have hone : (1 : BitVec t.config.wordBits).toNat ≤ 1 := Nat.mod_le 1 _
    omega
  have hhalf : unissued t.config.wordBits v.toNat n / 2 =
    unissued t.config.wordBits v.toNat (n + 1) := by omega
  have hbit : unissued t.config.wordBits v.toNat n % 2 = v.toNat / 2 ^ n % 2 := by omega
  rw [exec_nextbool_cached rfl hcached, hcache, hhalf, hbit]

/-- Settles O31, by induction on the number of booleans: the first draws the word, each later one
issues its next bit. -/
theorem booleansOfOneWord : Obligations.BooleansOfOneWord := by
  unfold Obligations.BooleansOfOneWord
  intro t b n hg hempty hn
  induction n, hn using Nat.le_induction with
  | base =>
    intro _
    rw [List.replicate_one, runCommands_cons (exec_nextbool_empty hg hempty)]
    simp [runCommands, unissued]
  | succ n hn ih =>
    intro hnw
    rw [List.replicate_succ', runCommands_append (ih (by omega))]
    refine Eq.trans (runCommands_cons (exec_nextbool_unissued t _ (draw b).1 _ hn hnw) []) ?_
    simp only [runCommands, unissued, List.range_succ, List.map_append, List.map_cons, List.map_nil,
      List.append_assoc]

/-! ### What the commands leave in the caches -/

/-- Settles O33: each draw keeps the caches its frame lemma names. -/
theorem inBandDrawsKeepTheOtherCache : Obligations.InBandDrawsKeepTheOtherCache := by
  unfold Obligations.InBandDrawsKeepTheOtherCache
  intro t b hg
  obtain ⟨-, hlong⟩ := longDraw_frame b
  obtain ⟨-, hint⟩ := intDraw_frame b
  obtain ⟨-, hbool⟩ := boolDraw_frame b
  exact ⟨⟨_, _, exec_next_valid hg, afterDraw_bc b, afterDraw_hc b⟩,
    ⟨_, _, exec_nextlong_valid hg, hlong⟩, ⟨_, _, exec_nextint_valid hg, hint⟩,
    ⟨_, _, exec_nextbool_valid hg, hbool⟩⟩

/-- Both caches hold nothing (spec/40_word_source.md R105). -/
def Bank.cachesEmpty {c : Cfg} (b : Bank c) : Prop := b.bc = 1 ∧ b.hc = BitVec.allOnes _

/-- The effects that fault or leave in G a bank with empty caches. -/
def Effect.emptiesCaches {c : Cfg} : Effect c → Prop
  | .fault _ => True
  | .emit _ => False
  | .load b _ => b.cachesEmpty
  | .jump _ b => b.cachesEmpty
  | .exchange => False

/-- A command with such an effect that succeeds leaves a valid G with empty caches. -/
theorem apply_of_emptiesCaches {t : State} {e : Effect t.config} (he : e.emptiesCaches)
    (hlast : (t.apply e).last = 0) : ∃ b, (t.apply e).g = some b ∧ b.cachesEmpty := by
  cases e with
  | fault f => exact absurd hlast f.lastValue_ne_zero
  | emit | exchange => exact he.elim
  | load b bytes => exact ⟨b, rfl, he⟩
  | jump b b' => exact ⟨b', rfl, he⟩

theorem jumpEffect_emptiesCaches {c : Cfg} (g : Option (Bank c)) (coeffs : Option (List Word64))
    (k : Option Nat) : (jumpEffect g coeffs k).emptiesCaches :=
  onBank_elim (P := Effect.emptiesCaches) trivial fun b _ => (jumped_frame coeffs k b).2

theorem descriptorEffect_emptiesCaches {c : Cfg} (g : Option (Bank c))
    (desc : Option (JumpDescriptor c.kind.lcgBits)) : (descriptorEffect g desc).emptiesCaches := by
  cases desc with
  | none => trivial
  | some d => exact jumpEffect_emptiesCaches g _ _

theorem restoreEffect_emptiesCaches (c : Cfg) (payload : List Byte) :
    (restoreEffect c payload).emptiesCaches := by
  unfold restoreEffect
  split
  · trivial
  · exact ⟨rfl, rfl⟩

theorem seedEffect_emptiesCaches (c : Cfg) (payload : List Byte) :
    (seedEffect c payload).emptiesCaches := by
  unfold seedEffect
  split
  · trivial
  · exact ⟨rfl, rfl⟩

theorem effect_emptiesCaches {c : Cfg} {i : Instr} (g : Option (Bank c))
    (hi : i = .jump ∨ i = .longjump ∨ (∃ cs, i = .jumpv cs) ∨ (∃ bytes, i = .restore bytes) ∨
      ∃ bytes, i = .seed bytes) : (effect i g).emptiesCaches := by
  obtain rfl | rfl | ⟨cs, rfl⟩ | ⟨bytes, rfl⟩ | ⟨bytes, rfl⟩ := hi
  · exact descriptorEffect_emptiesCaches g _
  · exact descriptorEffect_emptiesCaches g _
  · cases cs with
    | nil => trivial
    | cons w ws => exact jumpEffect_emptiesCaches g _ _
  · exact restoreEffect_emptiesCaches c bytes
  · exact seedEffect_emptiesCaches c bytes

/-- Settles O34: the effect of each of the five is a fault or a bank with empty caches. -/
theorem outOfBandChangesEmptyTheCaches : Obligations.OutOfBandChangesEmptyTheCaches := by
  unfold Obligations.OutOfBandChangesEmptyTheCaches
  intro i t u hi h hlast
  rw [exec_eq_apply_effect] at h
  cases h
  exact apply_of_emptiesCaches (effect_emptiesCaches t.g hi) hlast

end Sys2Proof.Machine
end

section
/-! The LCG of the composite: the 64-bit kernel is a multiply-add modulo 2^128, a step and a jump
are affine maps modulo 2^L, and a jump by 2^k is 2^k steps (spec/42_lcg_mac128.md R151 to R163). -/

namespace Sys2Proof.Machine

/-! ### The kernel -/

theorem join128_toNat (hi lo : Word64) : (join128 hi lo).toNat = 2 ^ 64 * hi.toNat + lo.toNat := by
  rw [join128, BitVec.toNat_append, ← Nat.shiftLeft_add_eq_or_of_lt lo.isLt, Nat.shiftLeft_eq,
    Nat.mul_comm]

/-- A 128-bit quantity is its two halves (spec/20_memory.md R53). -/
@[simp] theorem join128_high64_low64 (v : BitVec 128) : join128 (high64 v) (low64 v) = v := by
  apply BitVec.eq_of_toNat_eq
  rw [join128_toNat, high64, low64, BitVec.extractLsb'_toNat, BitVec.extractLsb'_toNat]
  have hv := v.isLt
  omega

/-- `umulh` is what the wrapping product cuts off (spec/42_lcg_mac128.md R151). -/
theorem umulh_add_mul (a b : Word64) :
    2 ^ 64 * (umulh a b).toNat + (a * b).toNat = a.toNat * b.toNat := by
  have hlt : a.toNat * b.toNat < 2 ^ 64 * 2 ^ 64 := Nat.mul_lt_mul'' a.isLt b.isLt
  have hhigh : a.toNat * b.toNat / 2 ^ 64 < 2 ^ 64 := Nat.div_lt_of_lt_mul hlt
  rw [umulh, BitVec.toNat_ofNat, Nat.mod_eq_of_lt hhigh, BitVec.toNat_mul, Nat.div_add_mod]

/-- `uaddh` is what the wrapping sum cuts off (spec/42_lcg_mac128.md R153). -/
theorem uaddh_add_add (a b : Word64) :
    2 ^ 64 * (uaddh a b).toNat + (a + b).toNat = a.toNat + b.toNat := by
  have ha := a.isLt
  have hb := b.isLt
  rw [BitVec.toNat_add, uaddh]
  split
  · rw [show (1 : Word64).toNat = 1 from rfl]
    omega
  · rw [show (0 : Word64).toNat = 0 from rfl]
    omega

/-- Equal high halves modulo 2^64 and equal low halves make equal quantities modulo 2^128. -/
theorem join128_eq_ofNat {hi lo : Word64} {h v : Nat} (hhi : hi.toNat ≡ h [MOD 2 ^ 64])
    (hv : 2 ^ 64 * h + lo.toNat ≡ v [MOD 2 ^ 128]) : join128 hi lo = BitVec.ofNat 128 v := by
  apply BitVec.eq_of_toNat_eq
  have hshift : 2 ^ 64 * hi.toNat ≡ 2 ^ 64 * h [MOD 2 ^ 128] := hhi.mul_left' (2 ^ 64)
  have hsum : (join128 hi lo).toNat ≡ v [MOD 2 ^ 128] :=
    join128_toNat hi lo ▸ (hshift.add_right lo.toNat).trans hv
  rw [BitVec.toNat_ofNat, ← Nat.mod_eq_of_lt (join128 hi lo).isLt]
  exact hsum

theorem bitVec_toNat_add_modEq {w : Nat} (a b : BitVec w) :
    (a + b).toNat ≡ a.toNat + b.toNat [MOD 2 ^ w] := by
  rw [BitVec.toNat_add]
  exact Nat.mod_modEq _ _

theorem bitVec_toNat_mul_modEq {w : Nat} (a b : BitVec w) :
    (a * b).toNat ≡ a.toNat * b.toNat [MOD 2 ^ w] := by
  rw [BitVec.toNat_mul]
  exact Nat.mod_modEq _ _

/-- The kernel is {mh, ml} {xh, xl} + {ah, al} modulo 2^128 (spec/42_lcg_mac128.md R154). -/
theorem join128_mac128 (mh ml xh xl ah al : Word64) :
    join128 (mac128 mh ml xh xl ah al).1 (mac128 mh ml xh xl ah al).2 =
      join128 mh ml * join128 xh xl + join128 ah al := by
  have hhigh : (mac128 mh ml xh xl ah al).1.toNat ≡
      mh.toNat * xl.toNat + ml.toNat * xh.toNat + (umulh ml xl).toNat + ah.toNat +
        (uaddh (ml * xl) al).toNat [MOD 2 ^ 64] := by
    refine (bitVec_toNat_add_modEq _ _).trans (Nat.ModEq.add_right _ ?_)
    refine (bitVec_toNat_add_modEq _ _).trans (Nat.ModEq.add_right _ ?_)
    refine (bitVec_toNat_add_modEq _ _).trans (Nat.ModEq.add_right _ ?_)
    exact (bitVec_toNat_add_modEq _ _).trans
      ((bitVec_toNat_mul_modEq _ _).add (bitVec_toNat_mul_modEq _ _))
  have hmul := umulh_add_mul ml xl
  have hadd := uaddh_add_add (ml * xl) al
  have hexact : (join128 mh ml).toNat * (join128 xh xl).toNat + (join128 ah al).toNat =
      2 ^ 64 * (mh.toNat * xl.toNat + ml.toNat * xh.toNat + (umulh ml xl).toNat + ah.toNat +
        (uaddh (ml * xl) al).toNat) + (ml * xl + al).toNat + 2 ^ 128 * (mh.toNat * xh.toNat) := by
    simp only [join128_toNat]
    linear_combination - hmul - hadd
  have hwide : join128 mh ml * join128 xh xl + join128 ah al =
      BitVec.ofNat 128
        ((join128 mh ml).toNat * (join128 xh xl).toNat + (join128 ah al).toNat) := by
    rw [BitVec.ofNat_add, BitVec.ofNat_mul]
    simp only [BitVec.ofNat_toNat, BitVec.setWidth_eq]
  rw [hwide]
  refine join128_eq_ofNat hhigh ?_
  rw [hexact]
  exact (Nat.add_mul_mod_self_left _ _ _).symm

/-! ### A step and a jump are affine -/

/-- The step of R159 is the kernel with the multiplier's high half 1, its sum in another order. -/
theorem lcgStep128_eq_mac128 (mLow : Word64) (ls la : BitVec 128) :
    lcgStep128 mLow ls la =
      join128 (mac128 1 mLow (high64 ls) (low64 ls) (high64 la) (low64 la)).1
        (mac128 1 mLow (high64 ls) (low64 ls) (high64 la) (low64 la)).2 := by
  have horder (x p u : Word64) : p + u + x = 1 * x + p + u := by
    rw [one_mul, add_comm, add_assoc]
  rw [lcgStep128, mac128, horder (low64 ls)]

theorem lcgStep128_eq (mLow : Word64) (ls la : BitVec 128) :
    lcgStep128 mLow ls la = join128 1 mLow * ls + la := by
  rw [lcgStep128_eq_mac128, join128_mac128, join128_high64_low64, join128_high64_low64]

theorem lcgJump128_eq (m' a' ls la : BitVec 128) :
    lcgJump128 m' a' ls la = m' * ls + a' * la := by
  have hzero : join128 0 0 = 0#128 := rfl
  simp only [lcgJump128, join128_mac128, join128_high64_low64, hzero, BitVec.add_zero]

/-- LS' = M LS + LA modulo 2^L (spec/42_lcg_mac128.md R158, R159); without an LCG both sides are
the one value of a register of 0 bits. -/
theorem lcgNext_eq (k : Kind) (mLow : Word64) (ls la : BitVec k.lcgBits) :
    lcgNext k mLow ls la = multiplier k mLow * ls + la := by
  cases k with
  | x32 | x64 => exact BitVec.eq_of_zero_length rfl
  | lx64 => rfl
  | lx128 => exact lcgStep128_eq mLow ls la

/-- LS' = M' LS + A' LA modulo 2^L (spec/42_lcg_mac128.md R161). -/
theorem lcgJumped_eq (k : Kind) (m' a' ls la : BitVec k.lcgBits) :
    lcgJumped k m' a' ls la = m' * ls + a' * la := by
  cases k with
  | x32 | x64 => exact BitVec.eq_of_zero_length rfl
  | lx64 => rfl
  | lx128 => exact lcgJump128_eq m' a' ls la

/-! ### A jump by 2^k is 2^k steps -/

@[simp] theorem lcgSteps_zero {c : Cfg} (b : Bank c) : lcgSteps 0 b = b := rfl
@[simp] theorem lcgSteps_succ {c : Cfg} (n : Nat) (b : Bank c) :
    lcgSteps (n + 1) b = lcgSteps n (lcgStep b) := rfl

theorem lcgSteps_add {c : Cfg} (m n : Nat) (b : Bank c) :
    lcgSteps (m + n) b = lcgSteps n (lcgSteps m b) := by
  induction m generalizing b with
  | zero => rw [Nat.zero_add, lcgSteps_zero]
  | succ m ih => rw [Nat.succ_add, lcgSteps_succ, lcgSteps_succ, ih]

/-- The constants of doubled jumps are one jump after the other (spec/42_lcg_mac128.md R160). -/
theorem lcgJump_succ {c : Cfg} (k : Nat) (b : Bank c) :
    lcgJump (k + 1) b = lcgJump k (lcgJump k b) := by
  simp only [lcgJump, lcgJumped_eq, brown]
  congr 1
  ring

/-- By repeated doubling (spec/42_lcg_mac128.md R163). -/
theorem lcgJump_eq_lcgSteps {c : Cfg} (k : Nat) (b : Bank c) :
    lcgJump k b = lcgSteps (2 ^ k) b := by
  induction k generalizing b with
  | zero =>
    simp only [lcgJump, lcgStep, brown, lcgJumped_eq, lcgNext_eq, one_mul, Nat.pow_zero,
      lcgSteps_succ, lcgSteps_zero]
  | succ k ih => rw [lcgJump_succ, ih, ih, Nat.pow_succ, Nat.mul_two, lcgSteps_add]

/-- An LCG step writes LS alone (spec/42_lcg_mac128.md R158). -/
@[simp] theorem lcgSteps_la {c : Cfg} (n : Nat) (b : Bank c) : (lcgSteps n b).la = b.la := by
  induction n generalizing b with
  | zero => rfl
  | succ n ih => exact ih (lcgStep b)

/-- The LCG's value after steps depends on LS and LA alone. -/
theorem lcgSteps_ls_congr {c : Cfg} {b b' : Bank c} (hls : b.ls = b'.ls) (hla : b.la = b'.la)
    (n : Nat) : (lcgSteps n b).ls = (lcgSteps n b').ls := by
  induction n generalizing b b' with
  | zero => exact hls
  | succ n ih => exact ih (by rw [lcgStep_ls, lcgStep_ls, hls, hla]) hla

end Sys2Proof.Machine
end

section
/-! The XBG: steps, the logical vector of a ring, and the jump as a polynomial of the update applied
to the logical vector (spec/41_xbg_jump.md R120 to R124). -/

namespace Sys2Proof.Machine

/-! ### Words -/

theorem xorWords_getElem {w n : Nat} (x y : Vector (BitVec w) n) (i : Nat) (hi : i < n) :
    (xorWords x y)[i] = x[i] ^^^ y[i] := by
  simp [xorWords]

theorem zeroWords_getElem {w n : Nat} (i : Nat) (hi : i < n) : (zeroWords w n)[i] = 0#w := by
  simp [zeroWords]

@[simp] theorem zeroWords_xorWords {w n : Nat} (x : Vector (BitVec w) n) :
    xorWords (zeroWords w n) x = x := by
  apply Vector.ext
  intro i hi
  rw [xorWords_getElem, zeroWords_getElem]
  exact BitVec.zero_xor

@[simp] theorem xorWords_self {w n : Nat} (x : Vector (BitVec w) n) :
    xorWords x x = zeroWords w n := by
  apply Vector.ext
  intro i hi
  rw [xorWords_getElem, zeroWords_getElem, BitVec.xor_self]

/-! ### Steps -/

theorem xbgSteps_add {c : Cfg} (m n : Nat) (b : Bank c) :
    xbgSteps (m + n) b = xbgSteps n (xbgSteps m b) := by
  induction m generalizing b with
  | zero => rw [Nat.zero_add, xbgSteps_zero]
  | succ m ih => rw [Nat.succ_add, xbgSteps_succ, xbgSteps_succ, ih]

theorem xbgSteps_succ' {c : Cfg} (n : Nat) (b : Bank c) :
    xbgSteps (n + 1) b = xbgStep (xbgSteps n b) :=
  xbgSteps_add n 1 b

/-! ### The cursor -/

/-- A ring has as many words as its cursor has values; without a ring there is no cursor. -/
theorem cursorBits_cases (c : Cfg) :
    cursorBits c.ring c.words = 0 ∨ 2 ^ cursorBits c.ring c.words = c.words.count := by
  cases c.ring with
  | false => exact .inl rfl
  | true => exact .inr rfl

theorem cursor_toNat_eq_zero {c : Cfg} (h : cursorBits c.ring c.words = 0)
    (cur : BitVec (cursorBits c.ring c.words)) : cur.toNat = 0 := by
  have hlt : cur.toNat < 2 ^ 0 := cur.isLt.trans_eq (congrArg (2 ^ ·) h)
  omega

/-- The sum of two cursors is taken modulo N (spec/00_scope.md R8). -/
theorem cursor_add_mod (c : Cfg) (cur d : BitVec (cursorBits c.ring c.words)) :
    (cur + d).toNat % c.words.count = (cur.toNat + d.toNat) % c.words.count := by
  obtain h | h := cursorBits_cases c
  · simp only [cursor_toNat_eq_zero h]
  · rw [BitVec.toNat_add, h, Nat.mod_mod]

theorem physicalIndex_add (c : Cfg) (cur d : BitVec (cursorBits c.ring c.words)) (i : Nat) :
    physicalIndex c (cur + d) i = physicalIndex c d (physicalIndex c cur i) := by
  apply Fin.ext
  simp only [physicalIndex]
  rw [Nat.add_mod, cursor_add_mod, ← Nat.add_mod, Nat.mod_add_mod, Nat.add_assoc]

/-- Turning the ring and its cursor together leaves the logical vector (spec/00_scope.md R8). -/
@[simp] theorem logicalWords_rotateRing (c : Cfg) (d cur : BitVec (cursorBits c.ring c.words))
    (x : XVec c.kind c.words) :
    logicalWords c (rotateRing c d x) (cur + d) = logicalWords c x cur := by
  apply Vector.ext
  intro i hi
  simp [rotateRing, physicalIndex_add, logicalIndex_physicalIndex]

theorem logicalWords_injective (c : Cfg) (cur : BitVec (cursorBits c.ring c.words)) :
    Function.Injective fun x => logicalWords c x cur :=
  Function.LeftInverse.injective (g := fun acc => realign c acc cur) fun x =>
    realign_logicalWords c x cur

/-- The words of a ring are told by its logical vector and its cursor. -/
theorem Bank.x_eq_of_logical {c : Cfg} {b b' : Bank c} (h : b.logical = b'.logical)
    (hcur : b.cur = b'.cur) : b.x = b'.x := by
  rw [Bank.logical, Bank.logical, hcur] at h
  exact logicalWords_injective c _ h

/-- Banks with the same logical vector differ by a turn of the ring. -/
theorem Bank.exists_rotateRing {c : Cfg} {b b' : Bank c} (h : b.logical = b'.logical) :
    ∃ d, b'.x = rotateRing c d b.x ∧ b'.cur = b.cur + d := by
  have hcur : b'.cur = b.cur + (b'.cur - b.cur) := by rw [add_sub_cancel]
  refine ⟨b'.cur - b.cur, logicalWords_injective c b'.cur ?_, hcur⟩
  calc logicalWords c b'.x b'.cur = logicalWords c b.x b.cur := h.symm
    _ = logicalWords c (rotateRing c (b'.cur - b.cur) b.x) (b.cur + (b'.cur - b.cur)) :=
      (logicalWords_rotateRing c _ _ _).symm
    _ = logicalWords c (rotateRing c (b'.cur - b.cur) b.x) b'.cur := by rw [← hcur]

/-- Without a ring the logical vector is the registers (spec/41_xbg_jump.md R122). -/
theorem Bank.logical_of_no_ring {c : Cfg} (h : c.ring = false) (b : Bank c) : b.logical = b.x := by
  have hcur : b.cur.toNat = 0 := cursor_toNat_eq_zero (by rw [h]; rfl) b.cur
  apply Vector.ext
  intro i hi
  simp [Bank.logical, physicalIndex, hcur, Nat.mod_eq_of_lt hi]

/-! ### Banks with the same logical vector -/

/-- Under EQV the update acts on logical vectors (spec/41_xbg_jump.md R123). -/
theorem xbgStep_logical_congr {c : Cfg} (eqv : RotationEquivariant c) {b b' : Bank c}
    (h : b.logical = b'.logical) : (xbgStep b).logical = (xbgStep b').logical := by
  obtain ⟨d, hx, hcur⟩ := Bank.exists_rotateRing h
  simp only [Bank.logical, xbgStep_x, xbgStep_cur, hx, hcur, eqv b.x b.cur d,
    logicalWords_rotateRing]

theorem xbgSteps_logical_congr {c : Cfg} (eqv : RotationEquivariant c) {b b' : Bank c}
    (h : b.logical = b'.logical) (n : Nat) : (xbgSteps n b).logical = (xbgSteps n b').logical := by
  induction n generalizing b b' with
  | zero => exact h
  | succ n ih => exact ih (xbgStep_logical_congr eqv h)

/-- Under CUR and EQV every update turns the cursor by the same number of places. -/
theorem exists_cursor_shift {c : Cfg} (cur : CursorAutonomous c) (eqv : RotationEquivariant c) :
    ∃ shift, ∀ b : Bank c, (xbgStep b).cur = b.cur + shift := by
  refine ⟨(c.update (zeroWords _ _) 0).2, fun b => ?_⟩
  have hturned := congrArg Prod.snd (eqv (zeroWords _ _) 0 b.cur)
  rw [zero_add] at hturned
  rw [xbgStep_cur, cur b.x _ b.cur, hturned, add_comm]

theorem xbgSteps_cur_of_shift {c : Cfg} {shift : BitVec (cursorBits c.ring c.words)}
    (h : ∀ b : Bank c, (xbgStep b).cur = b.cur + shift) (n : Nat) (b : Bank c) :
    (xbgSteps n b).cur = b.cur + BitVec.ofNat _ n * shift := by
  induction n with
  | zero => simp
  | succ n ih => rw [xbgSteps_succ', h, ih, BitVec.ofNat_add, add_mul, BitVec.one_mul, add_assoc]

/-- 64 is a multiple of every number of words of a ring. -/
theorem ofNat_words_eq_zero (c : Cfg) (k : Nat) :
    BitVec.ofNat (cursorBits c.ring c.words) (64 * k) = 0 := by
  have hdvd : 2 ^ cursorBits c.ring c.words ∣ 64 * k := by
    have hbits : cursorBits c.ring c.words ≤ 6 := by
      unfold cursorBits
      split
      · cases c.words <;> decide
      · exact Nat.zero_le _
    exact (Nat.pow_dvd_pow 2 hbits).mul_right k
  apply BitVec.eq_of_toNat_eq
  rw [BitVec.toNat_ofNat, Nat.mod_eq_zero_of_dvd hdvd]
  rfl

/-- Under CUR and EQV the 64 K updates of a jump turn the ring a whole number of times. -/
theorem xbgSteps_words_cur {c : Cfg} (cur : CursorAutonomous c) (eqv : RotationEquivariant c)
    (k : Nat) (b : Bank c) : (xbgSteps (64 * k) b).cur = b.cur := by
  obtain ⟨shift, hshift⟩ := exists_cursor_shift cur eqv
  rw [xbgSteps_cur_of_shift hshift, ofNat_words_eq_zero, zero_mul, add_zero]

/-! ### The jump loop computes the polynomial -/

theorem coefficientBits_cons (w : Word64) (ws : List Word64) :
    coefficientBits (w :: ws) = (List.range 64).map (w.getLsbD ·) ++ coefficientBits ws := rfl

/-- Bit i of the coefficients is bit i mod 64 of word i div 64 (spec/41_xbg_jump.md R124). -/
theorem coefficientBits_getD (coeffs : List Word64) (i : Nat) :
    (coefficientBits coeffs).getD i false = (coeffs.getD (i / 64) 0).getLsbD (i % 64) := by
  induction coeffs generalizing i with
  | nil => simp [coefficientBits]
  | cons w ws ih =>
    rw [coefficientBits_cons]
    by_cases hi : i < 64
    · rw [List.getD_append _ _ _ _ (by simpa using hi), Nat.div_eq_of_lt hi, Nat.mod_eq_of_lt hi]
      simp [hi]
    · rw [List.getD_append_right _ _ _ _ (by simpa using hi), List.length_map, List.length_range,
        ih]
      have hdiv : i / 64 = (i - 64) / 64 + 1 := by omega
      have hmod : i % 64 = (i - 64) % 64 := by omega
      rw [hdiv, hmod, List.getD_cons_succ]

/-- One term of the sum that `polynomialAction` takes: T^i·s, when its coefficient is set. -/
def addTerm {c : Cfg} (bits : Nat → Bool) (b : Bank c) (acc : XVec c.kind c.words) (i : Nat) :
    XVec c.kind c.words :=
  if bits i then xorWords acc (xbgSteps i b).logical else acc

theorem polynomialAction_eq_foldl_addTerm {c : Cfg} (coeffs : List Word64) (b : Bank c) :
    polynomialAction coeffs b = (List.range (64 * coeffs.length)).foldl
      (addTerm (fun i => (coeffs.getD (i / 64) 0).getLsbD (i % 64)) b) (zeroWords _ _) := rfl

/-- The loop's accumulator is the sum of the terms of its bits. -/
theorem jumpLoop_words {c : Cfg} (bits : List Bool) (acc : XVec c.kind c.words) (b : Bank c) :
    (jumpLoop bits acc b).1 =
      (List.range bits.length).foldl (addTerm (fun i => bits.getD i false) b) acc := by
  induction bits generalizing acc b with
  | nil => rfl
  | cons bit bits ih =>
    rw [jumpLoop, ih, List.length_cons, List.range_succ_eq_map, List.foldl_cons, List.foldl_map]
    rfl

theorem xbgJump_bank {c : Cfg} (coeffs : List Word64) (b : Bank c) :
    xbgJump coeffs b = { xbgSteps (64 * coeffs.length) b with
      x := realign c (polynomialAction coeffs b) (xbgSteps (64 * coeffs.length) b).cur } := by
  have hwords : (jumpLoop (coefficientBits coeffs) (zeroWords _ _) b).1 =
      polynomialAction coeffs b := by
    rw [jumpLoop_words, polynomialAction_eq_foldl_addTerm, coefficientBits_length]
    simp only [coefficientBits_getD]
  rw [xbgJump, jumpLoop_bank, hwords, coefficientBits_length]

@[simp] theorem xbgJump_cur {c : Cfg} (coeffs : List Word64) (b : Bank c) :
    (xbgJump coeffs b).cur = (xbgSteps (64 * coeffs.length) b).cur := by
  rw [xbgJump_bank]

/-- The jump leaves the polynomial of the update applied to the logical vector
(spec/41_xbg_jump.md R123, R124). -/
@[simp] theorem xbgJump_logical {c : Cfg} (coeffs : List Word64) (b : Bank c) :
    (xbgJump coeffs b).logical = polynomialAction coeffs b := by
  rw [xbgJump_bank, Bank.logical, logicalWords_realign]

/-! ### The polynomial x^m -/

@[simp] theorem singleBit_length (k m : Nat) : (singleBit k m).length = k := by
  simp [singleBit]

/-- Bit i of the words whose only bit is m (spec/41_xbg_jump.md R134). -/
theorem singleBit_bit {k i : Nat} (m : Nat) (hi : i < 64 * k) :
    ((singleBit k m).getD (i / 64) 0).getLsbD (i % 64) = decide (i = m) := by
  have hword : i / 64 < (singleBit k m).length := by
    rw [singleBit_length]
    omega
  rw [List.getD_eq_getElem _ _ hword]
  simp only [singleBit, List.getElem_map, List.getElem_range]
  split
  · next hsame =>
    have hpow : (1 <<< (m % 64) : Word64) = BitVec.twoPow 64 (m % 64) := rfl
    rw [hpow, BitVec.getLsbD_twoPow, decide_eq_true (by omega : m % 64 < 64), Bool.true_and,
      decide_eq_decide]
    omega
  · next hother =>
    rw [decide_eq_false (fun h => hother (congrArg (· / 64) h))]
    exact BitVec.getLsbD_zero

/-- A sum with one coefficient set is that term, once the sum has reached it. -/
theorem foldl_addTerm_single {c : Cfg} (b : Bank c) (m n : Nat) :
    (List.range n).foldl (addTerm (fun i => decide (i = m)) b) (zeroWords _ _) =
      if m < n then (xbgSteps m b).logical else zeroWords _ _ := by
  induction n with
  | zero => rfl
  | succ n ih =>
    rw [List.range_succ, List.foldl_append, ih, List.foldl_cons, List.foldl_nil, addTerm]
    obtain hlt | rfl | hgt := Nat.lt_trichotomy n m
    · rw [if_neg (mt of_decide_eq_true hlt.ne), if_neg (by omega), if_neg (by omega)]
    · simp
    · rw [if_neg (mt of_decide_eq_true hgt.ne'), if_pos hgt, if_pos (by omega)]

/-- x^m(T)·s = T^m·s. -/
theorem polynomialAction_singleBit {c : Cfg} {k m : Nat} (hm : m < 64 * k) (b : Bank c) :
    polynomialAction (singleBit k m) b = (xbgSteps m b).logical := by
  rw [polynomialAction_eq_foldl_addTerm, singleBit_length,
    ← (foldl_addTerm_single b m (64 * k)).trans (if_pos hm)]
  refine List.foldl_ext _ _ _ fun acc i hi => ?_
  rw [addTerm, addTerm, singleBit_bit m (List.mem_range.1 hi)]

end Sys2Proof.Machine
end

section
/-! The commands JUMP, LONGJUMP and JUMPV: what they leave in the two banks, jumps by small powers,
and jumps one after the other (spec/41_xbg_jump.md R125 to R134). -/

namespace Sys2Proof.Machine

/-! ### The two parts of a jump -/

theorem jumped_words_some {c : Cfg} (cs : List Word64) (k : Option Nat) (b : Bank c) :
    (jumped (some cs) k b).x = (xbgJump cs b).x ∧
      (jumped (some cs) k b).cur = (xbgJump cs b).cur := by
  cases k <;> exact ⟨rfl, rfl⟩

theorem jumped_words_none {c : Cfg} (k : Option Nat) (b : Bank c) :
    (jumped none k b).x = b.x ∧ (jumped none k b).cur = b.cur := by
  cases k <;> exact ⟨rfl, rfl⟩

/-- The XBG part touches neither LS nor LA, so the LCG part works on the bank's own. -/
theorem jumped_ls_some {c : Cfg} (coeffs : Option (List Word64)) (e : Nat) (b : Bank c) :
    (jumped coeffs (some e) b).ls = (lcgSteps (2 ^ e) b).ls := by
  rw [← lcgJump_eq_lcgSteps]
  cases coeffs with
  | none => rfl
  | some cs =>
    obtain ⟨hla, hls, -⟩ := xbgJump_frame cs b
    rw [jumped, setCachesEmpty_ls, lcgJump_ls, lcgJump_ls, hla, hls]

theorem jumped_ls_none {c : Cfg} (coeffs : Option (List Word64)) (b : Bank c) :
    (jumped coeffs none b).ls = b.ls := by
  cases coeffs with
  | none => rfl
  | some cs =>
    obtain ⟨-, hls, -⟩ := xbgJump_frame cs b
    exact hls

theorem jumped_logical_some {c : Cfg} (cs : List Word64) (k : Option Nat) (b : Bank c) :
    (jumped (some cs) k b).logical = polynomialAction cs b := by
  obtain ⟨hx, hcur⟩ := jumped_words_some cs k b
  rw [Bank.logical, hx, hcur, ← xbgJump_logical, Bank.logical]

/-- `do_jump` does what the two parts of a descriptor say (spec/41_xbg_jump.md R125). -/
theorem jumpsTo_jumped {c : Cfg} (coeffs : Option (List Word64)) (k : Option Nat) (b : Bank c) :
    JumpsTo coeffs k b (jumped coeffs k b) where
  additive := (jumped_frame coeffs k b).1
  words := by
    rintro cs rfl
    exact jumped_logical_some cs k b
  cursor := by
    rintro cs rfl
    rw [(jumped_words_some cs k b).2, xbgJump_cur]
  wordsKept := by
    rintro rfl
    exact jumped_words_none k b
  value := by
    rintro e rfl
    exact jumped_ls_some coeffs e b
  valueKept := by
    rintro rfl
    exact jumped_ls_none coeffs b
  booleanCache := (jumped_frame coeffs k b).2.1
  halfCache := (jumped_frame coeffs k b).2.2

/-! ### The three commands on a valid bank -/

theorem jumpBy_valid {t : State} {b : Bank t.config} (hg : t.g = some b)
    {desc : Option (JumpDescriptor t.config.kind.lcgBits)}
    {d : JumpDescriptor t.config.kind.lcgBits} (hd : desc = some d) :
    jumpBy t desc = { t with
      g := some (jumped (descriptorCoeffs d) (descriptorExponent d) b)
      s := some b
      last := 0 } := by
  rw [hd]
  exact State.withG_some hg _

theorem exec_jump_valid {t : State} {b : Bank t.config} (hg : t.g = some b)
    {d : JumpDescriptor t.config.kind.lcgBits} (hd : t.config.jump = some d) :
    exec .jump t = .next { t with
      g := some (jumped (descriptorCoeffs d) (descriptorExponent d) b), s := some b, last := 0 } :=
  congrArg Host.Outcome.next (jumpBy_valid hg hd)

theorem exec_longjump_valid {t : State} {b : Bank t.config} (hg : t.g = some b)
    {d : JumpDescriptor t.config.kind.lcgBits} (hd : t.config.ljump = some d) :
    exec .longjump t = .next { t with
      g := some (jumped (descriptorCoeffs d) (descriptorExponent d) b), s := some b, last := 0 } :=
  congrArg Host.Outcome.next (jumpBy_valid hg hd)

theorem exec_jumpv_valid {t : State} {b : Bank t.config} (hg : t.g = some b) {cs : List Word64}
    (hcs : cs ≠ []) :
    exec (.jumpv cs) t = .next { t with
      g := some (jumped (some cs) none b), s := some b, last := 0 } := by
  cases cs with
  | nil => exact absurd rfl hcs
  | cons w ws => exact congrArg Host.Outcome.next (State.withG_some hg _)

/-- Settles O35: the bank JUMP leaves in G is `jumped`. -/
theorem jumpCopiesThenMovesTheBank : Obligations.JumpCopiesThenMovesTheBank := by
  unfold Obligations.JumpCopiesThenMovesTheBank
  intro t b d hg hd
  exact ⟨_, exec_jump_valid hg hd, jumpsTo_jumped _ _ b⟩

/-- Settles O36: the bank LONGJUMP leaves in G is `jumped`. -/
theorem longjumpCopiesThenMovesTheBank : Obligations.LongjumpCopiesThenMovesTheBank := by
  unfold Obligations.LongjumpCopiesThenMovesTheBank
  intro t b d hg hd
  exact ⟨_, exec_longjump_valid hg hd, jumpsTo_jumped _ _ b⟩

/-- Settles O37: the bank JUMPV leaves in G is `jumped` without an LCG part. -/
theorem jumpvAppliesThePolynomial : Obligations.JumpvAppliesThePolynomial := by
  unfold Obligations.JumpvAppliesThePolynomial
  intro t b w ws hg
  exact ⟨_, exec_jumpv_valid hg (List.cons_ne_nil w ws), jumpsTo_jumped _ _ b⟩

/-! ### Banks that draw the same words -/

/-- The generator registers agree up to a turn of the ring, which no draw shows under EQV and TEQV;
the caches may differ. -/
structure Bank.SameDraws {c : Cfg} (b b' : Bank c) : Prop where
  words : b.logical = b'.logical
  additive : b.la = b'.la
  value : b.ls = b'.ls

theorem drawnWord_congr {c : Cfg} (teqv : OutputEquivariant c) {b b' : Bank c}
    (h : b.SameDraws b') : drawnWord b = drawnWord b' := by
  obtain ⟨d, hx, hcur⟩ := Bank.exists_rotateRing h.words
  obtain ⟨htransform, hhead⟩ := teqv b.x b.cur d
  simp only [drawnWord, headWord, hx, hcur, htransform, hhead, h.value]

theorem afterDraw_sameDraws {c : Cfg} (eqv : RotationEquivariant c) {b b' : Bank c}
    (h : b.SameDraws b') : (afterDraw b).SameDraws (afterDraw b') := by
  unfold afterDraw
  split
  · have hwords : (lcgStep b).logical = (lcgStep b').logical := h.words
    refine ⟨xbgStep_logical_congr eqv hwords, h.additive, ?_⟩
    simp only [xbgStep_ls, lcgStep_ls, h.value, h.additive]
  · exact ⟨xbgStep_logical_congr eqv h.words, h.additive, h.value⟩

theorem draws_congr {c : Cfg} (eqv : RotationEquivariant c) (teqv : OutputEquivariant c)
    {b b' : Bank c} (h : b.SameDraws b') (n : Nat) : (draws n b).1 = (draws n b').1 := by
  induction n generalizing b b' with
  | zero => rfl
  | succ n ih =>
    exact congrArg₂ List.cons (drawnWord_congr teqv h) (ih (afterDraw_sameDraws eqv h))

/-- Settles O39: the jump by the table and the D updates leave banks that draw the same words. -/
theorem jumpMatchesBruteForce : Obligations.JumpMatchesBruteForce := by
  unfold Obligations.JumpMatchesBruteForce
  intro c coeffs distance b eqv teqv advances
  have hwords : (xbgJump coeffs b).logical = (xbgSteps distance b).logical :=
    (xbgJump_logical coeffs b).trans (advances b)
  obtain ⟨hla, hls, -⟩ := xbgJump_frame coeffs b
  obtain ⟨hla', hls', -⟩ := xbgSteps_frame distance b
  exact ⟨hwords, draws_congr eqv teqv ⟨hwords, hla.trans hla'.symm, hls.trans hls'.symm⟩⟩

theorem singleBit_ne_nil {k m : Nat} (hm : m < 64 * k) : singleBit k m ≠ [] := by
  intro h
  have hlength := singleBit_length k m
  rw [h, List.length_nil] at hlength
  omega

/-- Settles O38: the polynomial of the one bit m is m updates. -/
theorem smallPowerJumpIsStepping : Obligations.SmallPowerJumpIsStepping := by
  unfold Obligations.SmallPowerJumpIsStepping
  intro t b k m hg hm
  have hjump := jumpsTo_jumped (some (singleBit k m)) none b
  have hwords : (jumped (some (singleBit k m)) none b).logical = (xbgSteps m b).logical :=
    (hjump.words _ rfl).trans (polynomialAction_singleBit hm b)
  have hcursor := hjump.cursor _ rfl
  rw [singleBit_length] at hcursor
  obtain ⟨hla, hls, -⟩ := xbgSteps_frame m b
  have hsame : (jumped (some (singleBit k m)) none b).SameDraws (xbgSteps m b) :=
    ⟨hwords, hjump.additive.trans hla.symm, (hjump.valueKept rfl).trans hls.symm⟩
  refine ⟨_, exec_jumpv_valid hg (singleBit_ne_nil hm), hwords, hcursor, ?_, ?_⟩
  · intro hring
    rwa [Bank.logical_of_no_ring hring, Bank.logical_of_no_ring hring] at hwords
  · intro eqv teqv
    exact draws_congr eqv teqv hsame

/-! ### Jumps one after the other -/

/-- The bank is `x` XBG updates and `l` LCG steps further, its cursor where it was. -/
structure Bank.MovedBy {c : Cfg} (x l : Nat) (b b' : Bank c) : Prop where
  words : b'.logical = (xbgSteps x b).logical
  cursor : b'.cur = b.cur
  additive : b'.la = b.la
  value : b'.ls = (lcgSteps l b).ls

theorem Bank.MovedBy.trans {c : Cfg} (eqv : RotationEquivariant c) {x x' l l' : Nat}
    {b b' b'' : Bank c} (h : b.MovedBy x l b') (h' : b'.MovedBy x' l' b'') :
    b.MovedBy (x + x') (l + l') b'' where
  words := by rw [h'.words, xbgSteps_add, xbgSteps_logical_congr eqv h.words]
  cursor := h'.cursor.trans h.cursor
  additive := h'.additive.trans h.additive
  value := by
    have hla : b'.la = (lcgSteps l b).la := h.additive.trans (lcgSteps_la l b).symm
    rw [h'.value, lcgSteps_add, lcgSteps_ls_congr h.value hla]

theorem Bank.MovedBy.iterate {c : Cfg} (eqv : RotationEquivariant c) {x l : Nat}
    {f : Bank c → Bank c} (h : ∀ b : Bank c, b.MovedBy x l (f b)) (n : Nat) (b : Bank c) :
    b.MovedBy (n * x) (n * l) (f^[n] b) := by
  induction n with
  | zero => rw [Nat.zero_mul, Nat.zero_mul]; exact ⟨rfl, rfl, rfl, rfl⟩
  | succ n ih =>
    rw [Function.iterate_succ_apply', Nat.succ_mul, Nat.succ_mul]
    exact ih.trans eqv (h _)

/-- Two banks moved alike and with empty caches are one. -/
theorem Bank.MovedBy.unique {c : Cfg} {x l : Nat} {b b' b'' : Bank c} (h' : b.MovedBy x l b')
    (h'' : b.MovedBy x l b'') (empty' : b'.cachesEmpty) (empty'' : b''.cachesEmpty) : b' = b'' := by
  have hcur : b'.cur = b''.cur := h'.cursor.trans h''.cursor.symm
  have hx : b'.x = b''.x := Bank.x_eq_of_logical (h'.words.trans h''.words.symm) hcur
  have hla : b'.la = b''.la := h'.additive.trans h''.additive.symm
  have hls : b'.ls = b''.ls := h'.value.trans h''.value.symm
  obtain ⟨hbc', hhc'⟩ := empty'
  obtain ⟨hbc'', hhc''⟩ := empty''
  have hbc : b'.bc = b''.bc := hbc'.trans hbc''.symm
  have hhc : b'.hc = b''.hc := hhc'.trans hhc''.symm
  obtain ⟨⟩ := b'
  obtain ⟨⟩ := b''
  exact (Bank.mk.injEq ..).mpr ⟨hx, hcur, hla, hls, hbc, hhc⟩

/-- The XBG distance of a C part, 0 without one (spec/41_xbg_jump.md R129). -/
def XbgDistance (c : Cfg) (coeffs : Option (List Word64)) (distance : Nat) : Prop :=
  match coeffs with
  | none => distance = 0
  | some cs => AdvancesBy c cs distance

/-- The LCG distance of a K part, 0 without one (spec/42_lcg_mac128.md R163). -/
def lcgDistance : Option Nat → Nat
  | none => 0
  | some e => 2 ^ e

/-- Under CUR and EQV a jump moves a bank by the distances of its parts. -/
theorem jumped_movedBy {c : Cfg} (cur : CursorAutonomous c) (eqv : RotationEquivariant c)
    {coeffs : Option (List Word64)} {distance : Nat} (h : XbgDistance c coeffs distance)
    (k : Option Nat) (b : Bank c) : b.MovedBy distance (lcgDistance k) (jumped coeffs k b) := by
  have hjump := jumpsTo_jumped coeffs k b
  have hvalue : (jumped coeffs k b).ls = (lcgSteps (lcgDistance k) b).ls := by
    cases k with
    | none => exact hjump.valueKept rfl
    | some e => exact hjump.value e rfl
  cases coeffs with
  | none =>
    obtain ⟨hx, hcur⟩ := hjump.wordsKept rfl
    obtain rfl : distance = 0 := h
    exact ⟨by rw [Bank.logical, hx, hcur]; rfl, hcur, hjump.additive, hvalue⟩
  | some cs =>
    exact ⟨(hjump.words cs rfl).trans (h b),
      (hjump.cursor cs rfl).trans (xbgSteps_words_cur cur eqv _ b), hjump.additive, hvalue⟩

theorem Composes.exists_xbgDistance {c : Cfg} {d d' : JumpDescriptor c.kind.lcgBits} {n : Nat}
    (h : Composes c d d' n) : ∃ distance, XbgDistance c (descriptorCoeffs d) distance ∧
      XbgDistance c (descriptorCoeffs d') (n * distance) := by
  cases hd : descriptorCoeffs d with
  | none => exact ⟨0, rfl, by rw [h.noXbgPart hd]; exact Nat.mul_zero n⟩
  | some cs =>
    obtain ⟨cs', distance, hd', hcs, hcs'⟩ := h.xbgPart cs hd
    exact ⟨distance, hcs, by rw [hd']; exact hcs'⟩

theorem Composes.lcgDistance_eq {c : Cfg} {d d' : JumpDescriptor c.kind.lcgBits} {n : Nat}
    (h : Composes c d d' n) :
    lcgDistance (descriptorExponent d') = n * lcgDistance (descriptorExponent d) := by
  cases hd : descriptorExponent d with
  | none => rw [h.noLcgPart hd]; exact (Nat.mul_zero n).symm
  | some e =>
    obtain ⟨e', hd', hpow⟩ := h.lcgPart e hd
    rw [hd']
    exact hpow

theorem jumped_cachesEmpty {c : Cfg} (coeffs : Option (List Word64)) (k : Option Nat) (b : Bank c) :
    (jumped coeffs k b).cachesEmpty :=
  (jumped_frame coeffs k b).2

theorem iterate_jumped_cachesEmpty {c : Cfg} (coeffs : Option (List Word64)) (k : Option Nat)
    (b : Bank c) {n : Nat} (hn : 0 < n) : ((jumped coeffs k)^[n] b).cachesEmpty := by
  obtain ⟨m, rfl⟩ := Nat.exists_eq_succ_of_ne_zero hn.ne'
  rw [Function.iterate_succ_apply']
  exact jumped_cachesEmpty coeffs k _

/-- n jumps make one that goes n times as far (spec/41_xbg_jump.md R131). -/
theorem iterate_jumped_eq {c : Cfg} {d d' : JumpDescriptor c.kind.lcgBits} {n : Nat}
    (cur : CursorAutonomous c) (eqv : RotationEquivariant c) (hn : 0 < n) (h : Composes c d d' n)
    (b : Bank c) : (jumped (descriptorCoeffs d) (descriptorExponent d))^[n] b =
      jumped (descriptorCoeffs d') (descriptorExponent d') b := by
  obtain ⟨distance, hshort, hlong⟩ := h.exists_xbgDistance
  have hmany := Bank.MovedBy.iterate eqv (jumped_movedBy cur eqv hshort (descriptorExponent d)) n b
  have hone := jumped_movedBy cur eqv hlong (descriptorExponent d') b
  rw [h.lcgDistance_eq] at hone
  exact hmany.unique hone (iterate_jumped_cachesEmpty _ _ b hn) (jumped_cachesEmpty _ _ b)

/-- n JUMP one after the other: S holds the bank before the last. -/
theorem runCommands_replicate_jump {t : State} {b : Bank t.config} (hg : t.g = some b)
    {d : JumpDescriptor t.config.kind.lcgBits} (hd : t.config.jump = some d) {n : Nat}
    (hn : 1 ≤ n) :
    runCommands t (List.replicate n .jump) = .next { t with
      g := some ((jumped (descriptorCoeffs d) (descriptorExponent d))^[n] b)
      s := some ((jumped (descriptorCoeffs d) (descriptorExponent d))^[n - 1] b)
      last := 0 } := by
  induction n, hn using Nat.le_induction with
  | base => exact runCommands_cons (exec_jump_valid hg hd) []
  | succ n hn ih =>
    rw [List.replicate_succ', runCommands_append ih, Function.iterate_succ_apply',
      Nat.add_sub_cancel]
    refine runCommands_cons (exec_jump_valid rfl ?_) []
    exact hd

/-- Settles O40: n jumps and the one of n times the distance move a bank alike. -/
theorem longJumpIsComposedJumps : Obligations.LongJumpIsComposedJumps := by
  unfold Obligations.LongJumpIsComposedJumps
  constructor
  · intro c d d' n b cur eqv hn h
    exact iterate_jumped_eq cur eqv hn h b
  · intro t b d d' n cur eqv hn h hg hjump hljump jumps
    refine ⟨runCommands_replicate_jump hg hjump hn, ?_⟩
    rw [exec_longjump_valid hg hljump, ← iterate_jumped_eq cur eqv hn h b]

end Sys2Proof.Machine
end

section
/-! A stand-alone XBG: its draws, and all-zero X (spec/41_xbg_jump.md R120, R132). -/

namespace Sys2Proof.Machine

/-! ### The draw of a stand-alone XBG -/

theorem draw_of_standalone {c : Cfg} (h : c.kind.isLX = false) (b : Bank c) :
    draw b = (c.transform b.x b.cur, xbgStep b) := by
  have hnot : ¬ c.kind.isLX = true := by rw [h]; decide
  rw [draw, drawnWord, afterDraw, if_neg hnot, if_neg hnot]

/-- Settles O25: the draw is TRANSFORM and one step. -/
theorem drawOfStandaloneXbg : Obligations.DrawOfStandaloneXbg := by
  unfold Obligations.DrawOfStandaloneXbg
  intro c b h
  rw [draw_of_standalone h]
  exact ⟨rfl, rfl⟩

theorem draws_of_standalone {c : Cfg} (h : c.kind.isLX = false) (n : Nat) (b : Bank c) :
    draws n b =
      ((List.range n).map (fun i => c.transform (xbgSteps i b).x (xbgSteps i b).cur),
        xbgSteps n b) := by
  induction n generalizing b with
  | zero => rfl
  | succ n ih =>
    rw [draws, draw_of_standalone h, ih, List.range_succ_eq_map, List.map_cons, List.map_map]
    rfl

/-! ### All-zero X -/

/-- Under LIN the update sends 0 xor 0 to a word xored with itself (spec/00_scope.md R8). -/
theorem xbgStep_x_zero {c : Cfg} (lin : Linear c) {b : Bank c} (hx : b.x = zeroWords _ _) :
    (xbgStep b).x = zeroWords _ _ := by
  have hsum := lin (zeroWords _ _) (zeroWords _ _) b.cur
  rw [xorWords_self, xorWords_self] at hsum
  rw [xbgStep_x, hx, hsum]

theorem xbgSteps_x_zero {c : Cfg} (lin : Linear c) (n : Nat) {b : Bank c}
    (hx : b.x = zeroWords _ _) : (xbgSteps n b).x = zeroWords _ _ := by
  induction n generalizing b with
  | zero => exact hx
  | succ n ih => exact ih (xbgStep_x_zero lin hx)

theorem Bank.logical_zero {c : Cfg} {b : Bank c} (hx : b.x = zeroWords _ _) :
    b.logical = zeroWords _ _ := by
  apply Vector.ext
  intro i hi
  simp [Bank.logical, hx, zeroWords_getElem]

theorem realign_zero (c : Cfg) (cur : BitVec (cursorBits c.ring c.words)) :
    realign c (zeroWords _ _) cur = zeroWords _ _ := by
  apply Vector.ext
  intro i hi
  simp [zeroWords_getElem]

theorem polynomialAction_zero {c : Cfg} (lin : Linear c) (coeffs : List Word64) {b : Bank c}
    (hx : b.x = zeroWords _ _) : polynomialAction coeffs b = zeroWords _ _ := by
  rw [polynomialAction_eq_foldl_addTerm]
  refine List.foldlRecOn (motive := (· = zeroWords _ _)) _ _ rfl fun acc hacc i _ => ?_
  rw [addTerm, hacc, Bank.logical_zero (xbgSteps_x_zero lin i hx), xorWords_self, ite_self]

/-- Settles O41: every term of the sum a jump takes is zero, and a draw sees X as zero. -/
theorem zeroIsAFixedPoint : Obligations.ZeroIsAFixedPoint := by
  unfold Obligations.ZeroIsAFixedPoint
  intro c b lin hx
  refine ⟨xbgStep_x_zero lin hx, fun coeffs => ?_, fun hX n => ?_⟩
  · rw [xbgJump_bank, polynomialAction_zero lin coeffs hx, realign_zero]
  · simp only [draws_of_standalone hX, xbgSteps_x_zero lin _ hx]
    refine ⟨trivial, trivial, fun tzero => ?_⟩
    simp only [tzero _, List.map_const', List.length_range]

end Sys2Proof.Machine
end

section
/-! The multiply-add kernel by its exact values: the two halves of a product and of a sum, the
datapath that folds 32-bit partial products, what UMULH, UADDH and MAC128 emit, the LCG step as a
number, and the Brown constants in closed form (spec/42_lcg_mac128.md R151 to R163). -/

namespace Sys2Proof.Machine

/-! ### A command whose effect is bytes for DOUT -/

/-- Bytes are appended to DOUT and the command ends without fault (spec/10_state.md R36). -/
theorem exec_of_effect_emit {i : Instr} {t : State} {bytes : List Byte}
    (h : effect i t.g = .emit bytes) :
    exec i t = .next { t with dout := t.dout ++ bytes, last := 0 } := by
  rw [exec_eq_apply_effect, h]
  rfl

/-! ### The high half of a product -/

theorem umulh_comm (a b : Word64) : umulh a b = umulh b a := by
  rw [umulh, umulh, Nat.mul_comm]

theorem umulh_toNat (a b : Word64) : (umulh a b).toNat = a.toNat * b.toNat / 2 ^ 64 := by
  have hlow := (a * b).isLt
  rw [← umulh_add_mul, Nat.mul_add_div (Nat.two_pow_pos 64), Nat.div_eq_of_lt hlow, Nat.add_zero]

/-- Settles O45: the product splits at bit 64 into `umulh` and the wrapping product. -/
theorem umulhEmitsTheHighHalf : Obligations.UmulhEmitsTheHighHalf := by
  unfold Obligations.UmulhEmitsTheHighHalf
  intro a b
  refine ⟨umulh_comm a b, umulh_toNat a b, ?_, fun t => exec_of_effect_emit rfl⟩
  rw [Nat.mul_comm _ (2 ^ 64), umulh_add_mul]

/-! ### The datapath of the high half -/

/-- A word is its two 32-bit halves. -/
theorem halves32_toNat (a : Word64) :
    2 ^ 32 * (a.extractLsb' 32 32).toNat + (a.extractLsb' 0 32).toNat = a.toNat := by
  rw [BitVec.extractLsb'_toNat, BitVec.extractLsb'_toNat]
  have ha := a.isLt
  omega

theorem toNat_mul_toNat_le (x y : BitVec 32) : x.toNat * y.toNat ≤ (2 ^ 32 - 1) * (2 ^ 32 - 1) :=
  Nat.mul_le_mul (Nat.le_pred_of_lt x.isLt) (Nat.le_pred_of_lt y.isLt)

/-- A partial product of 32-bit halves is exact in 64 bits. -/
theorem partialProduct_toNat (x y : BitVec 32) :
    (x.setWidth 64 * y.setWidth 64).toNat = x.toNat * y.toNat := by
  have hle := toNat_mul_toNat_le x y
  rw [BitVec.toNat_mul, BitVec.toNat_setWidth_of_le (by decide),
    BitVec.toNat_setWidth_of_le (by decide), Nat.mod_eq_of_lt (by omega)]

/-- The fold of R152 on words that hold exact partial products: `mid` collects bits 32 to 95, and
neither of the two sums reaches 2^64. -/
theorem fold_partialProducts_toNat {ll lh hl hh : Word64}
    (hll : ll.toNat ≤ (2 ^ 32 - 1) * (2 ^ 32 - 1)) (hlh : lh.toNat ≤ (2 ^ 32 - 1) * (2 ^ 32 - 1))
    (hhl : hl.toNat ≤ (2 ^ 32 - 1) * (2 ^ 32 - 1))
    (hhh : hh.toNat ≤ (2 ^ 32 - 1) * (2 ^ 32 - 1)) :
    ((lh >>> 32) + (((ll >>> 32) + (lh.extractLsb' 0 32).setWidth 64 + hl) >>> 32) + hh).toNat =
      (2 ^ 64 * hh.toNat + 2 ^ 32 * (lh.toNat + hl.toNat) + ll.toNat) / 2 ^ 64 := by
  have hmid : ((ll >>> 32) + (lh.extractLsb' 0 32).setWidth 64 + hl).toNat =
      ll.toNat / 2 ^ 32 + lh.toNat % 2 ^ 32 + hl.toNat := by
    simp only [BitVec.toNat_add, BitVec.toNat_ushiftRight, BitVec.toNat_setWidth,
      BitVec.extractLsb'_toNat, Nat.shiftRight_eq_div_pow]
    omega
  simp only [BitVec.toNat_add _ hh, BitVec.toNat_add (lh >>> 32), BitVec.toNat_ushiftRight, hmid,
    Nat.shiftRight_eq_div_pow]
  omega

/-- Settles O46: the four partial products are exact, and their fold is the schoolbook product of
the halves, cut at bit 64. -/
theorem umulhDatapathIsTheHighHalf : Obligations.UmulhDatapathIsTheHighHalf := by
  unfold Obligations.UmulhDatapathIsTheHighHalf
  intro a b
  have hbound (x y : BitVec 32) :
      (x.setWidth 64 * y.setWidth 64).toNat ≤ (2 ^ 32 - 1) * (2 ^ 32 - 1) :=
    partialProduct_toNat x y ▸ toNat_mul_toNat_le x y
  rw [umulhDatapath, fold_partialProducts_toNat (hbound _ _) (hbound _ _) (hbound _ _) (hbound _ _)]
  simp only [partialProduct_toNat]
  rw [← halves32_toNat a, ← halves32_toNat b]
  congr 1
  ring

/-! ### The carry of a sum -/

theorem uaddh_comm (a b : Word64) : uaddh a b = uaddh b a := by
  rw [uaddh, uaddh, Nat.add_comm]

theorem uaddh_toNat (a b : Word64) :
    (uaddh a b).toNat = if 2 ^ 64 ≤ a.toNat + b.toNat then 1 else 0 := by
  rw [uaddh, apply_ite BitVec.toNat]
  rfl

/-- A sum wraps exactly when it comes out below an operand. -/
theorem add_lt_left_iff_carry (a b : Word64) : a + b < a ↔ 2 ^ 64 ≤ a.toNat + b.toNat := by
  have ha := a.isLt
  have hb := b.isLt
  rw [BitVec.lt_def, BitVec.toNat_add]
  omega

/-- Settles O47: the carry is a comparison of the exact sum with 2^64. -/
theorem uaddhEmitsTheCarry : Obligations.UaddhEmitsTheCarry := by
  unfold Obligations.UaddhEmitsTheCarry
  intro a b
  refine ⟨uaddh_comm a b, uaddh_toNat a b, ?_, fun t => exec_of_effect_emit rfl⟩
  simp only [uaddh, add_lt_left_iff_carry]

/-! ### The wide multiply-add -/

theorem bitVec_mul_add_eq_ofNat {w : Nat} (m x a : BitVec w) :
    m * x + a = BitVec.ofNat w (m.toNat * x.toNat + a.toNat) := by
  apply BitVec.eq_of_toNat_eq
  rw [BitVec.toNat_add, BitVec.toNat_mul, BitVec.toNat_ofNat, Nat.mod_add_mod]

/-- The two words of the kernel are one multiply-add (spec/42_lcg_mac128.md R154). -/
theorem mac128_toNat (mh ml xh xl ah al : Word64) :
    (mac128 mh ml xh xl ah al).1.toNat * 2 ^ 64 + (mac128 mh ml xh xl ah al).2.toNat =
      ((mh.toNat * 2 ^ 64 + ml.toNat) * (xh.toNat * 2 ^ 64 + xl.toNat) +
        (ah.toNat * 2 ^ 64 + al.toNat)) % 2 ^ 128 := by
  have hwide := congrArg BitVec.toNat (join128_mac128 mh ml xh xl ah al)
  rw [bitVec_mul_add_eq_ofNat, BitVec.toNat_ofNat] at hwide
  simpa only [join128_toNat, Nat.mul_comm (2 ^ 64)] using hwide

/-- Settles O48: the emitted words are the kernel's two, the high one first. -/
theorem mac128EmitsTheWideResult : Obligations.Mac128EmitsTheWideResult := by
  unfold Obligations.Mac128EmitsTheWideResult
  intro t mh ml xh xl ah al
  refine ⟨(mac128 mh ml xh xl ah al).1, (mac128 mh ml xh xl ah al).2, ?_,
    mac128_toNat mh ml xh xl ah al⟩
  rw [List.append_assoc]
  exact exec_of_effect_emit rfl

/-! ### The LCG -/

@[simp] theorem high64_join128 (hi lo : Word64) : high64 (join128 hi lo) = hi := by
  apply BitVec.eq_of_toNat_eq
  rw [high64, BitVec.extractLsb'_toNat, join128_toNat]
  have hhi := hi.isLt
  have hlo := lo.isLt
  omega

@[simp] theorem low64_join128 (hi lo : Word64) : low64 (join128 hi lo) = lo := by
  apply BitVec.eq_of_toNat_eq
  rw [low64, BitVec.extractLsb'_toNat, join128_toNat]
  have hlo := lo.isLt
  omega

/-- Settles O42: the step is affine in both widths, and R159 is the kernel with its sum in another
order. -/
theorem lcgStepIsWideMultiplyAdd : Obligations.LcgStepIsWideMultiplyAdd := by
  unfold Obligations.LcgStepIsWideMultiplyAdd
  refine ⟨fun c b _ => ?_, fun mLow ls la => ?_⟩
  · rw [lcgStep, lcgNext_eq, bitVec_mul_add_eq_ofNat]
  · rw [lcgStep128_eq_mac128, high64_join128, low64_join128]

/-- Settles O43: by repeated doubling; the jump by 2^0 is the case of one step. -/
theorem lcgJumpIsRepeatedStep : Obligations.LcgJumpIsRepeatedStep := by
  unfold Obligations.LcgJumpIsRepeatedStep
  intro c k b
  exact ⟨lcgJump_eq_lcgSteps k b, lcgJump_eq_lcgSteps 0 b⟩

/-! ### The Brown constants -/

/-- Twice as many powers are the first half and the first half times the next power. -/
theorem sum_powers_double (m n : Nat) :
    ∑ i ∈ Finset.range (n * 2), m ^ i = (m ^ n + 1) * ∑ i ∈ Finset.range n, m ^ i := by
  rw [Nat.mul_two, Finset.sum_range_add]
  simp only [Nat.pow_add, ← Finset.mul_sum]
  ring

/-- The recurrences of R160 square the power and double the sum. -/
theorem brown_eq_ofNat {l : Nat} (m : BitVec l) (k : Nat) :
    brown m k = (BitVec.ofNat l (m.toNat ^ 2 ^ k),
      BitVec.ofNat l (∑ i ∈ Finset.range (2 ^ k), m.toNat ^ i)) := by
  induction k with
  | zero => simp [brown]
  | succ k ih =>
    rw [brown, ih, Nat.pow_succ, sum_powers_double, Nat.pow_mul, Nat.pow_two]
    simp only [BitVec.ofNat_mul, BitVec.ofNat_add, BitVec.ofNat_eq_ofNat]

/-- Settles O44: the base case and recurrences are the definition, the closed forms follow from
them. -/
theorem brownConstantsInClosedForm : Obligations.BrownConstantsInClosedForm := by
  unfold Obligations.BrownConstantsInClosedForm
  intro l m k
  refine ⟨rfl, rfl, ?_, ?_⟩
  · rw [brown_eq_ofNat, BitVec.toNat_ofNat]
  · rw [brown_eq_ofNat, BitVec.toNat_ofNat]

end Sys2Proof.Machine
end

section
/-! The draw of the composite (spec/43_lxm.md R180 to R183): the word mixed before both updates, and
the two updates, each of its own registers. -/

namespace Sys2Proof.Machine

/-- Every composite has 64-bit words (spec/43_lxm.md R180). -/
theorem wordBits_of_composite {k : Kind} (h : k.isLX = true) : k.wordBits = 64 := by
  cases k with
  | x32 | x64 => cases h
  | lx64 | lx128 => rfl

theorem headOf_of_no_ring {c : Cfg} (h : c.ring = false) (x : XVec c.kind c.words)
    (cur : BitVec (cursorBits c.ring c.words)) : headOf c x cur = x[0]'(count_pos c) := by
  have hnot : ¬ c.ring = true := by rw [h]; decide
  rw [headOf, if_neg hnot]

theorem high64_eq_ofNat (v : BitVec 128) : high64 v = BitVec.ofNat 64 (v.toNat / 2 ^ 64) := by
  apply BitVec.eq_of_toNat_eq
  rw [high64, BitVec.extractLsb'_toNat, BitVec.toNat_ofNat, Nat.shiftRight_eq_div_pow]

/-- The top 64 bits of a 64-bit value are all of it. -/
theorem word64_eq_ofNat (v : Word64) : v = BitVec.ofNat 64 (v.toNat / 2 ^ 0) := by
  rw [Nat.pow_zero, Nat.div_one, BitVec.ofNat_toNat, BitVec.setWidth_eq]

/-- The high word is the top 64 bits of LS: all of it when L = 64 (spec/43_lxm.md R182). -/
theorem lcgHigh_eq_ofNat {k : Kind} (h : k.isLX = true) (ls : BitVec k.lcgBits) :
    lcgHigh k ls = BitVec.ofNat 64 (ls.toNat / 2 ^ (k.lcgBits - 64)) := by
  cases k with
  | x32 | x64 => cases h
  | lx64 => exact word64_eq_ofNat ls
  | lx128 => exact high64_eq_ofNat ls

/-- The LCG step as a number, in both widths (spec/42_lcg_mac128.md R158, R159). -/
theorem lcgNext_toNat (k : Kind) (mLow : Word64) (ls la : BitVec k.lcgBits) :
    (lcgNext k mLow ls la).toNat =
      ((multiplier k mLow).toNat * ls.toNat + la.toNat) % 2 ^ k.lcgBits := by
  rw [lcgNext_eq, bitVec_mul_add_eq_ofNat, BitVec.toNat_ofNat]

theorem draw_of_composite {c : Cfg} (h : c.kind.isLX = true) (b : Bank c) :
    draw b = ((c.mix (lcgHigh c.kind b.ls + (headWord b).setWidth 64)).setWidth _,
      xbgStep (lcgStep b)) := by
  rw [draw, drawnWord, afterDraw, if_pos h, if_pos h]

/-- With 64-bit words the drawn word is MIX's result whole, of the registers before both updates. -/
theorem draw_word_toNat_of_composite {c : Cfg} (h : c.kind.isLX = true) (b : Bank c) :
    (draw b).1.toNat =
      (c.mix (BitVec.ofNat 64 (b.ls.toNat / 2 ^ (c.lcgBits - 64)) +
        BitVec.ofNat 64 (headOf c b.x b.cur).toNat)).toNat := by
  have hwide : 64 ≤ c.wordBits := (wordBits_of_composite h).ge
  rw [draw_of_composite h, BitVec.toNat_setWidth_of_le hwide, lcgHigh_eq_ofNat h, headWord,
    BitVec.ofNat_toNat]

/-- Settles O26: the word is mixed from the bank before, LS takes one LCG step, X and CUR one XBG
update, and a draw leaves LA and the caches. -/
theorem drawOfTheComposite : Obligations.DrawOfTheComposite := by
  unfold Obligations.DrawOfTheComposite
  intro c b h
  have hbank : (draw b).2 = xbgStep (lcgStep b) := by rw [draw_of_composite h]
  have hls : (draw b).2.ls.toNat =
      ((multiplier c.kind c.mLow).toNat * b.ls.toNat + b.la.toNat) % 2 ^ c.lcgBits := by
    rw [hbank, xbgStep_ls, lcgStep_ls, lcgNext_toNat]
  have hx : (draw b).2.x = (c.update b.x b.cur).1 := by
    rw [hbank, xbgStep_x, lcgStep_x, lcgStep_cur]
  have hcur : (draw b).2.cur = (c.update b.x b.cur).2 := by
    rw [hbank, xbgStep_cur, lcgStep_x, lcgStep_cur]
  exact ⟨draw_word_toNat_of_composite h b, fun hring => headOf_of_no_ring hring b.x b.cur, hls,
    hx, hcur, afterDraw_frame b⟩

end Sys2Proof.Machine
end

section
/-! The distance encoder: the fields of a binary64 as numbers, the natural number an operand stands
for by its exact value, and the word array as the little-endian number it spells
(spec/44_distance_encoder.md R190 to R196). -/

namespace Sys2Proof.Machine

/-! ### The fields of a binary64 -/

theorem doubleExponent_eq (d : Word64) : doubleExponent d = d.toNat / 2 ^ 52 % 2 ^ 11 := by
  rw [doubleExponent, BitVec.extractLsb'_toNat, Nat.shiftRight_eq_div_pow]

theorem doubleFraction_eq (d : Word64) : doubleFraction d = d.toNat % 2 ^ 52 := by
  rw [doubleFraction, BitVec.extractLsb'_toNat, Nat.shiftRight_zero]

theorem doubleFraction_lt (d : Word64) : doubleFraction d < 2 ^ 52 := BitVec.isLt _

theorem doubleSign_iff (d : Word64) : doubleSign d = true ↔ 2 ^ 63 ≤ d.toNat := by
  have hmsb : doubleSign d = d.msb := (BitVec.msb_eq_getLsbD_last d).symm
  rw [hmsb, BitVec.msb_eq_decide, decide_eq_true_iff]

/-- With exponent and fraction zero, only the sign bit is left: 0.0 and -0.0 (R192). -/
theorem toNat_le_of_zero_fields {d : Word64} (he : doubleExponent d = 0)
    (hf : doubleFraction d = 0) : d.toNat ≤ 2 ^ 63 := by
  rw [doubleExponent_eq] at he
  rw [doubleFraction_eq] at hf
  have hd := d.isLt
  omega

/-! ### The value of a normal number -/

/-- Cancelling the common power of two in an equation between scaled numbers. -/
theorem scaled_eq_iff {m n : Nat} (h : n ≤ m) (a b : Nat) :
    a * 2 ^ m = b * 2 ^ n ↔ a * 2 ^ (m - n) = b := by
  have hpow : a * 2 ^ m = a * 2 ^ (m - n) * 2 ^ n := by
    rw [Nat.mul_assoc, ← Nat.pow_add, Nat.sub_add_cancel h]
  rw [hpow, Nat.mul_left_inj (Nat.two_pow_pos n).ne']

theorem le_of_scaled_le {n a b : Nat} (h : a * 2 ^ n ≤ b * 2 ^ n) : a ≤ b :=
  Nat.le_of_mul_le_mul_right h (Nat.two_pow_pos n)

/-- `normalValue` is exact: it gives r just when sig 2^e = r 2^1075 (R193). -/
theorem normalValue_eq_some_iff {f : Nat} (hf : f < 2 ^ 52) (e r : Nat) :
    normalValue e f = some r ↔ (2 ^ 52 + f) * 2 ^ e = r * 2 ^ 1075 := by
  unfold normalValue
  extract_lets sig
  split
  case isTrue he => rw [Option.some_inj, scaled_eq_iff he]
  case isFalse he =>
    rw [eq_comm (a := sig * 2 ^ e), scaled_eq_iff (Nat.le_of_not_le he)]
    generalize 1075 - e = shift
    split
    case isTrue hshift =>
      have hsig : sig < 2 ^ shift :=
        calc sig < 2 ^ 53 := by omega
          _ ≤ 2 ^ shift := Nat.pow_le_pow_right (by decide) hshift
      refine iff_of_false (by simp) fun hr => ?_
      have hdvd : 2 ^ shift ∣ sig := ⟨r, by rw [← hr, Nat.mul_comm]⟩
      exact absurd (Nat.eq_zero_of_dvd_of_lt hdvd hsig) (by omega)
    case isFalse =>
      split
      case isTrue hrem =>
        refine iff_of_false (by simp) fun hr => hrem ?_
        rw [← hr, Nat.mul_mod_left]
      case isFalse hrem =>
        have hdvd := Nat.dvd_of_mod_eq_zero (not_not.1 hrem)
        rw [Option.some_inj, Nat.div_eq_iff_eq_mul_left (Nat.two_pow_pos shift) hdvd, eq_comm]

/-! ### The natural number a binary64 stands for -/

/-- The binary64 `d` has the natural number `r` as its exact value: a zero of either sign, or a
positive normal number (R192, R193). -/
def StandsFor (d : Word64) (r : Nat) : Prop :=
  (doubleExponent d = 0 ∧ doubleFraction d = 0 ∧ r = 0) ∨
    (d.toNat < 2 ^ 63 ∧ 1 ≤ doubleExponent d ∧ doubleExponent d ≤ 2046 ∧
      (2 ^ 52 + doubleFraction d) * 2 ^ doubleExponent d = r * 2 ^ 1075)

/-- A positive normal number passes all four lines of R192. -/
theorem distanceValue_of_normal {d : Word64} (hpos : d.toNat < 2 ^ 63)
    (hlow : 1 ≤ doubleExponent d) (hhigh : doubleExponent d ≤ 2046) :
    distanceValue d = normalValue (doubleExponent d) (doubleFraction d) := by
  have hsign : ¬ doubleSign d = true := by rwa [doubleSign_iff, Nat.not_le]
  have hnonzero : doubleExponent d ≠ 0 := Nat.one_le_iff_ne_zero.1 hlow
  unfold distanceValue
  dsimp only
  rw [if_neg (by omega), if_neg fun h => hnonzero h.1, if_neg hsign, if_neg hnonzero]

theorem distanceValue_of_standsFor {d : Word64} {r : Nat} (h : StandsFor d r) :
    distanceValue d = some r := by
  obtain ⟨he, hf, rfl⟩ | ⟨hpos, hlow, hhigh, hvalue⟩ := h
  · simp [distanceValue, he, hf]
  · rw [distanceValue_of_normal hpos hlow hhigh]
    exact (normalValue_eq_some_iff (doubleFraction_lt d) _ r).2 hvalue

/-- Two ways through R192 end in a value: its second line, and R193 once no line applies. -/
theorem standsFor_of_distanceValue {d : Word64} {r : Nat} (h : distanceValue d = some r) :
    StandsFor d r := by
  have hexp : doubleExponent d < 2 ^ 11 := BitVec.isLt _
  unfold distanceValue at h
  dsimp only at h
  split_ifs at h with hinf hzero hsign hsub
  · exact .inl ⟨hzero.1, hzero.2, (Option.some_inj.1 h).symm⟩
  · rw [doubleSign_iff, Nat.not_le] at hsign
    have hvalue := (normalValue_eq_some_iff (doubleFraction_lt d) _ r).1 h
    exact .inr ⟨hsign, Nat.one_le_iff_ne_zero.2 hsub, by omega, hvalue⟩

/-! ### The word array -/

/-- The array spells r cut to its 64 n bits, little-endian (R194). -/
theorem leNat_distanceArray (n r : Nat) : leNat (distanceArray n r) = r % 2 ^ (64 * n) := by
  induction n with
  | zero => simp [distanceArray, leNat, Nat.mod_one]
  | succ n ih =>
    have hsnoc : distanceArray (n + 1) r =
        distanceArray n r ++ leBytes 8 (BitVec.ofNat 64 (r / 2 ^ (64 * n))) := by
      simp [distanceArray, List.range_succ]
    have hpow : 256 ^ (8 * n) = 2 ^ (64 * n) := by
      rw [show 256 = 2 ^ 8 from rfl, ← Nat.pow_mul, ← Nat.mul_assoc]
    have hsplit : 2 ^ (64 * (n + 1)) = 2 ^ (64 * n) * 2 ^ 64 := by
      rw [Nat.mul_add_one, Nat.pow_add]
    rw [hsnoc, leNat_append, ih, distanceArray_length, leNat_leBytes 8 _ (Nat.le_refl _),
      BitVec.toNat_ofNat, hpow, hsplit, Nat.mod_mul]

theorem lt_two_pow_bitLength (n : Nat) : n < 2 ^ bitLength n := by
  unfold bitLength
  split
  case isTrue h => subst h; decide
  case isFalse => exact Nat.lt_log2_self

/-- KD words are enough for a number below PERIOD (R194, R195). -/
theorem lt_two_pow_distanceWords {c : Cfg} {r : Nat} (h : r < c.period) :
    r < 2 ^ (64 * distanceWords c) := by
  have hbits : bitLength (c.period - 1) ≤ 64 * distanceWords c := by
    unfold distanceWords
    omega
  calc r ≤ c.period - 1 := Nat.le_pred_of_lt h
    _ < 2 ^ bitLength (c.period - 1) := lt_two_pow_bitLength _
    _ ≤ 2 ^ (64 * distanceWords c) := Nat.pow_le_pow_right (by decide) hbits

theorem leNat_distanceArray_of_lt_period {c : Cfg} {r : Nat} (h : r < c.period) :
    leNat (distanceArray (distanceWords c) r) = r := by
  rw [leNat_distanceArray, Nat.mod_eq_of_lt (lt_two_pow_distanceWords h)]

/-! ### DENC -/

/-- The effect of an operand that stands for a distance below PERIOD (R190). -/
theorem dencEffect_of_standsFor {c : Cfg} {d : Word64} {r : Nat} (h : StandsFor d r)
    (hr : r < c.period) : dencEffect c d = .emit (distanceArray (distanceWords c) r) := by
  simp only [dencEffect, distanceValue_of_standsFor h, if_pos hr]

/-- Settles O49: the operand stands for r, and KD words hold it whole. -/
theorem dencEncodesTheExactDistance : Obligations.DencEncodesTheExactDistance := by
  unfold Obligations.DencEncodesTheExactDistance
  intro t d r e f hvalue hr
  have hstands : StandsFor d r := by
    rwa [StandsFor, doubleExponent_eq, doubleFraction_eq]
  exact ⟨distanceArray (distanceWords t.config) r,
    exec_of_effect_emit (dencEffect_of_standsFor hstands hr), distanceArray_length _ r,
    leNat_distanceArray_of_lt_period hr⟩

/-- The effect of an operand that stands for no distance below PERIOD (R190, R196). -/
theorem dencEffect_of_not_standsFor {c : Cfg} {d : Word64}
    (h : ∀ r, StandsFor d r → c.period ≤ r) : dencEffect c d = .fault .ijd := by
  unfold dencEffect
  split
  · rfl
  · next r hvalue =>
    exact if_neg (Nat.not_lt.2 (h r (standsFor_of_distanceValue hvalue)))

/-- A fault changes LAST and FLT alone (spec/60_exceptions.md R245). -/
theorem exec_of_effect_fault {i : Instr} {t : State} {code : FaultCode}
    (h : effect i t.g = .fault code) :
    exec i t = .next { t with last := code.lastValue, flt := setFaultBit t.flt code } := by
  rw [exec_eq_apply_effect, h]
  rfl

/-- Settles O50: a zero meets none of the five clauses, and a positive normal number only the last,
which says that its value is not below PERIOD. -/
theorem dencRejectsEveryOtherOperand : Obligations.DencRejectsEveryOtherOperand := by
  unfold Obligations.DencRejectsEveryOtherOperand
  intro t d
  rw [← doubleExponent_eq, ← doubleFraction_eq]
  intro e f hreject
  refine exec_of_effect_fault (code := .ijd) (dencEffect_of_not_standsFor fun r hstands => ?_)
  obtain ⟨he, hf, -⟩ | ⟨hpos, hlow, hhigh, hvalue⟩ := hstands
  · have hzero := toNat_le_of_zero_fields he hf
    obtain h | h | ⟨-, h⟩ | ⟨h, -⟩ | ⟨h, -⟩ := hreject <;> omega
  · obtain h | h | ⟨h, -⟩ | ⟨-, h⟩ | ⟨-, h⟩ := hreject
    · omega
    · omega
    · omega
    · exact absurd ⟨r, hvalue⟩ h
    · exact le_of_scaled_le (h.trans_eq hvalue)

end Sys2Proof.Machine
end

section
/-! What the codec is built from: an LCG register as 64-bit words and back, slices read as numbers,
and the two ends of RESTORE, with the exchange (spec/45_codec_seed.md R210, R214 to R217, R225). -/

namespace Sys2Proof.Machine

/-! ### An LCG register and its words -/

theorem lcgToWords_lcgFromWords (k : Kind) {ws : List Word64} (h : ws.length = k.lcgBits / 64) :
    lcgToWords k (lcgFromWords k ws) = ws := by
  cases k with
  | x32 | x64 => exact (List.length_eq_zero_iff.1 h).symm
  | lx64 =>
    obtain ⟨w, rfl⟩ := List.length_eq_one_iff.1 h
    rfl
  | lx128 =>
    obtain ⟨hi, lo, rfl⟩ := List.length_eq_two.1 h
    simp [lcgFromWords, lcgToWords]

@[simp] theorem lcgFromWords_lcgToWords (k : Kind) (v : BitVec k.lcgBits) :
    lcgFromWords k (lcgToWords k v) = v := by
  cases k with
  | x32 | x64 => exact (BitVec.eq_nil v).symm
  | lx64 => rfl
  | lx128 => exact join128_high64_low64 v

theorem high64_toNat (v : BitVec 128) : (high64 v).toNat = v.toNat / 2 ^ 64 % 2 ^ 64 := by
  rw [high64_eq_ofNat, BitVec.toNat_ofNat]

theorem low64_toNat (v : BitVec 128) : (low64 v).toNat = v.toNat / 2 ^ 0 % 2 ^ 64 := by
  rw [low64, BitVec.extractLsb'_toNat, Nat.shiftRight_eq_div_pow]

/-- Word h of an LCG register, the high half first, as a number (R210, spec/20_memory.md R53). -/
theorem lcgToWords_getD_toNat (k : Kind) (v : BitVec k.lcgBits) {h : Nat}
    (hh : h < k.lcgBits / 64) :
    ((lcgToWords k v).getD h 0).toNat =
      v.toNat / 2 ^ (64 * (k.lcgBits / 64 - 1 - h)) % 2 ^ 64 := by
  cases k with
  | x32 | x64 => exact absurd hh (Nat.not_lt_zero h)
  | lx64 =>
    obtain rfl : h = 0 := Nat.lt_one_iff.1 hh
    exact (congrArg BitVec.toNat (word64_eq_ofNat v)).trans (BitVec.toNat_ofNat _ _)
  | lx128 =>
    obtain rfl | rfl : h = 0 ∨ h = 1 := Nat.le_one_iff_eq_zero_or_eq_one.1 (Nat.le_of_lt_succ hh)
    · exact high64_toNat v
    · exact low64_toNat v

theorem lcgFromWords_digit (k : Kind) {ws : List Word64} (hws : ws.length = k.lcgBits / 64)
    {h : Nat} (hh : h < k.lcgBits / 64) :
    (lcgFromWords k ws).toNat / 2 ^ (64 * (k.lcgBits / 64 - 1 - h)) % 2 ^ 64 =
      (ws.getD h 0).toNat := by
  rw [← lcgToWords_getD_toNat k _ hh, lcgToWords_lcgFromWords k hws]

theorem forceOdd_eq_join128 (v : BitVec 128) :
    forceOdd v = join128 (high64 v) (low64 v ||| 1) := by
  have hone : (1 : BitVec 128) = 0#64 ++ 1#64 := by decide
  conv_lhs => rw [← join128_high64_low64 v]
  rw [forceOdd, hone, join128, BitVec.or_append, BitVec.or_zero]
  rfl

/-- The two words of a 128-bit register forced odd. -/
theorem forceOdd_halves (v : BitVec 128) :
    [high64 (forceOdd v), low64 (forceOdd v)] = [high64 v, low64 v ||| 1] := by
  rw [forceOdd_eq_join128, high64_join128, low64_join128]

/-- Forcing a register odd touches its last word alone (R217). -/
theorem lcgToWords_forceOdd (k : Kind) (v : BitVec k.lcgBits) {h : Nat}
    (hh : h < k.lcgBits / 64) :
    (lcgToWords k (forceOdd v)).getD h 0 =
      if h = k.lcgBits / 64 - 1 then (lcgToWords k v).getD h 0 ||| 1
      else (lcgToWords k v).getD h 0 := by
  cases k with
  | x32 | x64 => exact absurd hh (Nat.not_lt_zero h)
  | lx64 =>
    obtain rfl : h = 0 := Nat.lt_one_iff.1 hh
    rfl
  | lx128 =>
    have hwords : lcgToWords .lx128 (forceOdd v) = [high64 v, low64 v ||| 1] :=
      forceOdd_halves v
    rw [hwords]
    obtain rfl | rfl : h = 0 ∨ h = 1 := Nat.le_one_iff_eq_zero_or_eq_one.1 (Nat.le_of_lt_succ hh)
    · rfl
    · rfl

theorem forceOdd_lcgFromWords_digit (k : Kind) {ws : List Word64}
    (hws : ws.length = k.lcgBits / 64) {h : Nat} (hh : h < k.lcgBits / 64) :
    (forceOdd (lcgFromWords k ws)).toNat / 2 ^ (64 * (k.lcgBits / 64 - 1 - h)) % 2 ^ 64 =
      if h = k.lcgBits / 64 - 1 then (ws.getD h 0).toNat ||| 1 else (ws.getD h 0).toNat := by
  rw [← lcgToWords_getD_toNat k _ hh, lcgToWords_forceOdd k _ hh, lcgToWords_lcgFromWords k hws,
    apply_ite BitVec.toNat, BitVec.toNat_or]
  rfl

theorem forceOdd_of_odd {l : Nat} {v : BitVec l} (h : 0 < l → v.getLsbD 0 = true) :
    forceOdd v = v := by
  refine BitVec.eq_of_getLsbD_eq fun i hi => ?_
  rw [forceOdd, BitVec.getLsbD_or]
  cases i with
  | zero => simp [h hi]
  | succ i => simp

/-! ### Slices -/

theorem slice_drop (bytes : List Byte) (n i j : Nat) :
    slice (bytes.drop n) i j = slice bytes (n + i) (n + j) := by
  rw [slice, slice, List.drop_drop, Nat.add_sub_add_left]

theorem slice_zero_append {front : List Byte} {n : Nat} (h : front.length = n)
    (back : List Byte) : slice (front ++ back) 0 n = front := by
  rw [slice, List.drop_zero, Nat.sub_zero, List.take_left' h]

theorem slice_length_le (bytes : List Byte) (i n : Nat) : (slice bytes i (i + n)).length ≤ n := by
  rw [slice, Nat.add_sub_cancel_left]
  exact List.length_take_le _ _

/-- A word read from no more bytes than it holds is their number. -/
theorem leWord_toNat {w : Nat} {bytes : List Byte} (h : 8 * bytes.length ≤ w) :
    (leWord w bytes).toNat = leNat bytes := by
  rw [leWord, BitVec.toNat_ofNat]
  refine Nat.mod_eq_of_lt ((leNat_lt bytes).trans_le ?_)
  rw [← two_pow_bytes]
  exact Nat.pow_le_pow_right (by decide) h

theorem w64_toNat (payload : List Byte) (i : Nat) :
    (w64 payload i).toNat = leNat (slice payload (8 * i) (8 * i + 8)) := by
  have h := slice_length_le payload (8 * i) 8
  exact leWord_toNat (by omega)

theorem wWord_toNat (k : Kind) (payload : List Byte) (i : Nat) :
    (wWord k.wordBits payload i).toNat =
      leNat (slice payload (k.wordBits / 8 * i) (k.wordBits / 8 * i + k.wordBits / 8)) := by
  have h := slice_length_le payload (k.wordBits / 8 * i) (k.wordBits / 8)
  have hbytes := wordBits_bytes k
  exact leWord_toNat (by omega)

theorem w64s_getD {payload : List Byte} {n h : Nat} (hh : h < n) :
    (w64s payload n).getD h 0 = w64 payload h := by
  simp [w64s, hh]

/-! ### Loading a bank, refusing it, and exchanging the two -/

theorem exec_of_effect_load {i : Instr} {t : State} {b : Bank t.config}
    (h : effect i t.g = .load b []) : exec i t = .next { t with g := some b, last := 0 } := by
  rw [exec_eq_apply_effect, h, State.apply, State.emit_nil]
  rfl

theorem exec_restore_of_bad {t : State} {payload : List Byte}
    (h : payload.length ≠ stateBytes t.config ∨
      t.config.count ≤ cursorWord t.config payload) :
    exec (.restore payload) t = .next { t with last := 5, flt := t.flt ||| 32 } :=
  exec_of_effect_fault (code := .ser) (if_pos h)

theorem exec_restore_of_good {t : State} {payload : List Byte}
    (hlen : payload.length = stateBytes t.config)
    (hcur : cursorWord t.config payload < t.config.count) :
    exec (.restore payload) t =
      .next { t with g := some (deserialize t.config payload), last := 0 } :=
  exec_of_effect_load (if_neg (not_or.2 ⟨not_not.2 hlen, Nat.not_le.2 hcur⟩))

theorem cursorWord_of_ring {c : Cfg} (h : c.ring = true) (payload : List Byte) :
    cursorWord c payload =
      leNat (slice payload (c.count * wordBytes c) (c.count * wordBytes c + wordBytes c)) :=
  if_pos h

theorem cursorWord_of_no_ring {c : Cfg} (h : c.ring = false) (payload : List Byte) :
    cursorWord c payload = 0 := by
  rw [cursorWord, h]
  rfl

/-- Settles O53: the cursor word of a ring is the one the check of R216 reads. -/
theorem restoreRefusesBadPayloads : Obligations.RestoreRefusesBadPayloads := by
  unfold Obligations.RestoreRefusesBadPayloads
  intro t payload wb at2 h
  refine exec_restore_of_bad (h.imp_right fun ⟨hring, hcur⟩ => ?_)
  rwa [cursorWord_of_ring hring]

/-- Settles O58. -/
theorem xchgSwapsTheBanks : Obligations.XchgSwapsTheBanks := by
  unfold Obligations.XchgSwapsTheBanks
  intro t
  refine ⟨exec_xchg t, ?_⟩
  rw [runCommands_cons (exec_xchg t), runCommands_cons (exec_xchg _)]
  rfl

end Sys2Proof.Machine
end

section
/-! The codec's round trip: RESTORE reads each segment at its offset and SAVE writes it there, so
the one undoes the other up to the caches (spec/45_codec_seed.md R210 to R219). -/

namespace Sys2Proof.Machine

/-! ### What RESTORE reads -/

theorem deserialize_x_toNat (c : Cfg) (payload : List Byte) (i : Fin c.words.count) :
    (deserialize c payload).x[i].toNat =
      leNat (slice payload (wordBytes c * i) (wordBytes c * i + wordBytes c)) := by
  rw [deserialize, Fin.getElem_fin, Vector.getElem_ofFn]
  exact wWord_toNat c.kind payload i

theorem cursorBits_of_ring {c : Cfg} (h : c.ring = true) :
    2 ^ cursorBits c.ring c.words = c.words.count := by
  rw [h]
  rfl

theorem deserialize_cur_toNat {c : Cfg} (hring : c.ring = true) {payload : List Byte}
    (hcur : cursorWord c payload < c.count) :
    (deserialize c payload).cur.toNat = cursorWord c payload := by
  rw [deserialize, BitVec.toNat_ofNat, cursorBits_of_ring hring, Nat.mod_eq_of_lt hcur]

/-- Word h of the segment at an offset is read where R211 puts it. -/
theorem w64s_drop_toNat {payload : List Byte} {offset n h : Nat} (hh : h < n) :
    ((w64s (payload.drop offset) n).getD h 0).toNat =
      leNat (slice payload (offset + 8 * h) (offset + 8 * h + 8)) := by
  rw [w64s_getD hh, w64_toNat, slice_drop, Nat.add_assoc]

theorem deserialize_la_digit (c : Cfg) (payload : List Byte) {h : Nat} (hh : h < lcgWordCount c) :
    (deserialize c payload).la.toNat / 2 ^ (64 * (lcgWordCount c - 1 - h)) % 2 ^ 64 =
      if h = lcgWordCount c - 1 then
        leNat (slice payload (lcgOffset c + 8 * h) (lcgOffset c + 8 * h + 8)) ||| 1
      else leNat (slice payload (lcgOffset c + 8 * h) (lcgOffset c + 8 * h + 8)) := by
  rw [← w64s_drop_toNat hh]
  exact forceOdd_lcgFromWords_digit c.kind (w64s_length _ _) hh

theorem deserialize_ls_digit (c : Cfg) (payload : List Byte) {h : Nat} (hh : h < lcgWordCount c) :
    (deserialize c payload).ls.toNat / 2 ^ (64 * (lcgWordCount c - 1 - h)) % 2 ^ 64 =
      leNat (slice payload (lcgOffset c + 8 * lcgWordCount c + 8 * h)
        (lcgOffset c + 8 * lcgWordCount c + 8 * h + 8)) := by
  rw [← w64s_drop_toNat hh]
  exact lcgFromWords_digit c.kind (w64s_length _ _) hh

/-- The check of R216 passes without a ring, and with one when the cursor word is below N. -/
theorem cursorWord_lt {c : Cfg} {payload : List Byte}
    (h : c.ring = true → leNat (slice payload (c.count * wordBytes c)
      (c.count * wordBytes c + wordBytes c)) < c.count) :
    cursorWord c payload < c.count := by
  cases hring : c.ring with
  | false => exact (cursorWord_of_no_ring hring payload).trans_lt (count_pos c)
  | true => exact (cursorWord_of_ring hring payload).trans_lt (h hring)

/-- Settles O52: the loaded bank is `deserialize`, field by field. -/
theorem restoreLoadsTheSegments : Obligations.RestoreLoadsTheSegments := by
  unfold Obligations.RestoreLoadsTheSegments
  intro t payload wb lw at2 at3 hlen hcursor
  have hcur := cursorWord_lt hcursor
  refine ⟨deserialize t.config payload, exec_restore_of_good hlen hcur,
    deserialize_x_toNat _ payload, fun hring => ?_, fun h => deserialize_la_digit _ payload,
    fun h => deserialize_ls_digit _ payload, rfl, rfl⟩
  rw [deserialize_cur_toNat hring hcur, cursorWord_of_ring hring]

/-! ### What SAVE writes -/

/-- A native word's bytes hold all of it. -/
theorem leNat_leBytes_native {c : Cfg} (v : BitVec c.wordBits) :
    leNat (leBytes (wordBytes c) v) = v.toNat :=
  leNat_leBytes _ v (wordBits_bytes c.kind).ge

/-- Segment 2, the cursor word of a ring (R211). -/
def cursorBytes {c : Cfg} (b : Bank c) : List Byte :=
  if c.ring then leBytes (wordBytes c) (b.cur.setWidth c.wordBits) else []

/-- Segments 5 and 6, the empty cache words (R211, R213). -/
def cacheBytes (c : Cfg) : List Byte :=
  leBytes (wordBytes c) (1 : BitVec c.wordBits) ++
    (if c.wordBits = 64 then leBytes 8 (BitVec.allOnes 64) else [])

/-- Segments 3 and 4: an LCG register (R211). -/
def lcgBytes (k : Kind) (v : BitVec k.lcgBits) : List Byte := (lcgToWords k v).flatMap (leBytes 8)

/-- The serialized form, segment by segment (R210, R211). -/
theorem serialize_eq {c : Cfg} (b : Bank c) :
    serialize b = b.x.toList.flatMap (leBytes (wordBytes c)) ++
      (cursorBytes b ++ (lcgBytes c.kind b.la ++ (lcgBytes c.kind b.ls ++ cacheBytes c))) := by
  simp only [serialize, cursorBytes, lcgBytes, cacheBytes, List.append_assoc]

theorem cursorBytes_length {c : Cfg} (b : Bank c) :
    (cursorBytes b).length = cursorWords c * wordBytes c := by
  unfold cursorBytes cursorWords
  split <;> simp

theorem lcgBytes_length (c : Cfg) (v : BitVec c.kind.lcgBits) :
    (lcgBytes c.kind v).length = 8 * lcgWordCount c := by
  rw [lcgBytes, flatMap_block_length _ 8 fun _ => leBytes_length 8 _, lcgToWords_length]

theorem serialize_drop_words {c : Cfg} (b : Bank c) :
    (serialize b).drop (c.count * wordBytes c) =
      cursorBytes b ++ (lcgBytes c.kind b.la ++ (lcgBytes c.kind b.ls ++ cacheBytes c)) := by
  rw [serialize_eq]
  apply List.drop_left'
  rw [flatMap_block_length _ _ fun _ => leBytes_length _ _, Vector.length_toList, Nat.mul_comm]

theorem serialize_drop_cursor {c : Cfg} (b : Bank c) :
    (serialize b).drop (lcgOffset c) =
      lcgBytes c.kind b.la ++ (lcgBytes c.kind b.ls ++ cacheBytes c) := by
  rw [lcgOffset, Nat.add_mul, ← List.drop_drop, serialize_drop_words,
    List.drop_left' (cursorBytes_length b)]

theorem serialize_drop_la {c : Cfg} (b : Bank c) :
    (serialize b).drop (lcgOffset c + 8 * lcgWordCount c) =
      lcgBytes c.kind b.ls ++ cacheBytes c := by
  rw [← List.drop_drop, serialize_drop_cursor, List.drop_left' (lcgBytes_length c b.la)]

theorem serialize_drop_ls {c : Cfg} (b : Bank c) :
    (serialize b).drop (lcgOffset c + 16 * lcgWordCount c) = cacheBytes c := by
  have hoffset : lcgOffset c + 16 * lcgWordCount c =
      lcgOffset c + 8 * lcgWordCount c + 8 * lcgWordCount c := by omega
  rw [hoffset, ← List.drop_drop, serialize_drop_la, List.drop_left' (lcgBytes_length c b.ls)]

theorem wWord_serialize {c : Cfg} (b : Bank c) (i : Fin c.words.count) :
    wWord c.wordBits (serialize b) i = b.x[i] := by
  have hi : i.val < b.x.toList.length := by rw [Vector.length_toList]; exact i.isLt
  rw [serialize_eq, wordBytes, wWord_flatMap (wordBits_bytes c.kind) _ _ i hi,
    Vector.getElem_toList]
  rfl

/-- A cursor fits a native word. -/
theorem cursorBits_le_wordBits (c : Cfg) : cursorBits c.ring c.words ≤ c.wordBits := by
  have hlog : c.words.log2 ≤ 4 := by cases c.words <;> decide
  have hcursor : cursorBits c.ring c.words ≤ c.words.log2 := by
    unfold cursorBits
    split
    · exact Nat.le_refl _
    · exact Nat.zero_le _
  have hword := wordBits_cases c.kind
  unfold Cfg.wordBits
  omega

theorem cursorBytes_leNat {c : Cfg} (h : c.ring = true) (b : Bank c) (tail : List Byte) :
    leNat (slice (cursorBytes b ++ tail) 0 (wordBytes c)) = b.cur.toNat := by
  rw [cursorBytes, if_pos h, slice_zero_append (leBytes_length _ _),
    leNat_leBytes_native, BitVec.toNat_setWidth_of_le (cursorBits_le_wordBits c)]

theorem cursorWord_serialize {c : Cfg} (b : Bank c) : cursorWord c (serialize b) = b.cur.toNat := by
  by_cases hring : c.ring = true
  · have h := cursorBytes_leNat hring b
      (lcgBytes c.kind b.la ++ (lcgBytes c.kind b.ls ++ cacheBytes c))
    rwa [← serialize_drop_words, slice_drop, Nat.add_zero, ← cursorWord_of_ring hring] at h
  · have hring : c.ring = false := Bool.eq_false_iff.2 hring
    have hwidth : cursorBits c.ring c.words = 0 := by rw [hring]; rfl
    rw [cursorWord_of_no_ring hring, cursor_toNat_eq_zero hwidth]

/-- Reading an LCG register back from its segment. -/
theorem w64s_lcgBytes (c : Cfg) (v : BitVec c.kind.lcgBits) (tail : List Byte) :
    w64s (lcgBytes c.kind v ++ tail) (lcgWordCount c) = lcgToWords c.kind v := by
  rw [← lcgToWords_length c v]
  exact w64s_flatMap _ tail

theorem w64s_serialize_la {c : Cfg} (b : Bank c) :
    w64s ((serialize b).drop (lcgOffset c)) (lcgWordCount c) = lcgToWords c.kind b.la := by
  rw [serialize_drop_cursor, w64s_lcgBytes]

theorem w64s_serialize_ls {c : Cfg} (b : Bank c) :
    w64s ((serialize b).drop (lcgOffset c + 8 * lcgWordCount c)) (lcgWordCount c) =
      lcgToWords c.kind b.ls := by
  rw [serialize_drop_la, w64s_lcgBytes]

theorem serialize_la_digit {c : Cfg} (b : Bank c) {h : Nat} (hh : h < lcgWordCount c) :
    leNat (slice (serialize b) (lcgOffset c + 8 * h) (lcgOffset c + 8 * h + 8)) =
      b.la.toNat / 2 ^ (64 * (lcgWordCount c - 1 - h)) % 2 ^ 64 := by
  rw [← w64s_drop_toNat hh, w64s_serialize_la]
  exact lcgToWords_getD_toNat c.kind b.la hh

theorem serialize_ls_digit {c : Cfg} (b : Bank c) {h : Nat} (hh : h < lcgWordCount c) :
    leNat (slice (serialize b) (lcgOffset c + 8 * lcgWordCount c + 8 * h)
        (lcgOffset c + 8 * lcgWordCount c + 8 * h + 8)) =
      b.ls.toNat / 2 ^ (64 * (lcgWordCount c - 1 - h)) % 2 ^ 64 := by
  rw [← w64s_drop_toNat hh, w64s_serialize_ls]
  exact lcgToWords_getD_toNat c.kind b.ls hh

/-- The cache words of a serialized form are the empty ones (R213). -/
theorem cacheBytes_booleanCache (c : Cfg) :
    leNat (slice (cacheBytes c) 0 (wordBytes c)) = 1 := by
  rw [cacheBytes, slice_zero_append (leBytes_length _ _), leNat_leBytes_native]
  exact BitVec.toNat_one (wordBits_pos c.kind)

theorem cacheBytes_halfCache {c : Cfg} (h : c.wordBits = 64) :
    leNat (slice (cacheBytes c) (wordBytes c) (wordBytes c + 8)) = 2 ^ 64 - 1 := by
  rw [cacheBytes, if_pos h, slice, List.drop_left' (leBytes_length _ _), Nat.add_sub_cancel_left,
    List.take_of_length_le (leBytes_length 8 _).le, leNat_leBytes 8 _ (by decide),
    BitVec.toNat_allOnes]

/-- Settles O51: what RESTORE would read at each offset is the field SAVE wrote there. -/
theorem saveEmitsTheSegments : Obligations.SaveEmitsTheSegments := by
  unfold Obligations.SaveEmitsTheSegments
  intro t b hg wb lw at3 at5
  refine ⟨serialize b, exec_save_valid hg, serialize_length b, fun i => ?_, fun hring => ?_,
    fun h => serialize_la_digit b, fun h => serialize_ls_digit b, ?_, fun hwide => ?_⟩
  · rw [← wWord_serialize b i]
    exact (wWord_toNat _ _ i).symm
  · rw [← cursorWord_serialize b, cursorWord_of_ring hring]
  · have hcache := cacheBytes_booleanCache t.config
    rwa [← serialize_drop_ls b, slice_drop] at hcache
  · have hcache := cacheBytes_halfCache hwide
    rwa [← serialize_drop_ls b, slice_drop, ← Nat.add_assoc] at hcache

/-! ### SAVE, then RESTORE -/

theorem isLX_of_lcgBits_pos {k : Kind} (h : 0 < k.lcgBits) : k.isLX = true := by
  cases k with
  | x32 | x64 => exact absurd h (Nat.lt_irrefl 0)
  | lx64 | lx128 => rfl

theorem hcBits_of_narrow {k : Kind} (h : k.wordBits = 32) : k.hcBits = 0 := by
  cases k with
  | x32 => rfl
  | x64 | lx64 | lx128 => cases h

theorem deserialize_serialize {c : Cfg} {b : Bank c} (hodd : b.additiveOdd) :
    deserialize c (serialize b) = setCachesEmpty b := by
  have hx : (Vector.ofFn fun i : Fin c.words.count => wWord c.wordBits (serialize b) i) = b.x := by
    apply Vector.ext
    intro i hi
    rw [Vector.getElem_ofFn]
    exact wWord_serialize b ⟨i, hi⟩
  have hla : forceOdd b.la = b.la := forceOdd_of_odd fun hl => hodd (isLX_of_lcgBits_pos hl)
  rw [deserialize, hx, cursorWord_serialize, BitVec.ofNat_toNat, BitVec.setWidth_eq,
    w64s_serialize_la, w64s_serialize_ls, lcgFromWords_lcgToWords, lcgFromWords_lcgToWords, hla]
  rfl

theorem exec_restore_serialize {t : State} {b : Bank t.config} (hodd : b.additiveOdd) :
    exec (.restore (serialize b)) t = .next { t with g := some (setCachesEmpty b), last := 0 } := by
  rw [exec_restore_of_good (serialize_length b) ((cursorWord_serialize b).trans_lt (cursor_lt _ _)),
    deserialize_serialize hodd]

/-- A draw does not read the caches and passes them on (spec/40_word_source.md R100). -/
theorem draw_setCachesEmpty {c : Cfg} (b : Bank c) :
    draw (setCachesEmpty b) = ((draw b).1, setCachesEmpty (draw b).2) := by
  have hbank : afterDraw (setCachesEmpty b) = setCachesEmpty (afterDraw b) := by
    unfold afterDraw
    split <;> rfl
  exact congrArg (Prod.mk (drawnWord b)) hbank

theorem draws_setCachesEmpty {c : Cfg} (n : Nat) (b : Bank c) :
    (draws n (setCachesEmpty b)).1 = (draws n b).1 := by
  induction n generalizing b with
  | zero => rfl
  | succ n ih => simp only [draws, draw_setCachesEmpty, ih]

/-- HC of a well-formed bank is empty when its top bit is set, and when there is no HC
(spec/10_state.md R28). -/
theorem Bank.hc_eq_allOnes {c : Cfg} {b : Bank c} (hshape : b.halfCacheShaped)
    (htop : c.wordBits = 64 → b.hc.getLsbD 63 = true) : b.hc = BitVec.allOnes _ := by
  obtain hw | hw := wordBits_cases c.kind
  · exact BitVec.eq_of_zero_length (hcBits_of_narrow hw)
  · refine hshape.resolve_right fun hstash => ?_
    have hclear : b.hc.getLsbD 63 = false :=
      Nat.testBit_lt_two_pow (hstash.trans (by decide))
    exact absurd (htop hw) (Bool.eq_false_iff.1 hclear)

theorem setCachesEmpty_eq_self {c : Cfg} {b : Bank c} (hbc : b.bc = 1)
    (hhc : b.hc = BitVec.allOnes _) : setCachesEmpty b = b := by
  rw [setCachesEmpty, ← hbc, ← hhc]

/-- Settles O54: the restored bank is the saved one with empty caches, and no draw reads a cache. -/
theorem restoreUndoesSave : Obligations.RestoreUndoesSave := by
  unfold Obligations.RestoreUndoesSave
  intro t b hg hwf
  exact ⟨serialize b, exec_save_valid hg,
    fun g s last flt dout cmd =>
      exec_restore_serialize (t := ⟨t.cfg, g, s, last, flt, dout, cmd⟩) hwf.additiveOdd,
    fun n => draws_setCachesEmpty n b,
    fun hbc htop => setCachesEmpty_eq_self hbc (Bank.hc_eq_allOnes hwf.halfCacheShaped htop)⟩

/-- Settles O55: a serialized form does not depend on the caches. -/
theorem saveRestoreSaveGivesTheSameBytes : Obligations.SaveRestoreSaveGivesTheSameBytes := by
  unfold Obligations.SaveRestoreSaveGivesTheSameBytes
  intro t b hg hwf
  refine ⟨serialize b, setCachesEmpty b, exec_save_valid hg, ?_⟩
  have hback : exec (.restore (serialize b)) { t with dout := t.dout ++ serialize b, last := 0 } =
      .next { t with g := some (setCachesEmpty b), dout := t.dout ++ serialize b, last := 0 } :=
    exec_restore_serialize (t := { t with dout := t.dout ++ serialize b, last := 0 })
      hwf.additiveOdd
  rw [runCommands_cons (exec_save_valid hg), runCommands_cons hback,
    runCommands_cons (exec_save_valid rfl)]
  rfl

end Sys2Proof.Machine
end

section
/-! Seeding: the expanded seed in closed form, word by word, and the registers that take its words
(spec/45_codec_seed.md R220 to R223). -/

namespace Sys2Proof.Machine

/-! ### The expanded seed -/

theorem mixerWords_eq_map (c : Cfg) (n : Nat) (x : BitVec c.wordBits) :
    mixerWords c n x =
      (List.range n).map fun i => c.seedFin (x + BitVec.ofNat _ (i + 1) * c.seedGamma) := by
  induction n generalizing x with
  | zero => rfl
  | succ n ih =>
    have hcounter (i : Nat) : x + c.seedGamma + BitVec.ofNat _ (i + 1) * c.seedGamma =
        x + BitVec.ofNat _ (i + 1 + 1) * c.seedGamma := by
      rw [BitVec.ofNat_add (i + 1) 1, BitVec.add_mul, BitVec.one_mul, BitVec.add_assoc,
        BitVec.add_comm c.seedGamma]
    simp only [mixerWords, ih, List.range_succ_eq_map, List.map_cons, List.map_map,
      Function.comp_def, hcounter, Nat.zero_add, BitVec.one_mul, Nat.succ_eq_add_one]

/-- Word i of the expanded seed (R221): given, or the mixer's. -/
def seedWord (c : Cfg) (seed : List (BitVec c.wordBits)) (i : Nat) : BitVec c.wordBits :=
  if i < seed.length then seed.getD i 0
  else c.seedFin (seed.headD 0 + BitVec.ofNat _ (i - seed.length + 1) * c.seedGamma)

theorem expand_length (c : Cfg) (seed : List (BitVec c.wordBits)) :
    (expand c seed).length = nativeWords c := by
  rw [expand, mixerWords_eq_map, List.length_append, List.length_take, List.length_map,
    List.length_range]
  omega

theorem expand_getD (c : Cfg) (seed : List (BitVec c.wordBits)) {i : Nat}
    (hi : i < nativeWords c) : (expand c seed).getD i 0 = seedWord c seed i := by
  rw [expand, mixerWords_eq_map, seedWord]
  by_cases hgiven : i < seed.length
  · rw [if_pos hgiven, List.getD_append _ _ _ _ (by rw [List.length_take]; omega)]
    simp [List.getD_eq_getElem?_getD, hi]
  · have hlen : seed.length ≤ i := Nat.le_of_not_lt hgiven
    have hmixed : i - seed.length < nativeWords c - seed.length := by omega
    rw [if_neg hgiven, List.take_of_length_le (by omega), List.getD_append_right _ _ _ _ hlen]
    simp [List.getD_eq_getElem?_getD, hmixed]

/-! ### The words of a payload -/

theorem wWords_getD {w i : Nat} {payload : List Byte} (hi : i < payload.length / (w / 8)) :
    (wWords w payload).getD i 0 = wWord w payload i := by
  simp [wWords, hi]

theorem wWords_headD (w : Nat) (payload : List Byte) :
    (wWords w payload).headD 0 = if payload.length / (w / 8) = 0 then 0 else wWord w payload 0 := by
  cases h : payload.length / (w / 8) with
  | zero => simp [wWords, h]
  | succ n => simp [wWords, h, List.range_succ_eq_map]

theorem wordBytes_pos (c : Cfg) : 0 < wordBytes c := by
  have hword := wordBits_cases c.kind
  unfold wordBytes Cfg.wordBits
  omega

theorem slice_take {bytes : List Byte} {i j n : Nat} (h : j ≤ n) :
    slice (bytes.take n) i j = slice bytes i j := by
  rw [slice, slice, List.drop_take, List.take_take, Nat.min_eq_left (Nat.sub_le_sub_right h i)]

theorem wWord_take {w n i : Nat} (hi : i < n) (payload : List Byte) :
    wWord w (payload.take (n * (w / 8))) i = wWord w payload i := by
  have hend : w / 8 * i + w / 8 ≤ n * (w / 8) := by
    rw [← Nat.mul_succ, Nat.mul_comm]
    exact Nat.mul_le_mul_right _ hi
  rw [wWord, wWord, slice_take hend]

/-- The words of a payload cut after `n` words are its first `n`. -/
theorem wWords_take {c : Cfg} {n : Nat} {payload : List Byte}
    (h : n * wordBytes c ≤ payload.length) :
    wWords c.wordBits (payload.take (n * wordBytes c)) = (wWords c.wordBits payload).take n := by
  have hpos := wordBytes_pos c
  have hle : n ≤ payload.length / wordBytes c := (Nat.le_div_iff_mul_le hpos).2 h
  have hcount : (payload.take (n * wordBytes c)).length / wordBytes c = n := by
    rw [List.length_take_of_le h, Nat.mul_div_cancel n hpos]
  rw [wordBytes] at hle hcount ⊢
  rw [wWords, wWords, hcount, ← List.map_take, List.take_range, Nat.min_eq_left hle]
  exact List.map_congr_left fun i hi => wWord_take (List.mem_range.1 hi) payload

/-! ### The registers that take the words -/

theorem assignSeed_x {c : Cfg} (s : List (BitVec c.wordBits)) (i : Fin c.words.count) :
    (assignSeed c s).x[i] = s.getD (2 * lcgWordCount c + i) 0 := by
  rw [assignSeed, Fin.getElem_fin, Vector.getElem_ofFn]

/-- A native word taken into an LCG register keeps its value: W is at most 64. -/
theorem take_map_setWidth_getD_toNat {c : Cfg} (s : List (BitVec c.wordBits)) {h n : Nat}
    (hh : h < n) :
    (((s.take n).map (BitVec.setWidth 64)).getD h 0).toNat = (s.getD h 0).toNat := by
  have hbits : c.wordBits ≤ 64 := by
    have hword := wordBits_cases c.kind
    unfold Cfg.wordBits
    omega
  have hzero : (0 : BitVec c.wordBits).setWidth 64 = 0 := BitVec.setWidth_zero _ _
  rw [← hzero, List.getD_map, BitVec.toNat_setWidth_of_le hbits]
  simp [List.getD_eq_getElem?_getD, hh]

theorem assignSeed_la_digit {c : Cfg} {s : List (BitVec c.wordBits)}
    (hs : s.length = nativeWords c) {h : Nat} (hh : h < lcgWordCount c) :
    (assignSeed c s).la.toNat / 2 ^ (64 * (lcgWordCount c - 1 - h)) % 2 ^ 64 =
      if h = lcgWordCount c - 1 then (s.getD h 0).toNat ||| 1 else (s.getD h 0).toNat := by
  have hlen : ((s.take (lcgWordCount c)).map (BitVec.setWidth 64)).length = lcgWordCount c := by
    rw [List.length_map, List.length_take, hs, nativeWords]
    omega
  rw [← take_map_setWidth_getD_toNat s hh]
  exact forceOdd_lcgFromWords_digit c.kind hlen hh

theorem assignSeed_ls_digit {c : Cfg} {s : List (BitVec c.wordBits)}
    (hs : s.length = nativeWords c) {h : Nat} (hh : h < lcgWordCount c) :
    (assignSeed c s).ls.toNat / 2 ^ (64 * (lcgWordCount c - 1 - h)) % 2 ^ 64 =
      (s.getD (lcgWordCount c + h) 0).toNat := by
  have hlen : (((s.drop (lcgWordCount c)).take (lcgWordCount c)).map (BitVec.setWidth 64)).length =
      lcgWordCount c := by
    rw [List.length_map, List.length_take, List.length_drop, hs, nativeWords]
    omega
  have hword : (s.drop (lcgWordCount c)).getD h 0 = s.getD (lcgWordCount c + h) 0 := by
    simp [List.getD_eq_getElem?_getD]
  rw [← hword, ← take_map_setWidth_getD_toNat _ hh]
  exact lcgFromWords_digit c.kind hlen hh

/-! ### SEED -/

/-- The expanded seed of a payload, as R220 to R222 say it. -/
theorem expand_wWords_getD (c : Cfg) (payload : List Byte) {i : Nat} (hi : i < nativeWords c) :
    (expand c (wWords c.wordBits payload)).getD i 0 =
      if i < payload.length / wordBytes c then wWord c.wordBits payload i
      else c.seedFin ((if payload.length / wordBytes c = 0 then 0 else wWord c.wordBits payload 0) +
        BitVec.ofNat _ (i - payload.length / wordBytes c + 1) * c.seedGamma) := by
  rw [expand_getD c _ hi, seedWord, wWords_headD, wWords_length, ← wordBytes]
  split
  · next hgiven => exact wWords_getD hgiven
  · rfl

theorem exec_seed_whole {t : State} {payload : List Byte}
    (h : payload.length % wordBytes t.config = 0) :
    exec (.seed payload) t = .next { t with
      g := some (assignSeed t.config (expand t.config (wWords t.config.wordBits payload)))
      last := 0 } :=
  exec_of_effect_load (if_neg (not_not.2 h))

/-- Settles O56. -/
theorem seedExpandsAndAssigns : Obligations.SeedExpandsAndAssigns := by
  unfold Obligations.SeedExpandsAndAssigns
  intro t payload hwhole c lw n given word
  have hword (i : Nat) (hi : i < t.config.words.count + 2 * lw) :
      (expand c (wWords c.wordBits payload)).getD i 0 = word i := expand_wWords_getD c payload hi
  refine ⟨_, exec_seed_whole hwhole, fun i => ?_, fun h hh => ?_, fun h hh => ?_, rfl, rfl, rfl⟩
  · rw [assignSeed_x]
    exact hword (2 * lw + i) (by omega)
  · rw [← hword h (by omega)]
    exact assignSeed_la_digit (expand_length c _) hh
  · rw [← hword (lw + h) (by omega)]
    exact assignSeed_ls_digit (expand_length c _) hh

/-- A seed of NATIVE words or more leaves nothing to the mixer (R223). -/
theorem expand_of_long {c : Cfg} {seed : List (BitVec c.wordBits)}
    (h : nativeWords c ≤ seed.length) : expand c seed = seed.take (nativeWords c) := by
  rw [expand, Nat.sub_eq_zero_of_le h, mixerWords, List.append_nil]

/-- Settles O57: the words from NATIVE on are cut from the payload or by the expansion alike. -/
theorem overLengthSeedWordsAreIgnored : Obligations.OverLengthSeedWordsAreIgnored := by
  unfold Obligations.OverLengthSeedWordsAreIgnored
  intro t payload hwhole hlong
  have hlen : nativeWords t.config ≤ (wWords t.config.wordBits payload).length := by
    rw [wWords_length]
    exact (Nat.le_div_iff_mul_le (wordBytes_pos t.config)).2 hlong
  have hcut : (payload.take (nativeWords t.config * wordBytes t.config)).length %
      wordBytes t.config = 0 := by
    rw [List.length_take_of_le hlong, Nat.mul_mod_left]
  refine ⟨_, exec_seed_whole hwhole, ?_⟩
  rw [exec_seed_whole hcut, wWords_take hlong, expand_of_long hlen,
    expand_of_long (List.length_take_of_le hlen).ge, List.take_take, Nat.min_self]

end Sys2Proof.Machine
end

section
/-! Faults (spec/60_exceptions.md R241 to R246): what a fault changes, the code each command ends
with, and the commands that need a valid bank or a descriptor. -/

namespace Sys2Proof.Machine

/-! ### A fault changes the status registers alone -/

theorem FaultCode.number_bounds (f : FaultCode) : 1 ≤ f.number ∧ f.number ≤ 5 := by
  cases f <;> decide

/-- An effect ends with LAST 0 and FLT as it was, or is fault entry (spec/60_exceptions.md R245,
R246). -/
theorem apply_ok_or_raise (t : State) (e : Effect t.config) :
    ((t.apply e).last = 0 ∧ (t.apply e).flt = t.flt) ∨ ∃ f : FaultCode, t.apply e = t.raise f := by
  cases e with
  | fault f => exact .inr ⟨f, rfl⟩
  | emit | load | jump | exchange => exact .inl ⟨rfl, rfl⟩

/-- Settles O17: a command applies its effect, and fault entry is the only one that moves FLT. -/
theorem commandsSucceedOrChangeOnlyStatus : Obligations.CommandsSucceedOrChangeOnlyStatus := by
  unfold Obligations.CommandsSucceedOrChangeOnlyStatus
  intro i t u h
  obtain rfl := Host.Outcome.next.inj ((exec_eq_apply_effect i t).symm.trans h)
  refine (apply_ok_or_raise t (effect i t.g)).imp_right fun ⟨f, hf⟩ => ?_
  obtain ⟨hmin, hmax⟩ := f.number_bounds
  exact ⟨f.number, hmin, hmax, hf⟩

/-! ### The code a command ends with -/

/-- The code an effect ends with, 0 for no fault (spec/60_exceptions.md R241). -/
def Effect.code {c : Cfg} : Effect c → Nat
  | .fault f => f.number
  | .emit _ | .load _ _ | .jump _ _ | .exchange => 0

theorem apply_last_toNat (t : State) (e : Effect t.config) : (t.apply e).last.toNat = e.code := by
  cases e with
  | fault f => exact f.lastValue_toNat
  | emit | load | jump | exchange => rfl

theorem onBank_code {c : Cfg} (g : Option (Bank c)) {e : Bank c → Effect c}
    (he : ∀ b, (e b).code = 0) : (onBank g e).code = if g.isSome then 0 else 2 := by
  cases g with
  | none => rfl
  | some b => exact he b

theorem jumpEffect_code {c : Cfg} (g : Option (Bank c)) (coeffs : Option (List Word64))
    (k : Option Nat) : (jumpEffect g coeffs k).code = if g.isSome then 0 else 2 :=
  onBank_code g fun _ => rfl

/-- The descriptor is looked for before the bank (spec/60_exceptions.md R244). -/
theorem descriptorEffect_code {c : Cfg} (g : Option (Bank c))
    (desc : Option (JumpDescriptor c.kind.lcgBits)) :
    (descriptorEffect g desc).code =
      if desc.isSome then if g.isSome then 0 else 2 else 3 := by
  cases desc with
  | none => rfl
  | some d => exact jumpEffect_code g _ _

theorem dencEffect_code (c : Cfg) (d : Word64) :
    (dencEffect c d).code =
      match distanceValue d with
      | none => 4
      | some r => if r < c.period then 0 else 4 := by
  unfold dencEffect
  cases distanceValue d with
  | none => rfl
  | some r => exact apply_ite Effect.code _ _ _

/-- A cursor word is read, and can be too large, on a ring alone (spec/45_codec_seed.md R216). -/
theorem count_le_cursorWord_iff (c : Cfg) (payload : List Byte) :
    c.count ≤ cursorWord c payload ↔ c.ring = true ∧ c.count ≤
      leNat (slice payload (c.count * wordBytes c) (c.count * wordBytes c + wordBytes c)) := by
  cases h : c.ring with
  | false => simp [cursorWord_of_no_ring h, (count_pos c).ne']
  | true => simp [cursorWord_of_ring h]

/-- The length is checked before the cursor (spec/60_exceptions.md R244). -/
theorem restoreEffect_code (c : Cfg) (payload : List Byte) :
    (restoreEffect c payload).code =
      if payload.length ≠ stateBytes c then 5
      else if c.ring = true ∧ c.count ≤
        leNat (slice payload (c.count * wordBytes c) (c.count * wordBytes c + wordBytes c)) then 5
      else 0 := by
  simp only [restoreEffect, apply_ite Effect.code, ite_or, count_le_cursorWord_iff]
  rfl

theorem seedEffect_code {c : Cfg} {payload : List Byte} (h : payload.length % wordBytes c = 0) :
    (seedEffect c payload).code = 0 := by
  rw [seedEffect, if_neg (not_not.2 h)]
  rfl

/-- Settles O18: LAST is the code of the command's effect, and a well-formed JUMPV or SEED is never
illegal. -/
theorem faultCodeOfEveryCommand : Obligations.FaultCodeOfEveryCommand := by
  unfold Obligations.FaultCodeOfEveryCommand
  intro i t hwf unseeded code
  refine ⟨_, exec_eq_apply_effect i t, (apply_last_toNat t _).trans ?_⟩
  cases i with
  | next | nextint | nextlong | nextbool | save => exact onBank_code t.g fun _ => rfl
  | jump | longjump => exact descriptorEffect_code t.g _
  | denc d => exact dencEffect_code t.config d
  | jumpv coeffs =>
    cases coeffs with
    | nil => cases hwf
    | cons w ws => exact jumpEffect_code t.g _ _
  | restore payload => exact restoreEffect_code t.config payload
  | seed payload =>
    rw [Instr.wellFormed, Bool.and_eq_true, decide_eq_true_iff] at hwf
    obtain ⟨hwhole, -⟩ := hwf
    exact seedEffect_code hwhole
  | xchg | umulh | uaddh | mac128 => rfl

/-! ### A bank that is not valid, and a missing descriptor -/

/-- JUMP and LONGJUMP with a descriptor and no valid bank (spec/60_exceptions.md R244). -/
theorem descriptorEffect_unseeded {c : Cfg} {desc : Option (JumpDescriptor c.kind.lcgBits)}
    (h : desc ≠ none) : descriptorEffect none desc = .fault .nsd := by
  obtain ⟨d, rfl⟩ := Option.ne_none_iff_exists'.1 h
  rfl

/-- The eight commands that need bank G (spec/60_exceptions.md R242). -/
theorem effect_unseeded {c : Cfg} {i : Instr}
    (hi : i = .next ∨ i = .nextint ∨ i = .nextlong ∨ i = .nextbool ∨ i = .save ∨
      (i = .jump ∧ c.jump ≠ none) ∨ (i = .longjump ∧ c.ljump ≠ none) ∨
      ∃ w ws, i = .jumpv (w :: ws)) :
    effect i (none : Option (Bank c)) = .fault .nsd := by
  obtain rfl | rfl | rfl | rfl | rfl | ⟨rfl, hdesc⟩ | ⟨rfl, hdesc⟩ | ⟨w, ws, rfl⟩ := hi
  · rfl
  · rfl
  · rfl
  · rfl
  · rfl
  · exact descriptorEffect_unseeded hdesc
  · exact descriptorEffect_unseeded hdesc
  · rfl

/-- Settles O24: the effect is NSD on an invalid bank, and UNS without a descriptor whatever the
bank. -/
theorem unseededAndUnsupportedFault : Obligations.UnseededAndUnsupportedFault := by
  unfold Obligations.UnseededAndUnsupportedFault
  intro t
  refine ⟨fun i hg hi => ?_, fun hjump => ?_, fun hljump => ?_⟩
  · exact exec_of_effect_fault (code := .nsd) (hg ▸ effect_unseeded hi)
  · exact exec_of_effect_fault (code := .uns) (congrArg (descriptorEffect t.g) hjump)
  · exact exec_of_effect_fault (code := .uns) (congrArg (descriptorEffect t.g) hljump)

end Sys2Proof.Machine
end

section
/-! Steps and programs to their end (spec/70_reset_and_hazards.md R277, R279): every step ends in a
next state under the same configuration, so a program runs to its last packet. -/

namespace Sys2Proof.Machine

/-! ### Every step ends -/

/-- CFG is changed by no step (spec/10_state.md R39), and no step stops the engine
(spec/70_reset_and_hazards.md R277). -/
theorem step_next_same_cfg (t : State) : ∃ u, step t = .next u ∧ u.cfg = t.cfg := by
  obtain hwait | ⟨rest, hill⟩ | ⟨rest, i, hexec⟩ := step_effect_cases t
  · exact ⟨t, hwait, rfl⟩
  · exact ⟨_, hill, rfl⟩
  · exact ⟨_, hexec, State.apply_cfg _ _⟩

theorem exec_next_same_cfg_cmd (i : Instr) (t : State) :
    ∃ u, exec i t = .next u ∧ u.cfg = t.cfg ∧ u.cmd = t.cmd :=
  ⟨_, exec_eq_apply_effect i t, State.apply_cfg t _, State.apply_cmd t _⟩

/-- Settles O16: waiting, ILL and every command's effect are next states, and none touches CFG. -/
theorem everyStepEndsUnderTheSameCfg : Obligations.EveryStepEndsUnderTheSameCfg := by
  unfold Obligations.EveryStepEndsUnderTheSameCfg
  exact ⟨step_next_same_cfg, exec_next_same_cfg_cmd⟩

/-! ### A stream of whole packets runs to its end -/

/-- A step on a framed packet, legal or not: the packet is consumed under the same configuration. -/
theorem step_consumes_same_cfg {t : State} {p : Packet} {rest : List Byte}
    (hframe : nextPacket t.cmd = some (p, rest)) :
    ∃ u, step t = .next u ∧ u.cmd = rest ∧ u.cfg = t.cfg := by
  obtain ⟨u, hstep, hcmd⟩ := step_consumes hframe
  obtain ⟨v, hstep', hcfg⟩ := step_next_same_cfg t
  obtain rfl := Host.Outcome.next.inj (hstep.symm.trans hstep')
  exact ⟨u, hstep, hcmd, hcfg⟩

theorem runSteps_step {t u : State} (hstep : step t = .next u) (n : Nat) :
    runSteps (n + 1) t = runSteps n u := by
  rw [runSteps, hstep]

/-- The packets of a stream are run one step each, whatever they are, and nothing is left. -/
theorem runPackets_flatMap_bytes {ps : List Packet} (hps : Framable ps) {fuel : Nat}
    (hfuel : ps.length ≤ fuel) {t : State} (hcmd : t.cmd = ps.flatMap Packet.bytes) :
    ∃ u, runPackets fuel t = .next u ∧ runSteps ps.length t = .next u ∧ u.cmd = [] ∧
      u.cfg = t.cfg := by
  induction ps generalizing fuel t with
  | nil =>
    have hdone : nextPacket t.cmd = none := by rw [hcmd]; rfl
    exact ⟨t, runPackets_done hdone fuel, rfl, hcmd, rfl⟩
  | cons p ps ih =>
    obtain ⟨hp, hps⟩ := List.forall_mem_cons.1 hps
    have hframe : nextPacket t.cmd = some (p, ps.flatMap Packet.bytes) := by
      rw [hcmd, List.flatMap_cons]
      exact nextPacket_bytes p _ hp
    obtain ⟨v, hstep, hrest, hcfg⟩ := step_consumes_same_cfg hframe
    cases fuel with
    | zero => cases hfuel
    | succ fuel =>
      obtain ⟨u, hrun, hsteps, hend, hcfg'⟩ := ih hps (Nat.le_of_succ_le_succ hfuel) hrest
      exact ⟨u, (runPackets_step fuel hframe hstep).trans hrun,
        (runSteps_step hstep ps.length).trans hsteps, hend, hcfg'.trans hcfg⟩

/-! ### Programs -/

theorem runProgram_of_not_isProgram (t : State) {stream : List Byte}
    (h : isProgram stream = false) : runProgram t stream = none := by
  obtain ⟨-, hrun⟩ | ⟨htrue, -⟩ := runProgram_cases t stream
  · exact hrun
  · cases h.symm.trans htrue

/-- Packets one after the other are a program, and running it is as many steps as there are
packets. -/
theorem runProgram_flatMap_bytes {ps : List Packet} (hps : Framable ps) (t : State) :
    ∃ u, runProgram t (ps.flatMap Packet.bytes) = some (.next u) ∧ u.cmd = [] ∧ u.cfg = t.cfg ∧
      runSteps ps.length { t with cmd := ps.flatMap Packet.bytes } = .next u := by
  obtain ⟨hfalse, -⟩ | ⟨-, hrun⟩ := runProgram_cases t (ps.flatMap Packet.bytes)
  · cases hfalse.symm.trans ((isProgram_iff _).2 ⟨ps, hps, rfl⟩)
  · obtain ⟨u, hpackets, hsteps, hend, hcfg⟩ := runPackets_flatMap_bytes hps
      (length_le_flatMap_bytes ps) (t := { t with cmd := ps.flatMap Packet.bytes }) rfl
    exact ⟨u, hrun.trans (congrArg some hpackets), hend, hcfg, hsteps⟩

theorem framable_map_encodePacket {wb : Nat} {is : List Instr}
    (h : ∀ i ∈ is, i.wellFormed wb = true) : Framable (is.map encodePacket) :=
  List.forall_mem_map.2 fun i hi => (legalPayload i wb (h i hi)).2

theorem flatMap_encode (is : List Instr) :
    is.flatMap encode = (is.map encodePacket).flatMap Packet.bytes :=
  (List.flatMap_map encodePacket Packet.bytes is).symm

/-- Encoded commands run as a program end where executing them in order does
(spec/20_memory.md R61). -/
theorem runProgram_flatMap_encode {t : State} {is : List Instr}
    (h : ∀ i ∈ is, i.wellFormed (wordBytes t.config) = true) :
    ∃ u, runCommands { t with cmd := [] } is = .next u ∧
      runProgram t (is.flatMap encode) = some (.next u) := by
  obtain ⟨u, hrun, -, -, hsteps⟩ := runProgram_flatMap_bytes (framable_map_encodePacket h) t
  rw [← flatMap_encode] at hrun hsteps
  have horder := packetsRunInOrder is t [] h
  rw [List.append_nil] at horder
  rw [List.length_map] at hsteps
  exact ⟨u, horder.symm.trans hsteps, hrun⟩

/-- Settles O60: a program is a list of packets, each of them is run in one step, and for encoded
commands those steps are the commands executed in order. -/
theorem programsRunToTheirLastPacket : Obligations.ProgramsRunToTheirLastPacket := by
  unfold Obligations.ProgramsRunToTheirLastPacket
  intro t stream
  refine ⟨runProgram_of_not_isProgram t, fun hprogram => ?_, fun is hwf hstream => ?_⟩
  · obtain ⟨ps, hps, rfl⟩ := (isProgram_iff stream).1 hprogram
    rw [splitPackets_flatMap hps]
    exact runProgram_flatMap_bytes hps t
  · obtain ⟨u, hcommands, hrun⟩ := runProgram_flatMap_encode hwf
    exact ⟨u, hcommands, hstream ▸ hrun, rfl⟩

end Sys2Proof.Machine
end
